-- ==== Sys2Proof/Word.lean ====
section
/-! DEFINITION. The word types of the HaDes XP: 32-bit registers, 16-bit constants, sixteen register names.
Follows 00_scope.md R5 (XLEN = 32, IMMW = 16, NREG = 16) and R8 (every value is a string of 32 bits). -/

namespace Sys2Proof

/-- A register value, data word, address, port address or program counter: 32 bits (R5, R8). -/
abbrev Word := BitVec 32

/-- One byte of a byte file that holds SRE-32 words (30_encoding.md R106). No data access is a byte (20_memory.md R72). -/
abbrev Byte := BitVec 8

/-- A register name r0..r15 (10_state.md R30), also used for the count `#b` of LREGS and SREGS (R107) and for
interrupt numbers and levels 0..15 (10_state.md R50). -/
abbrev Nib := Fin 16

/-- A register name r0..r15: the operand letters w, a, b (00_scope.md R17). -/
abbrev RegNum := Nib

/-- The 16-bit constant `#k`, as written before any extension (00_scope.md R17, 30_encoding.md R105). -/
abbrev Const := BitVec 16

end Sys2Proof
end

