-- ==== Sys2Proof/Config.lean ====
section
/-! DEFINITION. What an implementation fixes (00_scope.md R6) and the values the spec leaves free (R15). -/

namespace Sys2Proof.Config

/-- The n-th free 32-bit value: the spec's `any value` (00_scope.md R15). It has no body, so nothing can be proved
about which value it is: a claim holds for every value. Safe. Log 6. -/
opaque freeWord : Nat → Word

/-- The n-th free bit: the spec's `any value` for a flag (00_scope.md R15). Safe. Log 6. -/
opaque freeBit : Nat → Bool

/-- What the data word at an address holds before anything has written it (10_state.md R57, R60: no value is given).
It is the same at every read of one address. Safe. Log 5. -/
opaque powerOnWord : Nat → Word

/-- FLAGS_LAYOUT: the bit positions of the four overflow flags in LFLAGS and SFLAGS (10_state.md R39, D25). -/
structure FlagsLayout where
  ovMul : Fin 32
  ovShift : Fin 32
  ovUns : Fin 32
  ovSgn : Fin 32
deriving DecidableEq, Repr

/-- The four positions name four different bits. -/
abbrev FlagsLayout.distinct (l : FlagsLayout) : Prop :=
  l.ovMul ≠ l.ovShift ∧ l.ovMul ≠ l.ovUns ∧ l.ovMul ≠ l.ovSgn ∧
    l.ovShift ≠ l.ovUns ∧ l.ovShift ≠ l.ovSgn ∧ l.ovUns ≠ l.ovSgn

/-- DIV_ROUND: the rounding of a quotient that is not whole (40_arithmetic.md R141, D7). The spec's default is
`towardZero`; `towardMinusInfinity` is the flooring that 95_test_vectors.md P3 names beside it. Log 16. -/
inductive DivRound where
  | towardZero
  | towardMinusInfinity
deriving DecidableEq, Repr

/-- The open parameters of 00_scope.md R6 on which the reset state or a step depends. State carries them unchanged, so that
a claim about every state is a claim about every parameter value. Of the others, PROG is an argument of State.launch,
END_OF_RUN one of runToEnd, and for ENC the reference encoding stands in. Log 7. -/
structure Params where
  /-- MEM_SIZE: the valid data addresses are 0..memSize-1 (20_memory.md R71). -/
  memSize : Nat
  /-- PORTS: the port addresses that exist (20_memory.md R77). -/
  ports : List Word
  /-- DIV_ROUND (40_arithmetic.md R141). -/
  divRound : DivRound
  /-- FLAGS_LAYOUT (10_state.md R39). -/
  flagsLayout : FlagsLayout
  /-- SLEEP_WAKES_ON_PENDING (47_other.md R275). -/
  sleepWakesOnPending : Bool
  /-- RESET_PC: pc after reset (70_reset_and_hazards.md R331, D26). Only State.resetWith reads it. -/
  resetPc : Word
  /-- RESET_DIV64PREP: div64Prep after reset (70_reset_and_hazards.md R333 item 6, D26). Only State.resetWith reads it. -/
  resetDiv64Prep : Bool
deriving DecidableEq, Repr

/-- The parameter values the spec admits: 1 <= MEM_SIZE <= 2^32 (20_memory.md R71), and four different flag bits. -/
abbrev Params.valid (p : Params) : Prop :=
  1 ≤ p.memSize ∧ p.memSize ≤ 2 ^ 32 ∧ p.flagsLayout.distinct

/-- The spec's default layout: bit 3 ovMul, bit 2 ovShift, bit 1 ovUns, bit 0 ovSgn (10_state.md R39, D25). Log 27. -/
def defaultLayout : FlagsLayout := { ovMul := 3, ovShift := 2, ovUns := 1, ovSgn := 0 }

/-- The parameters in State.reset: the spec's defaults (R6), and for MEM_SIZE and PORTS, which have none, the
values of 95_test_vectors.md's conventions. DESIGN CHOICE, unsafe for a claim about the reset state alone. Log 7. -/
def defaultParams : Params :=
  { memSize := 0x1000
    ports := [0x40]
    divRound := .towardZero
    flagsLayout := defaultLayout
    sleepWakesOnPending := false
    resetPc := 0
    resetDiv64Prep := false }

end Sys2Proof.Config
end

