-- ==== Sys2Proof/Syntax.lean ====
section
/-! DEFINITION. The 78 instructions of 30_encoding.md R101, one constructor per row of spec/opcode_table.json, operands in
the source's order. JMP and RET are second spellings of BEQZ r0,#k and JMPR b (R111) and have constructors of their own.
`inp` is IN. -/

namespace Sys2Proof

/-- An instruction: mnemonic and operands (00_scope.md R17, R20; 30_encoding.md R101). -/
inductive Instr where
  /-- ADD w,a,b: addition (R131). -/
  | add (w a b : RegNum)
  /-- ADDI w,a,#k: addition, constant second operand (R132). -/
  | addi (w a : RegNum) (k : Const)
  /-- SUB w,a,b: subtraction (R133). -/
  | sub (w a b : RegNum)
  /-- SUBI w,a,#k: subtraction, constant second operand (R134). -/
  | subi (w a : RegNum) (k : Const)
  /-- MUL w,a,b: signed 32x32 to 64 multiplication (R136). -/
  | mul (w a b : RegNum)
  /-- MULI w,a,#k: signed 32x32 to 64 multiplication, constant second operand (R137). -/
  | muli (w a : RegNum) (k : Const)
  /-- PROD w: read rMulHigh (R138). -/
  | prod (w : RegNum)
  /-- DIV w,a,b: signed division (R139). -/
  | div (w a b : RegNum)
  /-- DIVI w,a,#k: signed division, constant second operand (R140). -/
  | divi (w a : RegNum) (k : Const)
  /-- DIV64P a: prepare a 64-bit dividend (R142). -/
  | div64p (a : RegNum)
  /-- MOD w: read rMod (R143). -/
  | mod (w : RegNum)
  /-- MULFP w,a,b: 16.16 fixed-point multiplication (R148). -/
  | mulfp (w a b : RegNum)
  /-- MULFPI w,a,#k: 16.16 fixed-point multiplication, constant second operand (R149). -/
  | mulfpi (w a : RegNum) (k : Const)
  /-- DIVFP w,a,b: 16.16 fixed-point division (R150). -/
  | divfp (w a b : RegNum)
  /-- DIVFPI w,a,#k: 16.16 fixed-point division, constant second operand (R151). -/
  | divfpi (w a : RegNum) (k : Const)
  /-- AND w,a,b: bitwise and (R161). -/
  | and (w a b : RegNum)
  /-- ANDI w,a,#k: bitwise and, constant second operand (R162). -/
  | andi (w a : RegNum) (k : Const)
  /-- OR w,a,b: bitwise or (R163). -/
  | or (w a b : RegNum)
  /-- ORI w,a,#k: bitwise or, constant second operand (R164). -/
  | ori (w a : RegNum) (k : Const)
  /-- XOR w,a,b: bitwise exclusive or (R165). -/
  | xor (w a b : RegNum)
  /-- XORI w,a,#k: bitwise exclusive or, constant second operand (R166). -/
  | xori (w a : RegNum) (k : Const)
  /-- XNOR w,a,b: bitwise equality (R167). -/
  | xnor (w a b : RegNum)
  /-- XNORI w,a,#k: bitwise equality, constant second operand (R168). -/
  | xnori (w a : RegNum) (k : Const)
  /-- SHL w,a,b: left shift (R170). -/
  | shl (w a b : RegNum)
  /-- SHLI w,a,#k: left shift, constant second operand (R171). -/
  | shli (w a : RegNum) (k : Const)
  /-- CSHL w,a,b: left rotation (R172). -/
  | cshl (w a b : RegNum)
  /-- CSHLI w,a,#k: left rotation, constant second operand (R173). -/
  | cshli (w a : RegNum) (k : Const)
  /-- SHR w,a,b: logical right shift (R174). -/
  | shr (w a b : RegNum)
  /-- SHRI w,a,#k: logical right shift, constant second operand (R175). -/
  | shri (w a : RegNum) (k : Const)
  /-- CSHR w,a,b: right rotation (R176). -/
  | cshr (w a b : RegNum)
  /-- CSHRI w,a,#k: right rotation, constant second operand (R177). -/
  | cshri (w a : RegNum) (k : Const)
  /-- SHAR w,a,b: arithmetic right shift (R178). -/
  | shar (w a b : RegNum)
  /-- SHARI w,a,#k: arithmetic right shift, constant second operand (R179). -/
  | shari (w a : RegNum) (k : Const)
  /-- SEQ w,a,b: set if equal (R191). -/
  | seq (w a b : RegNum)
  /-- SEQI w,a,#k: set if equal, constant second operand (R192). -/
  | seqi (w a : RegNum) (k : Const)
  /-- SNE w,a,b: set if not equal (R193). -/
  | sne (w a b : RegNum)
  /-- SNEI w,a,#k: set if not equal, constant second operand (R194). -/
  | snei (w a : RegNum) (k : Const)
  /-- SLT w,a,b: set if less, signed (R195). -/
  | slt (w a b : RegNum)
  /-- SLTI w,a,#k: set if less, signed, constant second operand (R196). -/
  | slti (w a : RegNum) (k : Const)
  /-- SGT w,a,b: set if greater, signed (R197). -/
  | sgt (w a b : RegNum)
  /-- SGTI w,a,#k: set if greater, signed, constant second operand (R198). -/
  | sgti (w a : RegNum) (k : Const)
  /-- SLE w,a,b: set if less or equal, signed (R199). -/
  | sle (w a b : RegNum)
  /-- SLEI w,a,#k: set if less or equal, signed, constant second operand (R200). -/
  | slei (w a : RegNum) (k : Const)
  /-- SGE w,a,b: set if greater or equal, signed (R201). -/
  | sge (w a b : RegNum)
  /-- SGEI w,a,#k: set if greater or equal, signed, constant second operand (R202). -/
  | sgei (w a : RegNum) (k : Const)
  /-- BEQZ a,#k: jump if zero (R212). -/
  | beqz (a : RegNum) (k : Const)
  /-- BNEZ a,#k: jump if not zero (R213). -/
  | bnez (a : RegNum) (k : Const)
  /-- JMP #k: jump (R214). -/
  | jmp (k : Const)
  /-- RET b: return through a register (R215). -/
  | ret (b : RegNum)
  /-- JMPR b: jump through a register (R216). -/
  | jmpr (b : RegNum)
  /-- JAL w,#k: call (R217). -/
  | jal (w : RegNum) (k : Const)
  /-- JALR w,b: call through a register (R218). -/
  | jalr (w b : RegNum)
  /-- START #k: jump, caches invalid, boot memory off (R219). -/
  | start (k : Const)
  /-- STARTR b: START through a register (R220). -/
  | startr (b : RegNum)
  /-- LOAD w,a,#k: load a word (R231). -/
  | load (w a : RegNum) (k : Const)
  /-- STORE b,a,#k: store a word (R232). -/
  | store (b a : RegNum) (k : Const)
  /-- LREGS #b,a,#k: load r1..rn (R233). -/
  | lregs (n : Nib) (a : RegNum) (k : Const)
  /-- SREGS #b,a,#k: store r1..rn (R234). -/
  | sregs (n : Nib) (a : RegNum) (k : Const)
  /-- SMP b: set the write protection bound (R235). -/
  | smp (b : RegNum)
  /-- SMPI #k: set the write protection bound, constant second operand (R236). -/
  | smpi (k : Const)
  /-- IN w,#k: read a port (R251). -/
  | inp (w : RegNum) (k : Const)
  /-- INR w,b: read a port named by a register (R252). -/
  | inr (w b : RegNum)
  /-- OUT a,#k: write a port (R253). -/
  | out (a : RegNum) (k : Const)
  /-- OUTR a,b: write a port named by a register (R254). -/
  | outr (a b : RegNum)
  /-- ENI: enable interrupts (R260). -/
  | eni
  /-- DEI: disable interrupts (R261). -/
  | dei
  /-- SISA a,b: set a service routine address (R262). -/
  | sisa (a b : RegNum)
  /-- SISAI a,#k: set a service routine address, constant second operand (R263). -/
  | sisai (a : RegNum) (k : Const)
  /-- RETI: return from a service routine (R264). -/
  | reti
  /-- LLEA w: read the last effective address (R270). -/
  | llea (w : RegNum)
  /-- LIRA w: read the interrupt return address (R271). -/
  | lira (w : RegNum)
  /-- LFLAGS w: read the overflow flags (R272). -/
  | lflags (w : RegNum)
  /-- SFLAGS b: write the overflow flags (R273). -/
  | sflags (b : RegNum)
  /-- SFLAGSI #k: write the overflow flags, constant second operand (R274). -/
  | sflagsi (k : Const)
  /-- SLEEP: wait for a peripheral interrupt (R275). -/
  | sleep
  /-- LDSI w,#k: load a sign-extended constant (R281). -/
  | ldsi (w : RegNum) (k : Const)
  /-- LDUI w,#k: load a zero-extended constant (R282). -/
  | ldui (w : RegNum) (k : Const)
  /-- LD w,a: copy a register (R283). -/
  | ld (w a : RegNum)
deriving DecidableEq, Repr

end Sys2Proof
end

