-- ==== Sys2Proof/WellFormed.lean ====
section
/-! DEFINITION. Which instructions SRE-32 can hold: register numbers and constants fit their fields by their types, so the
one check left is the count of LREGS and SREGS, 1..15 (30_encoding.md R104, R107). -/

namespace Sys2Proof

/-- The instruction has a valid SRE-32 word (30_encoding.md R107): a block form names at least one register. -/
def Instr.wellFormed : Instr → Bool
  | .add _ _ _ => true
  | .addi _ _ _ => true
  | .sub _ _ _ => true
  | .subi _ _ _ => true
  | .mul _ _ _ => true
  | .muli _ _ _ => true
  | .prod _ => true
  | .div _ _ _ => true
  | .divi _ _ _ => true
  | .div64p _ => true
  | .mod _ => true
  | .mulfp _ _ _ => true
  | .mulfpi _ _ _ => true
  | .divfp _ _ _ => true
  | .divfpi _ _ _ => true
  | .and _ _ _ => true
  | .andi _ _ _ => true
  | .or _ _ _ => true
  | .ori _ _ _ => true
  | .xor _ _ _ => true
  | .xori _ _ _ => true
  | .xnor _ _ _ => true
  | .xnori _ _ _ => true
  | .shl _ _ _ => true
  | .shli _ _ _ => true
  | .cshl _ _ _ => true
  | .cshli _ _ _ => true
  | .shr _ _ _ => true
  | .shri _ _ _ => true
  | .cshr _ _ _ => true
  | .cshri _ _ _ => true
  | .shar _ _ _ => true
  | .shari _ _ _ => true
  | .seq _ _ _ => true
  | .seqi _ _ _ => true
  | .sne _ _ _ => true
  | .snei _ _ _ => true
  | .slt _ _ _ => true
  | .slti _ _ _ => true
  | .sgt _ _ _ => true
  | .sgti _ _ _ => true
  | .sle _ _ _ => true
  | .slei _ _ _ => true
  | .sge _ _ _ => true
  | .sgei _ _ _ => true
  | .beqz _ _ => true
  | .bnez _ _ => true
  | .jmp _ => true
  | .ret _ => true
  | .jmpr _ => true
  | .jal _ _ => true
  | .jalr _ _ => true
  | .start _ => true
  | .startr _ => true
  | .load _ _ _ => true
  | .store _ _ _ => true
  | .lregs n _ _ => n != 0
  | .sregs n _ _ => n != 0
  | .smp _ => true
  | .smpi _ => true
  | .inp _ _ => true
  | .inr _ _ => true
  | .out _ _ => true
  | .outr _ _ => true
  | .eni => true
  | .dei => true
  | .sisa _ _ => true
  | .sisai _ _ => true
  | .reti => true
  | .llea _ => true
  | .lira _ => true
  | .lflags _ => true
  | .sflags _ => true
  | .sflagsi _ => true
  | .sleep => true
  | .ldsi _ _ => true
  | .ldui _ _ => true
  | .ld _ _ => true

end Sys2Proof
end

