-- ==== Sys2Proof/Decode.lean ====
section
/-! DEFINITION. The decoder and the encoder of SRE-32, the spec's reference encoding (30_encoding.md R105 to R109); the
hardware's own encoding is the open parameter ENC (log 1). The decoder is total and rejects by name. -/

namespace Sys2Proof

/-- Why a word is no instruction (30_encoding.md R106, R107, R109). -/
inductive DecodeError where
  /-- The OP value is not in the table of R108. -/
  | unassignedOp
  /-- A field the format does not use is not 0 (R106). -/
  | nonzeroUnusedField
  /-- LREGS or SREGS with count 0 (R107). -/
  | countZero
  /-- Fewer than four bytes are left in a byte file (R106). -/
  | truncated
deriving DecidableEq, Repr

/-! ### Fields (R105) -/

/-- The 4-bit field that holds a register number or a count. -/
def nibBits (r : Nib) : BitVec 4 := BitVec.ofNat 4 r.val

/-- The register number or count a 4-bit field holds. -/
def bitsNib (b : BitVec 4) : Nib := ⟨b.toNat, b.isLt⟩

/-- Field OP, bits 31:24. -/
def opOf (x : Word) : BitVec 8 := x.extractLsb' 24 8

/-- Field W, bits 23:20. -/
def wOf (x : Word) : Nib := bitsNib (x.extractLsb' 20 4)

/-- Field A, bits 19:16. -/
def aOf (x : Word) : Nib := bitsNib (x.extractLsb' 16 4)

/-- Field K, bits 15:0. -/
def kOf (x : Word) : Const := x.extractLsb' 0 16

/-- Field B, bits 15:12, of a form without a constant. -/
def bOf (x : Word) : Nib := bitsNib ((kOf x).extractLsb' 12 4)

/-- Bits 11:0, unused in a form with field B. -/
def lowOf (x : Word) : BitVec 12 := (kOf x).extractLsb' 0 12

/-- Bits 15:0 of a form that holds register b in field B: bits 11:0 are 0. -/
def regK (b : Nib) : Const := nibBits b ++ 0#12

/-- The word with the given fields. -/
def packWord (op : BitVec 8) (w a : Nib) (k : Const) : Word := op ++ nibBits w ++ nibBits a ++ k

/-! ### Formats (R107) -/

/-- The instruction, if every unused field is 0 (R106). -/
def accept (unusedZero : Bool) (i : Instr) : Except DecodeError Instr :=
  if unusedZero then .ok i else .error .nonzeroUnusedField

def fmtWAB (x : Word) (f : Nib → Nib → Nib → Instr) : Except DecodeError Instr :=
  accept (lowOf x == 0) (f (wOf x) (aOf x) (bOf x))

def fmtWAK (x : Word) (f : Nib → Nib → Const → Instr) : Except DecodeError Instr :=
  accept true (f (wOf x) (aOf x) (kOf x))

/-- The count in field W must not be 0. -/
def fmtNAK (x : Word) (f : Nib → Nib → Const → Instr) : Except DecodeError Instr :=
  if wOf x = 0 then .error .countZero else .ok (f (wOf x) (aOf x) (kOf x))

def fmtW (x : Word) (f : Nib → Instr) : Except DecodeError Instr :=
  accept (aOf x == 0 && kOf x == 0) (f (wOf x))

def fmtA (x : Word) (f : Nib → Instr) : Except DecodeError Instr :=
  accept (wOf x == 0 && kOf x == 0) (f (aOf x))

def fmtB (x : Word) (f : Nib → Instr) : Except DecodeError Instr :=
  accept (wOf x == 0 && aOf x == 0 && lowOf x == 0) (f (bOf x))

def fmtK (x : Word) (f : Const → Instr) : Except DecodeError Instr :=
  accept (wOf x == 0 && aOf x == 0) (f (kOf x))

def fmtAK (x : Word) (f : Nib → Const → Instr) : Except DecodeError Instr :=
  accept (wOf x == 0) (f (aOf x) (kOf x))

def fmtWK (x : Word) (f : Nib → Const → Instr) : Except DecodeError Instr :=
  accept (aOf x == 0) (f (wOf x) (kOf x))

def fmtWB (x : Word) (f : Nib → Nib → Instr) : Except DecodeError Instr :=
  accept (aOf x == 0 && lowOf x == 0) (f (wOf x) (bOf x))

def fmtAB (x : Word) (f : Nib → Nib → Instr) : Except DecodeError Instr :=
  accept (wOf x == 0 && lowOf x == 0) (f (aOf x) (bOf x))

def fmtWA (x : Word) (f : Nib → Nib → Instr) : Except DecodeError Instr :=
  accept (kOf x == 0) (f (wOf x) (aOf x))

def fmtNone (x : Word) (i : Instr) : Except DecodeError Instr :=
  accept (wOf x == 0 && aOf x == 0 && kOf x == 0) i

/-- The instruction of an SRE-32 word, or why there is none (R106 to R109). A word of OP B0 with A = 0 is reported as
JMP, a word of OP 32 as JMPR: opcode_table.json lets a decoder report either name (R111, log 12). -/
def decodeWord (x : Word) : Except DecodeError Instr :=
  match (opOf x).toNat with
  | 0x01 => fmtWAB x .add
  | 0x81 => fmtWAK x .addi
  | 0x02 => fmtWAB x .sub
  | 0x82 => fmtWAK x .subi
  | 0x03 => fmtWAB x .mul
  | 0x83 => fmtWAK x .muli
  | 0x20 => fmtW x .prod
  | 0x04 => fmtWAB x .div
  | 0x84 => fmtWAK x .divi
  | 0x22 => fmtA x .div64p
  | 0x21 => fmtW x .mod
  | 0x05 => fmtWAB x .mulfp
  | 0x85 => fmtWAK x .mulfpi
  | 0x06 => fmtWAB x .divfp
  | 0x86 => fmtWAK x .divfpi
  | 0x07 => fmtWAB x .and
  | 0x87 => fmtWAK x .andi
  | 0x08 => fmtWAB x .or
  | 0x88 => fmtWAK x .ori
  | 0x09 => fmtWAB x .xor
  | 0x89 => fmtWAK x .xori
  | 0x0A => fmtWAB x .xnor
  | 0x8A => fmtWAK x .xnori
  | 0x0B => fmtWAB x .shl
  | 0x8B => fmtWAK x .shli
  | 0x0C => fmtWAB x .cshl
  | 0x8C => fmtWAK x .cshli
  | 0x0D => fmtWAB x .shr
  | 0x8D => fmtWAK x .shri
  | 0x0E => fmtWAB x .cshr
  | 0x8E => fmtWAK x .cshri
  | 0x0F => fmtWAB x .shar
  | 0x8F => fmtWAK x .shari
  | 0x10 => fmtWAB x .seq
  | 0x90 => fmtWAK x .seqi
  | 0x11 => fmtWAB x .sne
  | 0x91 => fmtWAK x .snei
  | 0x12 => fmtWAB x .slt
  | 0x92 => fmtWAK x .slti
  | 0x13 => fmtWAB x .sgt
  | 0x93 => fmtWAK x .sgti
  | 0x14 => fmtWAB x .sle
  | 0x94 => fmtWAK x .slei
  | 0x15 => fmtWAB x .sge
  | 0x95 => fmtWAK x .sgei
  | 0xB0 => fmtAK x (fun a k => if a = 0 then .jmp k else .beqz a k)
  | 0xB1 => fmtAK x .bnez
  | 0x32 => fmtB x .jmpr
  | 0xB3 => fmtWK x .jal
  | 0x33 => fmtWB x .jalr
  | 0xB4 => fmtK x .start
  | 0x34 => fmtB x .startr
  | 0xC0 => fmtWAK x .load
  | 0xC1 => fmtWAK x .store
  | 0xC2 => fmtNAK x .lregs
  | 0xC3 => fmtNAK x .sregs
  | 0x27 => fmtB x .smp
  | 0xA7 => fmtK x .smpi
  | 0xD0 => fmtWK x .inp
  | 0x50 => fmtWB x .inr
  | 0xD1 => fmtAK x .out
  | 0x51 => fmtAB x .outr
  | 0x60 => fmtNone x .eni
  | 0x61 => fmtNone x .dei
  | 0x63 => fmtAB x .sisa
  | 0xE3 => fmtAK x .sisai
  | 0x62 => fmtNone x .reti
  | 0x23 => fmtW x .llea
  | 0x24 => fmtW x .lira
  | 0x25 => fmtW x .lflags
  | 0x26 => fmtB x .sflags
  | 0xA6 => fmtK x .sflagsi
  | 0x64 => fmtNone x .sleep
  | 0xF0 => fmtWK x .ldsi
  | 0xF1 => fmtWK x .ldui
  | 0x70 => fmtWA x .ld
  | _ => .error .unassignedOp

/-- The bytes of a word in a byte file: bits 31:24 first (R106). -/
def wordBytes (x : Word) : List Byte :=
  [x.extractLsb' 24 8, x.extractLsb' 16 8, x.extractLsb' 8 8, x.extractLsb' 0 8]

/-- The word of four bytes of a byte file (R106). -/
def bytesWord (b3 b2 b1 b0 : Byte) : Word := b3 ++ b2 ++ b1 ++ b0

/-- The first instruction of a byte file and the bytes after it (R106). -/
def decodeBytes : List Byte → Except DecodeError (Instr × List Byte)
  | b3 :: b2 :: b1 :: b0 :: rest =>
    match decodeWord (bytesWord b3 b2 b1 b0) with
    | .ok i => .ok (i, rest)
    | .error e => .error e
  | _ => .error .truncated

/-- What the decoder reads from the bits w, numbered as spec/opcode_table.json numbers them: the low 32 bits, laid out as
the bytes of one word. -/
def decodeTableWord (_nbits w : Nat) : Option Instr :=
  match decodeBytes (wordBytes (BitVec.ofNat 32 w)) with
  | .ok (i, _) => some i
  | .error _ => none

/-! ### The encoder (R105 to R108) -/

/-- The SRE-32 word of an instruction (R107, R108). -/
def encode : Instr → Word
  | .add w a b => packWord 0x01 w a (regK b)
  | .addi w a k => packWord 0x81 w a k
  | .sub w a b => packWord 0x02 w a (regK b)
  | .subi w a k => packWord 0x82 w a k
  | .mul w a b => packWord 0x03 w a (regK b)
  | .muli w a k => packWord 0x83 w a k
  | .prod w => packWord 0x20 w 0 0
  | .div w a b => packWord 0x04 w a (regK b)
  | .divi w a k => packWord 0x84 w a k
  | .div64p a => packWord 0x22 0 a 0
  | .mod w => packWord 0x21 w 0 0
  | .mulfp w a b => packWord 0x05 w a (regK b)
  | .mulfpi w a k => packWord 0x85 w a k
  | .divfp w a b => packWord 0x06 w a (regK b)
  | .divfpi w a k => packWord 0x86 w a k
  | .and w a b => packWord 0x07 w a (regK b)
  | .andi w a k => packWord 0x87 w a k
  | .or w a b => packWord 0x08 w a (regK b)
  | .ori w a k => packWord 0x88 w a k
  | .xor w a b => packWord 0x09 w a (regK b)
  | .xori w a k => packWord 0x89 w a k
  | .xnor w a b => packWord 0x0A w a (regK b)
  | .xnori w a k => packWord 0x8A w a k
  | .shl w a b => packWord 0x0B w a (regK b)
  | .shli w a k => packWord 0x8B w a k
  | .cshl w a b => packWord 0x0C w a (regK b)
  | .cshli w a k => packWord 0x8C w a k
  | .shr w a b => packWord 0x0D w a (regK b)
  | .shri w a k => packWord 0x8D w a k
  | .cshr w a b => packWord 0x0E w a (regK b)
  | .cshri w a k => packWord 0x8E w a k
  | .shar w a b => packWord 0x0F w a (regK b)
  | .shari w a k => packWord 0x8F w a k
  | .seq w a b => packWord 0x10 w a (regK b)
  | .seqi w a k => packWord 0x90 w a k
  | .sne w a b => packWord 0x11 w a (regK b)
  | .snei w a k => packWord 0x91 w a k
  | .slt w a b => packWord 0x12 w a (regK b)
  | .slti w a k => packWord 0x92 w a k
  | .sgt w a b => packWord 0x13 w a (regK b)
  | .sgti w a k => packWord 0x93 w a k
  | .sle w a b => packWord 0x14 w a (regK b)
  | .slei w a k => packWord 0x94 w a k
  | .sge w a b => packWord 0x15 w a (regK b)
  | .sgei w a k => packWord 0x95 w a k
  | .beqz a k => packWord 0xB0 0 a k
  | .bnez a k => packWord 0xB1 0 a k
  | .jmp k => packWord 0xB0 0 0 k
  | .ret b => packWord 0x32 0 0 (regK b)
  | .jmpr b => packWord 0x32 0 0 (regK b)
  | .jal w k => packWord 0xB3 w 0 k
  | .jalr w b => packWord 0x33 w 0 (regK b)
  | .start k => packWord 0xB4 0 0 k
  | .startr b => packWord 0x34 0 0 (regK b)
  | .load w a k => packWord 0xC0 w a k
  | .store b a k => packWord 0xC1 b a k
  | .lregs n a k => packWord 0xC2 n a k
  | .sregs n a k => packWord 0xC3 n a k
  | .smp b => packWord 0x27 0 0 (regK b)
  | .smpi k => packWord 0xA7 0 0 k
  | .inp w k => packWord 0xD0 w 0 k
  | .inr w b => packWord 0x50 w 0 (regK b)
  | .out a k => packWord 0xD1 0 a k
  | .outr a b => packWord 0x51 0 a (regK b)
  | .eni => packWord 0x60 0 0 0
  | .dei => packWord 0x61 0 0 0
  | .sisa a b => packWord 0x63 0 a (regK b)
  | .sisai a k => packWord 0xE3 0 a k
  | .reti => packWord 0x62 0 0 0
  | .llea w => packWord 0x23 w 0 0
  | .lira w => packWord 0x24 w 0 0
  | .lflags w => packWord 0x25 w 0 0
  | .sflags b => packWord 0x26 0 0 (regK b)
  | .sflagsi k => packWord 0xA6 0 0 k
  | .sleep => packWord 0x64 0 0 0
  | .ldsi w k => packWord 0xF0 w 0 k
  | .ldui w k => packWord 0xF1 w 0 k
  | .ld w a => packWord 0x70 w a 0

/-- The spelling the decoder reports: JMP #k for BEQZ r0,#k and JMPR b for RET b (R111); every other instruction has
one spelling. -/
def canonical : Instr → Instr
  | .beqz a k => if a = 0 then .jmp k else .beqz a k
  | .ret b => .jmpr b
  | i => i

end Sys2Proof
end

