-- ==== Sys2Proof/Machine/Bank.lean ====
section
/-! DEFINITION. A bank of fifteen values numbered 1..15: r1..r15 (10_state.md R30), isa[1..15] (R48), pend[1..15] (R49).
Number 0 is not stored. -/

namespace Sys2Proof.Machine

/-- Fifteen stored values. -/
abbrev Bank (α : Type) := Vector α 15

/-- The value at number i; number 0 holds nothing and reads as `zero`. -/
def Bank.get {α : Type} (b : Bank α) (zero : α) (i : Nib) : α :=
  if h : i.val = 0 then zero else b[i.val - 1]'(by omega)

/-- The bank with v at number i; a write to number 0 changes nothing. -/
def Bank.set {α : Type} (b : Bank α) (i : Nib) (v : α) : Bank α :=
  if h : i.val = 0 then b else Vector.set b (i.val - 1) v (by omega)

end Sys2Proof.Machine
end

