-- ==== Sys2Proof/Machine/Memory.lean ====
section
/-! DEFINITION. Word-addressed memory as plain data (20_memory.md R70, R72): a list of (address, 32-bit word) pairs in one
canonical form. It serves the data memory (10_state.md R57) and the program store (R58). Log 4. -/

namespace Sys2Proof.Machine

/-- The listed addresses and the words they hold, addresses strictly rising. The unit is the 32-bit word, the smallest
thing an address of this machine names (20_memory.md R70, R72). -/
abbrev Memory := List (Nat × Word)

/-- The word at address a; `none` for an address that is not listed: it holds no value (10_state.md R60). -/
def Memory.read : Memory → Nat → Option Word
  | [], _ => none
  | (b, v) :: rest, a => if b = a then some v else Memory.read rest a

/-- The memory with v at address a and every other address as before, in canonical form. -/
def Memory.write : Memory → Nat → Word → Memory
  | [], a, v => [(a, v)]
  | (b, u) :: rest, a, v =>
    if a < b then (a, v) :: (b, u) :: rest
    else if a = b then (a, v) :: rest
    else (b, u) :: Memory.write rest a v

/-- The addresses are strictly rising and none is below lo. -/
def Memory.risesFrom : Nat → Memory → Bool
  | _, [] => true
  | lo, (b, _) :: rest => decide (lo ≤ b) && Memory.risesFrom (b + 1) rest

/-- The canonical form: addresses strictly rising. An unlisted address holds no value, so no entry can equal what an
unlisted address reads as. -/
def Memory.wf (m : Memory) : Bool := Memory.risesFrom 0 m

/-- Every listed address is below bound. -/
def Memory.below (bound : Nat) (m : Memory) : Bool := m.all (fun e => decide (e.1 < bound))

end Sys2Proof.Machine
end

