-- ==== Sys2Proof/Machine/State.lean ====
section
/-! DEFINITION. The state of the HaDes XP, all the spec gives it (10_state.md), as plain data; why a step can stop; reset. -/

namespace Sys2Proof.Machine

/-- The four overflow flags (10_state.md R37). -/
structure Flags where
  /-- Overflow of the last multiplication. -/
  ovMul : Bool
  /-- Overflow of the last left shift. -/
  ovShift : Bool
  /-- Unsigned overflow of the last addition or subtraction. -/
  ovUns : Bool
  /-- Signed overflow of the last addition or subtraction. -/
  ovSgn : Bool
deriving DecidableEq, Repr

/-- One entry of istack: the return address and the level to return to (10_state.md R51). -/
structure IntFrame where
  ret : Word
  level : Nib
deriving DecidableEq, Repr

/-- The six XBus components that request an interrupt (60_exceptions.md R291, R295, R312). -/
inductive Peripheral where
  | xsound
  | xusb
  | xtimer
  | xps2
  | xconsole
  | xjtag
deriving DecidableEq, Repr

/-- What happens at one machine step, before the core looks: a component requests its interrupt, which is an
environment step (60_exceptions.md R297), or nothing, so that the core steps. Log 13. -/
inductive EnvSlot where
  | request (p : Peripheral)
  | quiet
deriving DecidableEq, Repr

/-- One access to an existing port, as the component saw it (20_memory.md R78, R79, R82). Log 14. -/
inductive PortAccess where
  /-- A read of the port that was answered with the value. -/
  | read (port value : Word)
  /-- A write that handed the value to the component. -/
  | write (port value : Word)
deriving DecidableEq, Repr

/-- The reasons a step stops with a fault. -/
inductive Fault where
  /-- Raised by the fetch of a core step: there is no instruction at pc, because pc is above 0xFFFF or the program store
  lists nothing there (20_memory.md R81, D14). Safe: the model claims nothing about what the hardware does then. -/
  | fetchOutsideProgram
deriving DecidableEq, Repr

/-- The reasons a step has no meaning: the spec's `refuse` (00_scope.md R15). -/
inductive Refusal where
  /-- Answered by exec for an instruction that has no meaning yet. No arm does. Safe. -/
  | notModelled (mnemonic : String)
  /-- Answered by the fetch of a core step: the word at pc is no instruction (30_encoding.md R109, D31). Safe. -/
  | invalidWord (why : DecodeError)
  /-- Answered by the fetch of a core step: the program has stored to the address of the instruction at pc, and whether that
  reaches the instruction is not known, so a program that depends on it is refused (20_memory.md R80, R88, D13, V12).
  Log 35. Safe. -/
  | ownCodeStored
  /-- Answered by LREGS and SREGS with count 0 (44_load_store.md R233, R234, D18), which no word decodes to. Safe. -/
  | blockCountZero
  /-- Answered by LREGS whose base register is among those it loads (44_load_store.md R233, D18). Safe. -/
  | blockBaseLoaded
  /-- Answered by SISA and SISAI when register a does not hold 1..15 (46_interrupt_instructions.md R262, D37). Safe. -/
  | noSuchInterrupt
  /-- Answered by RETI when no interrupt is in service (46_interrupt_instructions.md R264, D34). Safe. -/
  | returnOutsideRoutine
  /-- Answered by LIRA when no interrupt is in service: the source calls the behaviour undefined (47_other.md R271, U2).
  Safe. -/
  | returnAddressOutsideRoutine
deriving DecidableEq, Repr

/-- The state of the machine. The rule of spec/ behind each field stands in its docstring; INVENTORY.md lists them all. -/
structure State where
  /-- The parameters of 00_scope.md R6. No step changes them. Log 7. -/
  params : Config.Params
  /-- x[1]..x[15] (10_state.md R30). x[0] is not stored (R31). -/
  regs : Bank Word
  /-- The address of the current instruction (10_state.md R34, R36). -/
  pc : Word
  /-- ovMul, ovShift, ovUns, ovSgn (10_state.md R37). -/
  flags : Flags
  /-- The remainder of the last division (10_state.md R40). -/
  rMod : Word
  /-- Bits 63..32 of the last product (10_state.md R41). -/
  rMulHigh : Word
  /-- Bits 63..32 of the dividend of a prepared division (10_state.md R42). -/
  rDiv64 : Word
  /-- The next division uses rDiv64 (10_state.md R43). -/
  div64Prep : Bool
  /-- Data addresses below it are write-protected (10_state.md R44). -/
  rMemProt : Word
  /-- The last effective memory address (10_state.md R46). -/
  rLEA : Word
  /-- Interrupts globally enabled (10_state.md R47). -/
  ie : Bool
  /-- isa[1]..isa[15], the service routine addresses (10_state.md R48). -/
  isa : Bank Word
  /-- pend[1]..pend[15], the stored requests (10_state.md R49). -/
  pend : Bank Bool
  /-- The interrupt level the core runs at (10_state.md R50). -/
  ilevel : Nib
  /-- Return addresses and previous levels, the innermost first (10_state.md R51). -/
  istack : List IntFrame
  /-- Peripheral interrupts are held back at this boundary (10_state.md R53). -/
  irqHold : Bool
  /-- Access to the boot memory is enabled (10_state.md R54). -/
  bootActive : Bool
  /-- The core has executed SLEEP and waits (10_state.md R55). -/
  asleep : Bool
  /-- The data memory (10_state.md R57). -/
  mem : Memory
  /-- The program store: instruction words by instruction address (10_state.md R58). No instruction writes it. Log 9. -/
  prog : Memory
  /-- The model's own: the program addresses a store has written to as data addresses, the latest first (20_memory.md R80,
  R88). The instruction at such an address is not run again. Log 35. -/
  codeStores : List Word
  /-- The model's own: what the components will do, one slot a step (60_exceptions.md R297). Log 13. -/
  schedule : List EnvSlot
  /-- The model's own: what the components will answer to port reads (20_memory.md R78). Log 14. -/
  portAnswers : List Word
  /-- The model's own: the accesses to existing ports so far, the latest first (20_memory.md R78, R79). Log 14. -/
  portTrace : List PortAccess
  /-- The model's own: how many free values have been drawn (00_scope.md R15). Log 6. -/
  freeCount : Nat
deriving DecidableEq, Repr

/-- The machine right after reset under the parameters p (10_state.md R60, 70_reset_and_hazards.md R330 to R332). Values
the spec gives: pc (RESET_PC), div64Prep (RESET_DIV64PREP), rMemProt, ie, pend, ilevel, istack, irqHold, bootActive,
asleep, and memory with nothing listed. Values the model names: log 2. -/
def State.resetWith (p : Config.Params) : State :=
  { params := p
    regs := Vector.replicate 15 0
    pc := p.resetPc
    flags := { ovMul := false, ovShift := false, ovUns := false, ovSgn := false }
    rMod := 0
    rMulHigh := 0
    rDiv64 := 0
    div64Prep := p.resetDiv64Prep
    rMemProt := 0
    rLEA := 0
    ie := false
    isa := Vector.replicate 15 0
    pend := Vector.replicate 15 false
    ilevel := 0
    istack := []
    irqHold := false
    bootActive := true
    asleep := false
    mem := []
    prog := []
    codeStores := []
    schedule := []
    portAnswers := []
    portTrace := []
    freeCount := 0 }

/-- The machine right after reset under the model's default parameters (00_scope.md R6). Log 7. -/
def State.reset : State := State.resetWith Config.defaultParams

/-- The initial state of a run (70_reset_and_hazards.md R330): the reset state under the parameters p, the program PROG, and
the data memory image the launch supplies (nothing listed if it supplies none). Log 9. -/
def State.launch (p : Config.Params) (prog image : Memory) : State :=
  { State.resetWith p with prog := prog, mem := image }

end Sys2Proof.Machine
end

