-- ==== Sys2Proof/Machine/Flags.lean ====
section
/-! DEFINITION. Every flag computation the spec gives, and the overflow register as one value (10_state.md R37 to R39). -/

namespace Sys2Proof.Machine

/-- The exact value is not a number of the signed 32-bit range (40_arithmetic.md R135, R136, D5, D6). -/
def outsideSigned (v : Int) : Bool := decide (v < -2 ^ 31) || decide (v > 2 ^ 31 - 1)

/-- ovUns after an addition: a carry out of bit 31 (40_arithmetic.md R131, R135). -/
def addUns (a b : Word) : Bool := decide (a.toNat + b.toNat ≥ 2 ^ 32)

/-- ovSgn after an addition (40_arithmetic.md R131, R135). -/
def addSgn (a b : Word) : Bool := outsideSigned (a.toInt + b.toInt)

/-- ovUns after a subtraction: a borrow (40_arithmetic.md R133, R135, D5). -/
def subUns (a b : Word) : Bool := decide (a.toNat < b.toNat)

/-- ovSgn after a subtraction (40_arithmetic.md R133, R135). -/
def subSgn (a b : Word) : Bool := outsideSigned (a.toInt - b.toInt)

/-- ovShift after a left shift by n <= 31: a 1 bit is among A[31:32-n], the bits shifted out (41_logic_shift.md R170). -/
def shiftedOut (a : Word) (n : Nat) : Bool := decide (n ≥ 1) && a >>> (32 - n) != 0

/-- The value with only bit `pos` set, if the flag is. -/
def flagBit (pos : Fin 32) (f : Bool) : Word := if f then 1#32 <<< pos.val else 0

/-- The overflow register as LFLAGS reads it (47_other.md R272); the other bits are 0. -/
def packFlags (l : Config.FlagsLayout) (f : Flags) : Word :=
  flagBit l.ovMul f.ovMul ||| flagBit l.ovShift f.ovShift ||| flagBit l.ovUns f.ovUns ||| flagBit l.ovSgn f.ovSgn

/-- The flags SFLAGS takes from a value; the other bits are ignored (47_other.md R273). -/
def unpackFlags (l : Config.FlagsLayout) (v : Word) : Flags :=
  { ovMul := v.getLsbD l.ovMul.val
    ovShift := v.getLsbD l.ovShift.val
    ovUns := v.getLsbD l.ovUns.val
    ovSgn := v.getLsbD l.ovSgn.val }

end Sys2Proof.Machine
end

