-- ==== Sys2Proof/Machine/Operands.lean ====
section
/-! DEFINITION. Every operand form: registers, constants and their extensions, effective addresses (00_scope.md R9, R10;
30_encoding.md R102 to R104; 20_memory.md R90). -/

namespace Sys2Proof.Machine

/-- `zext_32(k)`: the upper 16 bits are 0 (00_scope.md R9). -/
def zext32 (k : Const) : Word := 0#16 ++ k

/-- `sext_32(k)`: the upper 16 bits equal k[15] (00_scope.md R9). -/
def sext32 (k : Const) : Word := (if k.getLsbD 15 then 0xFFFF#16 else 0#16) ++ k

/-- x[i]: r0 reads as 0 (10_state.md R31, 00_scope.md R10). -/
def State.reg (s : State) (i : RegNum) : Word := Bank.get s.regs 0 i

/-- The effective address (x[a] + sext_32(k)) mod 2^32 of every memory instruction (20_memory.md R90, D3). -/
def effAddr (a : RegNum) (k : Const) (s : State) : Word := s.reg a + sext32 k

/-- The last legal instruction address (00_scope.md R5, 10_state.md R36). -/
def pcMax : Nat := 0xFFFF

/-- A jump to the target requests PCADDR (43_jumps.md R211). -/
def illegalTarget (t : Word) : Bool := decide (t.toNat > pcMax)

/-- An interrupt number 1..15 (60_exceptions.md R291, R292, D20). -/
def irqOfWord (v : Word) : Option Nib :=
  if h : 1 ≤ v.toNat ∧ v.toNat ≤ 15 then some ⟨v.toNat, by omega⟩ else none

end Sys2Proof.Machine
end

