-- ==== Sys2Proof/Machine/Ops.lean ====
section
/-! DEFINITION. The named operations over registers, memory, ports and interrupts that the meanings share; taking an
interrupt and returning from one. -/

namespace Sys2Proof.Machine

/-! ### Updates of one piece of state -/

/-- `x[i] <- v`: a write to r0 is dropped (10_state.md R31, D2). -/
def State.setReg (s : State) (i : RegNum) (v : Word) : State := { s with regs := Bank.set s.regs i v }

def State.setPc (s : State) (v : Word) : State := { s with pc := v }

def State.setFlags (s : State) (f : Flags) : State := { s with flags := f }

def State.setRMod (s : State) (v : Word) : State := { s with rMod := v }

def State.setRMulHigh (s : State) (v : Word) : State := { s with rMulHigh := v }

def State.setRDiv64 (s : State) (v : Word) : State := { s with rDiv64 := v }

def State.setDiv64Prep (s : State) (b : Bool) : State := { s with div64Prep := b }

def State.setRMemProt (s : State) (v : Word) : State := { s with rMemProt := v }

def State.setRLEA (s : State) (v : Word) : State := { s with rLEA := v }

def State.setIe (s : State) (b : Bool) : State := { s with ie := b }

/-- `isa[i] <- v` (10_state.md R48). -/
def State.setIsa (s : State) (i : Nib) (v : Word) : State := { s with isa := Bank.set s.isa i v }

/-- `pend[i] <- b` (10_state.md R49). -/
def State.setPend (s : State) (i : Nib) (b : Bool) : State := { s with pend := Bank.set s.pend i b }

/-- The level and the stack of interrupts in service (10_state.md R50, R51). -/
def State.setService (s : State) (l : Nib) (st : List IntFrame) : State := { s with ilevel := l, istack := st }

def State.setIrqHold (s : State) (b : Bool) : State := { s with irqHold := b }

def State.setBootActive (s : State) (b : Bool) : State := { s with bootActive := b }

def State.setAsleep (s : State) (b : Bool) : State := { s with asleep := b }

def State.setMem (s : State) (m : Memory) : State := { s with mem := m }

def State.setProg (s : State) (m : Memory) : State := { s with prog := m }

def State.setCodeStores (s : State) (l : List Word) : State := { s with codeStores := l }

def State.setSchedule (s : State) (l : List EnvSlot) : State := { s with schedule := l }

def State.setAnswers (s : State) (l : List Word) : State := { s with portAnswers := l }

def State.setTrace (s : State) (l : List PortAccess) : State := { s with portTrace := l }

def State.setFreeCount (s : State) (n : Nat) : State := { s with freeCount := n }

/-! ### Reads -/

/-- isa[i] (10_state.md R48). -/
def State.isaAt (s : State) (i : Nib) : Word := Bank.get s.isa 0 i

/-- pend[i] (10_state.md R49); there is no interrupt 0. -/
def State.pendAt (s : State) (i : Nib) : Bool := Bank.get s.pend false i

/-! ### The end of an instruction -/

/-- `pc <- pc + 1; irqHold <- 0`: the end of most instructions (00_scope.md R14, 10_state.md R35, R53). -/
def State.advance (s : State) : State := (s.setPc (s.pc + 1)).setIrqHold false

/-- `pc <- pc + 1; irqHold <- 1`: the end of MUL, MULFP, DIV, DIV64P and their immediate forms (10_state.md R53,
60_exceptions.md R301). -/
def State.advanceHold (s : State) : State := (s.setPc (s.pc + 1)).setIrqHold true

/-- The instruction is complete. -/
def done (s : State) : Host.Outcome State Fault Refusal := .next s

/-! ### Free values (00_scope.md R15) -/

/-- Draws a free 32-bit value. -/
def drawWord (s : State) : Word × State := (Config.freeWord s.freeCount, s.setFreeCount (s.freeCount + 1))

/-- Draws a free bit. -/
def drawBit (s : State) : Bool × State := (Config.freeBit s.freeCount, s.setFreeCount (s.freeCount + 1))

/-! ### Interrupt requests (60_exceptions.md R296) -/

/-- `raise IRQ(i)`: the request is stored; a second one is merged with it (R296, D23). -/
def raise (i : Nib) (s : State) : State := s.setPend i true

/-- XADDR, interrupt 13 (60_exceptions.md R291). -/
def irqXaddr : Nib := 13

/-- MEMADDR, interrupt 14 (60_exceptions.md R291). -/
def irqMemaddr : Nib := 14

/-- PCADDR, interrupt 15 (60_exceptions.md R291). -/
def irqPcaddr : Nib := 15

/-- The interrupt number of a component (60_exceptions.md R291). -/
def Peripheral.irq : Peripheral → Nib
  | .xsound => 3
  | .xusb => 4
  | .xtimer => 5
  | .xps2 => 6
  | .xconsole => 7
  | .xjtag => 8

/-- The number of one of the six peripheral interrupts, 3..8 (60_exceptions.md R295). -/
def isPeripheral (i : Nib) : Bool := decide (3 ≤ i.val) && decide (i.val ≤ 8)

/-- Every interrupt number, highest priority first (60_exceptions.md R291, R303). -/
def irqsByPriority : List Nib := [15, 14, 13, 12, 11, 10, 9, 8, 7, 6, 5, 4, 3, 2, 1]

/-! ### Data memory (20_memory.md) -/

/-- The address exists: u(addr) < MEM_SIZE (R71). -/
def State.validAddr (s : State) (addr : Word) : Bool := decide (addr.toNat < s.params.memSize)

/-- A store to the address is permitted: it exists and is not below rMemProt, compared unsigned (R75, R76, D17). -/
def State.writable (s : State) (addr : Word) : Bool :=
  s.validAddr addr && decide (addr.toNat ≥ s.rMemProt.toNat)

/-- The word an existing address holds: the word last stored there, or the free value it has held since power-on
(10_state.md R57, R60; log 5). -/
def State.memWord (s : State) (addr : Word) : Word :=
  match s.mem.read addr.toNat with
  | some v => v
  | none => Config.powerOnWord addr.toNat

/-- `MemRead(addr, 1)`: the word at an existing address; otherwise any value, and MEMADDR is requested (R74). -/
def memRead (addr : Word) (s : State) : Word × State :=
  if s.validAddr addr then (s.memWord addr, s) else drawWord (raise irqMemaddr s)

/-- The record of stores into the program's own code, after a store to the address: it is added where the program holds an
instruction at that address (R80, D13; log 35). -/
def State.codeStoresWith (s : State) (addr : Word) : List Word :=
  if (s.prog.read addr.toNat).isSome then addr :: s.codeStores else s.codeStores

/-- `MemWrite(addr, 1, v)`: stores at an existing, unprotected address, a store into the program's own code being recorded;
otherwise memory is unchanged and MEMADDR is requested (R75, R80, D16). -/
def memWrite (addr v : Word) (s : State) : State :=
  if s.writable addr then (s.setMem (s.mem.write addr.toNat v)).setCodeStores (s.codeStoresWith addr)
  else raise irqMemaddr s

/-- The block read of LREGS: x[i] <- MemRead(ea + (i-1), 1) for i = 1..n in order (44_load_store.md R233). -/
def loadBlock (ea : Word) : Nat → State → State
  | 0, s => s
  | n + 1, s =>
    let r := memRead (ea + BitVec.ofNat 32 n) (loadBlock ea n s)
    r.2.setReg (Fin.ofNat 16 (n + 1)) r.1

/-- The block write of SREGS: MemWrite(ea + (i-1), 1, x[i]) for i = 1..n in order (44_load_store.md R234). -/
def storeBlock (ea : Word) : Nat → State → State
  | 0, s => s
  | n + 1, s => memWrite (ea + BitVec.ofNat 32 n) (s.reg (Fin.ofNat 16 (n + 1))) (storeBlock ea n s)

/-! ### Ports (20_memory.md R77 to R79) -/

/-- The port exists (R77). -/
def State.portExists (s : State) (p : Word) : Bool := s.params.ports.contains p

/-- What the component at a port answers: the next answer of the environment, or any value where none is listed
(R78; log 14). -/
def portAnswer (s : State) : Word × State :=
  match s.portAnswers with
  | v :: rest => (v, s.setAnswers rest)
  | [] => drawWord s

/-- `PortRead(p)`: the component's answer, the access being recorded; where no port is, any value, and XADDR is requested
(R78, C4). -/
def portRead (p : Word) (s : State) : Word × State :=
  if s.portExists p then
    let r := portAnswer s
    (r.1, r.2.setTrace (.read p r.1 :: r.2.portTrace))
  else drawWord (raise irqXaddr s)

/-- `PortWrite(p, v)`: v is handed to the component; where no port is, XADDR is requested and nothing else happens
(R79, D19). -/
def portWrite (p v : Word) (s : State) : State :=
  if s.portExists p then s.setTrace (.write p v :: s.portTrace) else raise irqXaddr s

/-! ### Jumps (43_jumps.md R210, R211) -/

/-- Transfers control to the target: PCADDR is requested for an illegal one, and pc takes it all the same (R211, D14). -/
def jumpTo (t : Word) (s : State) : State :=
  ((if illegalTarget t then raise irqPcaddr s else s).setPc t).setIrqHold false

/-! ### Taking an interrupt and returning (60_exceptions.md R300 to R306) -/

/-- Interrupt i is a candidate: requested, above the level, and not a peripheral one held back (R300, R301). -/
def State.candidate (s : State) (i : Nib) : Bool :=
  s.pendAt i && decide (i.val > s.ilevel.val) && !(s.irqHold && isPeripheral i)

/-- The interrupt the next core step takes: the highest candidate, if interrupts are enabled (R300, R303, D35). -/
def State.interruptToTake (s : State) : Option Nib :=
  if s.ie then irqsByPriority.find? (fun i => s.candidate i) else none

/-- Takes interrupt i (R302, D21): the pc and the level are saved on istack, the level becomes i, the request is cleared
and pc is the routine's address. ie and everything else are unchanged. -/
def takeInterrupt (i : Nib) (s : State) : State :=
  ((((s.setService i ({ ret := s.pc, level := s.ilevel } :: s.istack)).setPend i false).setPc (s.isaAt i)).setIrqHold false)

/-- Return from an interrupt (46_interrupt_instructions.md R264, D21): pc and level as saved; ie and everything else but
irqHold unchanged. Outside a routine it is refused (D34). -/
def returnFromInterrupt (s : State) : Host.Outcome State Fault Refusal :=
  match s.istack with
  | [] => .refused .returnOutsideRoutine
  | f :: rest => done (((s.setService f.level rest).setPc f.ret).setIrqHold false)

/-! ### Sleeping and the environment (47_other.md R275, 60_exceptions.md R297) -/

/-- One of the six peripheral requests is stored. -/
def State.peripheralPending (s : State) : Bool := irqsByPriority.any (fun i => isPeripheral i && s.pendAt i)

/-- The environment step: the component's request is stored, and a sleeping core wakes with pc at the instruction after
the SLEEP (R297, R275, D24). -/
def envRequest (p : Peripheral) (s : State) : State :=
  let s' := raise p.irq s
  if s'.asleep then (s'.setAsleep false).setPc (s'.pc + 1) else s'

end Sys2Proof.Machine
end

