-- ==== Sys2Proof/Machine/Arith.lean ====
section
/-! DEFINITION. Arithmetic (40_arithmetic.md R130 to R152): addition, subtraction, multiplication, division, fixed point. -/

namespace Sys2Proof.Machine

/-! ### Shared operations -/

/-- ADD with the second operand's value (R131, R132). -/
def addOp (w : RegNum) (a b : Word) (s : State) : Host.Outcome State Fault Refusal :=
  done (((s.setReg w (a + b)).setFlags { s.flags with ovUns := addUns a b, ovSgn := addSgn a b }).advance)

/-- SUB with the second operand's value (R133, R134). -/
def subOp (w : RegNum) (a b : Word) (s : State) : Host.Outcome State Fault Refusal :=
  done (((s.setReg w (a - b)).setFlags { s.flags with ovUns := subUns a b, ovSgn := subSgn a b }).advance)

/-- The exact signed product modulo 2^64 (R136, R148). -/
def product64 (a b : Word) : BitVec 64 := BitVec.ofInt 64 (a.toInt * b.toInt)

/-- MUL with the second operand's value (R136, R137). -/
def mulOp (w : RegNum) (a b : Word) (s : State) : Host.Outcome State Fault Refusal :=
  let p := product64 a b
  done ((((s.setReg w (p.extractLsb' 0 32)).setRMulHigh (p.extractLsb' 32 32)).setFlags
    { s.flags with ovMul := outsideSigned (a.toInt * b.toInt) }).advanceHold)

/-- Q(T, D), the quotient under DIV_ROUND; the spec's default rounds toward zero (R141, D7; log 16). -/
def quotient (r : Config.DivRound) (t d : Int) : Int :=
  match r with
  | .towardZero => Int.tdiv t d
  | .towardMinusInfinity => Int.fdiv t d

/-- R(T, D) = T - Q(T, D) * D (R141). -/
def remainder (r : Config.DivRound) (t d : Int) : Int := t - quotient r t d * d

/-- The division has no stated result: the divisor is 0 or the quotient does not fit (R139, R141, R150, D8). -/
def divUndefined (r : Config.DivRound) (t d : Int) : Bool := decide (d = 0) || outsideSigned (quotient r t d)

/-- T: the pair (rDiv64, x[a]) if a 64-bit dividend is prepared, else x[a], read as signed (R139, R144). -/
def State.dividend (s : State) (a : Word) : Int := if s.div64Prep then (s.rDiv64 ++ a).toInt else a.toInt

/-- DIV with the second operand's value (R139, R140, R141): where no result is stated, x[w] and rMod are free values. -/
def divOp (w : RegNum) (a b : Word) (s : State) : Host.Outcome State Fault Refusal :=
  let t := s.dividend a
  let d := b.toInt
  let s1 := s.setDiv64Prep false
  if divUndefined s.params.divRound t d then
    let q := drawWord s1
    let m := drawWord q.2
    done (((m.2.setReg w q.1).setRMod m.1).advanceHold)
  else
    done (((s1.setReg w (BitVec.ofInt 32 (quotient s.params.divRound t d))).setRMod
      (BitVec.ofInt 32 (remainder s.params.divRound t d))).advanceHold)

/-- MULFP with the second operand's value (R148, R149, R152, D9): bits 47..16 of the exact product; rMulHigh and ovMul are
free values. -/
def mulFpOp (w : RegNum) (a b : Word) (s : State) : Host.Outcome State Fault Refusal :=
  let h := drawWord s
  let o := drawBit h.2
  done ((((o.2.setReg w ((product64 a b).extractLsb' 16 32)).setRMulHigh h.1).setFlags
    { s.flags with ovMul := o.1 }).advanceHold)

/-- DIVFP with the second operand's value (R150, R151, R152, D10): Q(s(A) * 2^16, s(B)), a free value where that is not
stated; rMod is a free value; irqHold is cleared. -/
def divFpOp (w : RegNum) (a b : Word) (s : State) : Host.Outcome State Fault Refusal :=
  let n := a.toInt * 2 ^ 16
  let d := b.toInt
  let m := drawWord (s.setDiv64Prep false)
  let s1 := m.2.setRMod m.1
  if divUndefined s.params.divRound n d then
    let q := drawWord s1
    done ((q.2.setReg w q.1).advance)
  else
    done ((s1.setReg w (BitVec.ofInt 32 (quotient s.params.divRound n d))).advance)

/-! ### The instructions -/

/-- ADD w,a,b (R131). -/
def execAdd (w a b : RegNum) (s : State) : Host.Outcome State Fault Refusal := addOp w (s.reg a) (s.reg b) s

/-- ADDI w,a,#k (R132). -/
def execAddi (w a : RegNum) (k : Const) (s : State) : Host.Outcome State Fault Refusal := addOp w (s.reg a) (sext32 k) s

/-- SUB w,a,b (R133). -/
def execSub (w a b : RegNum) (s : State) : Host.Outcome State Fault Refusal := subOp w (s.reg a) (s.reg b) s

/-- SUBI w,a,#k (R134). -/
def execSubi (w a : RegNum) (k : Const) (s : State) : Host.Outcome State Fault Refusal := subOp w (s.reg a) (sext32 k) s

/-- MUL w,a,b (R136). -/
def execMul (w a b : RegNum) (s : State) : Host.Outcome State Fault Refusal := mulOp w (s.reg a) (s.reg b) s

/-- MULI w,a,#k (R137). -/
def execMuli (w a : RegNum) (k : Const) (s : State) : Host.Outcome State Fault Refusal := mulOp w (s.reg a) (sext32 k) s

/-- PROD w (R138). -/
def execProd (w : RegNum) (s : State) : Host.Outcome State Fault Refusal := done ((s.setReg w s.rMulHigh).advance)

/-- DIV w,a,b (R139). -/
def execDiv (w a b : RegNum) (s : State) : Host.Outcome State Fault Refusal := divOp w (s.reg a) (s.reg b) s

/-- DIVI w,a,#k (R140). -/
def execDivi (w a : RegNum) (k : Const) (s : State) : Host.Outcome State Fault Refusal := divOp w (s.reg a) (sext32 k) s

/-- DIV64P a (R142). -/
def execDiv64p (a : RegNum) (s : State) : Host.Outcome State Fault Refusal :=
  done (((s.setRDiv64 (s.reg a)).setDiv64Prep true).advanceHold)

/-- MOD w (R143). -/
def execMod (w : RegNum) (s : State) : Host.Outcome State Fault Refusal := done ((s.setReg w s.rMod).advance)

/-- MULFP w,a,b (R148). -/
def execMulfp (w a b : RegNum) (s : State) : Host.Outcome State Fault Refusal := mulFpOp w (s.reg a) (s.reg b) s

/-- MULFPI w,a,#k (R149). -/
def execMulfpi (w a : RegNum) (k : Const) (s : State) : Host.Outcome State Fault Refusal :=
  mulFpOp w (s.reg a) (sext32 k) s

/-- DIVFP w,a,b (R150). -/
def execDivfp (w a b : RegNum) (s : State) : Host.Outcome State Fault Refusal := divFpOp w (s.reg a) (s.reg b) s

/-- DIVFPI w,a,#k (R151). -/
def execDivfpi (w a : RegNum) (k : Const) (s : State) : Host.Outcome State Fault Refusal :=
  divFpOp w (s.reg a) (sext32 k) s

end Sys2Proof.Machine
end

