-- ==== Sys2Proof/Machine/Interrupt.lean ====
section
/-! DEFINITION. The instructions that control interrupts (46_interrupt_instructions.md R260 to R265). None is privileged:
the hardware has one mode (60_exceptions.md R310). -/

namespace Sys2Proof.Machine

/-- Sets the routine address of the interrupt whose number register a holds (R262, R263). -/
def sisaOp (i v : Word) (s : State) : Host.Outcome State Fault Refusal :=
  match irqOfWord i with
  | some n => done ((s.setIsa n v).advance)
  | none => .refused .noSuchInterrupt

/-- ENI (R260). -/
def execEni (s : State) : Host.Outcome State Fault Refusal := done ((s.setIe true).advance)

/-- DEI (R261). -/
def execDei (s : State) : Host.Outcome State Fault Refusal := done ((s.setIe false).advance)

/-- SISA a,b (R262). -/
def execSisa (a b : RegNum) (s : State) : Host.Outcome State Fault Refusal := sisaOp (s.reg a) (s.reg b) s

/-- SISAI a,#k (R263). -/
def execSisai (a : RegNum) (k : Const) (s : State) : Host.Outcome State Fault Refusal := sisaOp (s.reg a) (sext32 k) s

/-- RETI (R264). -/
def execReti (s : State) : Host.Outcome State Fault Refusal := returnFromInterrupt s

end Sys2Proof.Machine
end

