-- ==== Sys2Proof/Machine/Jump.lean ====
section
/-! DEFINITION. Jumps and branches (43_jumps.md R210 to R221). Targets are absolute; the caches START invalidates have no
effect on any value (20_memory.md R84, R89). -/

namespace Sys2Proof.Machine

/-- A conditional branch: to the target if the condition holds, else to the next instruction (R212, R213). -/
def branchOp (c : Bool) (k : Const) (s : State) : Host.Outcome State Fault Refusal :=
  if c then done (jumpTo (sext32 k) s) else done s.advance

/-- A call: the link is the address after the call (R217, R218). -/
def linkOp (w : RegNum) (t : Word) (s : State) : Host.Outcome State Fault Refusal :=
  done (jumpTo t (s.setReg w (s.pc + 1)))

/-- START: access to the boot memory is switched off, then the jump (R219, R220, D27). -/
def startOp (t : Word) (s : State) : Host.Outcome State Fault Refusal := done (jumpTo t (s.setBootActive false))

/-- BEQZ a,#k (R212). -/
def execBeqz (a : RegNum) (k : Const) (s : State) : Host.Outcome State Fault Refusal := branchOp (decide (s.reg a = 0)) k s

/-- BNEZ a,#k (R213). -/
def execBnez (a : RegNum) (k : Const) (s : State) : Host.Outcome State Fault Refusal := branchOp (decide (s.reg a ≠ 0)) k s

/-- JMP #k (R214). -/
def execJmp (k : Const) (s : State) : Host.Outcome State Fault Refusal := done (jumpTo (sext32 k) s)

/-- RET b (R215): the effect of JMPR b. -/
def execRet (b : RegNum) (s : State) : Host.Outcome State Fault Refusal := done (jumpTo (s.reg b) s)

/-- JMPR b (R216). -/
def execJmpr (b : RegNum) (s : State) : Host.Outcome State Fault Refusal := done (jumpTo (s.reg b) s)

/-- JAL w,#k (R217). -/
def execJal (w : RegNum) (k : Const) (s : State) : Host.Outcome State Fault Refusal := linkOp w (sext32 k) s

/-- JALR w,b (R218): the target is read before the link is written (D4). -/
def execJalr (w b : RegNum) (s : State) : Host.Outcome State Fault Refusal := linkOp w (s.reg b) s

/-- START #k (R219). -/
def execStart (k : Const) (s : State) : Host.Outcome State Fault Refusal := startOp (sext32 k) s

/-- STARTR b (R220). -/
def execStartr (b : RegNum) (s : State) : Host.Outcome State Fault Refusal := startOp (s.reg b) s

end Sys2Proof.Machine
end

