-- ==== Sys2Proof/Machine/LoadStore.lean ====
section
/-! DEFINITION. Loads, stores and write protection (44_load_store.md R230 to R237). Each memory instruction leaves its
effective address in rLEA, whether or not the access succeeds (R230, C8). -/

namespace Sys2Proof.Machine

/-- LOAD w,a,#k (R231). -/
def execLoad (w a : RegNum) (k : Const) (s : State) : Host.Outcome State Fault Refusal :=
  let ea := effAddr a k s
  let r := memRead ea (s.setRLEA ea)
  done ((r.2.setReg w r.1).advance)

/-- STORE b,a,#k (R232). -/
def execStore (b a : RegNum) (k : Const) (s : State) : Host.Outcome State Fault Refusal :=
  let ea := effAddr a k s
  done ((memWrite ea (s.reg b) (s.setRLEA ea)).advance)

/-- LREGS #n,a,#k (R233, R237, D18): one instruction; the base register may not be among r1..rn. -/
def execLregs (n a : Nib) (k : Const) (s : State) : Host.Outcome State Fault Refusal :=
  if n = 0 then .refused .blockCountZero
  else if 1 ≤ a.val ∧ a.val ≤ n.val then .refused .blockBaseLoaded
  else
    let ea := effAddr a k s
    done ((loadBlock ea n.val (s.setRLEA ea)).advance)

/-- SREGS #n,a,#k (R234, R237, D18): one instruction. -/
def execSregs (n a : Nib) (k : Const) (s : State) : Host.Outcome State Fault Refusal :=
  if n = 0 then .refused .blockCountZero
  else
    let ea := effAddr a k s
    done ((storeBlock ea n.val (s.setRLEA ea)).advance)

/-- SMP b (R235). -/
def execSmp (b : RegNum) (s : State) : Host.Outcome State Fault Refusal := done ((s.setRMemProt (s.reg b)).advance)

/-- SMPI #k (R236). -/
def execSmpi (k : Const) (s : State) : Host.Outcome State Fault Refusal := done ((s.setRMemProt (sext32 k)).advance)

end Sys2Proof.Machine
end

