-- ==== Sys2Proof/Machine/Logic.lean ====
section
/-! DEFINITION. Logic (41_logic_shift.md R160 to R168): they write x[w] and nothing else; constants are zero-extended. -/

namespace Sys2Proof.Machine

/-- Writes a result to x[w] and nothing else: no flag, no special register (R160). -/
def writeResult (w : RegNum) (v : Word) (s : State) : Host.Outcome State Fault Refusal := done ((s.setReg w v).advance)

/-- AND w,a,b (R161). -/
def execAnd (w a b : RegNum) (s : State) : Host.Outcome State Fault Refusal :=
  writeResult w (s.reg a &&& s.reg b) s

/-- ANDI w,a,#k (R162). -/
def execAndi (w a : RegNum) (k : Const) (s : State) : Host.Outcome State Fault Refusal :=
  writeResult w (s.reg a &&& zext32 k) s

/-- OR w,a,b (R163). -/
def execOr (w a b : RegNum) (s : State) : Host.Outcome State Fault Refusal :=
  writeResult w (s.reg a ||| s.reg b) s

/-- ORI w,a,#k (R164). -/
def execOri (w a : RegNum) (k : Const) (s : State) : Host.Outcome State Fault Refusal :=
  writeResult w (s.reg a ||| zext32 k) s

/-- XOR w,a,b (R165). -/
def execXor (w a b : RegNum) (s : State) : Host.Outcome State Fault Refusal :=
  writeResult w (s.reg a ^^^ s.reg b) s

/-- XORI w,a,#k (R166). -/
def execXori (w a : RegNum) (k : Const) (s : State) : Host.Outcome State Fault Refusal :=
  writeResult w (s.reg a ^^^ zext32 k) s

/-- XNOR w,a,b (R167). -/
def execXnor (w a b : RegNum) (s : State) : Host.Outcome State Fault Refusal :=
  writeResult w (~~~(s.reg a ^^^ s.reg b)) s

/-- XNORI w,a,#k (R168). -/
def execXnori (w a : RegNum) (k : Const) (s : State) : Host.Outcome State Fault Refusal :=
  writeResult w (~~~(s.reg a ^^^ zext32 k)) s

end Sys2Proof.Machine
end

