-- ==== Sys2Proof/Machine/Other.lean ====
section
/-! DEFINITION. The other instructions (47_other.md R270 to R276): reading hidden state, and waiting. -/

namespace Sys2Proof.Machine

/-- LLEA w (R270). -/
def execLlea (w : RegNum) (s : State) : Host.Outcome State Fault Refusal := done ((s.setReg w s.rLEA).advance)

/-- LIRA w (R271): the return address of the innermost interrupt; outside a routine it is refused (U2). -/
def execLira (w : RegNum) (s : State) : Host.Outcome State Fault Refusal :=
  match s.istack with
  | [] => .refused .returnAddressOutsideRoutine
  | f :: _ => done ((s.setReg w f.ret).advance)

/-- LFLAGS w (R272). -/
def execLflags (w : RegNum) (s : State) : Host.Outcome State Fault Refusal :=
  done ((s.setReg w (packFlags s.params.flagsLayout s.flags)).advance)

/-- SFLAGS b (R273). -/
def execSflags (b : RegNum) (s : State) : Host.Outcome State Fault Refusal :=
  done ((s.setFlags (unpackFlags s.params.flagsLayout (s.reg b))).advance)

/-- SFLAGSI #k (R274). -/
def execSflagsi (k : Const) (s : State) : Host.Outcome State Fault Refusal :=
  done ((s.setFlags (unpackFlags s.params.flagsLayout (sext32 k))).advance)

/-- SLEEP (R275): the core waits with pc at the SLEEP until a component requests its interrupt; where
SLEEP_WAKES_ON_PENDING holds, a stored peripheral request ends the sleep at once (D24). -/
def execSleep (s : State) : Host.Outcome State Fault Refusal :=
  if s.params.sleepWakesOnPending && s.peripheralPending then done s.advance
  else done ((s.setAsleep true).setIrqHold false)

end Sys2Proof.Machine
end

