-- ==== Sys2Proof/Machine/Port.lean ====
section
/-! DEFINITION. Port input and output (45_port_io.md R250 to R254). -/

namespace Sys2Proof.Machine

/-- Reads the port into x[w] (R251, R252). -/
def inOp (w : RegNum) (p : Word) (s : State) : Host.Outcome State Fault Refusal :=
  let r := portRead p s
  done ((r.2.setReg w r.1).advance)

/-- Writes the value to the port (R253, R254). -/
def outOp (p v : Word) (s : State) : Host.Outcome State Fault Refusal := done ((portWrite p v s).advance)

/-- IN w,#k (R251). -/
def execIn (w : RegNum) (k : Const) (s : State) : Host.Outcome State Fault Refusal := inOp w (sext32 k) s

/-- INR w,b (R252). -/
def execInr (w b : RegNum) (s : State) : Host.Outcome State Fault Refusal := inOp w (s.reg b) s

/-- OUT a,#k (R253). -/
def execOut (a : RegNum) (k : Const) (s : State) : Host.Outcome State Fault Refusal := outOp (sext32 k) (s.reg a) s

/-- OUTR a,b (R254). -/
def execOutr (a b : RegNum) (s : State) : Host.Outcome State Fault Refusal := outOp (s.reg b) (s.reg a) s

end Sys2Proof.Machine
end

