-- ==== Sys2Proof/Machine/RegLoad.lean ====
section
/-! DEFINITION. Register load (48_register_load.md R280 to R283): each writes x[w] and nothing else (D32). -/

namespace Sys2Proof.Machine

/-- LDSI w,#k (R281). -/
def execLdsi (w : RegNum) (k : Const) (s : State) : Host.Outcome State Fault Refusal := done ((s.setReg w (sext32 k)).advance)

/-- LDUI w,#k (R282). -/
def execLdui (w : RegNum) (k : Const) (s : State) : Host.Outcome State Fault Refusal := done ((s.setReg w (zext32 k)).advance)

/-- LD w,a (R283). -/
def execLd (w a : RegNum) (s : State) : Host.Outcome State Fault Refusal := done ((s.setReg w (s.reg a)).advance)

end Sys2Proof.Machine
end

