-- ==== Sys2Proof/Machine/SetCond.lean ====
section
/-! DEFINITION. Set-condition (42_set_condition.md R190 to R202): x[w] is 1 or 0; the order is signed (D12). -/

namespace Sys2Proof.Machine

/-- Writes 1 if the condition holds, else 0, and nothing else (R190). -/
def setOp (w : RegNum) (c : Bool) (s : State) : Host.Outcome State Fault Refusal := writeResult w (if c then 1 else 0) s

/-- SEQ w,a,b (R191). -/
def execSeq (w a b : RegNum) (s : State) : Host.Outcome State Fault Refusal :=
  setOp w (decide (s.reg a = s.reg b)) s

/-- SEQI w,a,#k (R192). -/
def execSeqi (w a : RegNum) (k : Const) (s : State) : Host.Outcome State Fault Refusal :=
  setOp w (decide (s.reg a = sext32 k)) s

/-- SNE w,a,b (R193). -/
def execSne (w a b : RegNum) (s : State) : Host.Outcome State Fault Refusal :=
  setOp w (decide (s.reg a ≠ s.reg b)) s

/-- SNEI w,a,#k (R194). -/
def execSnei (w a : RegNum) (k : Const) (s : State) : Host.Outcome State Fault Refusal :=
  setOp w (decide (s.reg a ≠ sext32 k)) s

/-- SLT w,a,b (R195). -/
def execSlt (w a b : RegNum) (s : State) : Host.Outcome State Fault Refusal :=
  setOp w (decide ((s.reg a).toInt < (s.reg b).toInt)) s

/-- SLTI w,a,#k (R196). -/
def execSlti (w a : RegNum) (k : Const) (s : State) : Host.Outcome State Fault Refusal :=
  setOp w (decide ((s.reg a).toInt < (sext32 k).toInt)) s

/-- SGT w,a,b (R197). -/
def execSgt (w a b : RegNum) (s : State) : Host.Outcome State Fault Refusal :=
  setOp w (decide ((s.reg a).toInt > (s.reg b).toInt)) s

/-- SGTI w,a,#k (R198). -/
def execSgti (w a : RegNum) (k : Const) (s : State) : Host.Outcome State Fault Refusal :=
  setOp w (decide ((s.reg a).toInt > (sext32 k).toInt)) s

/-- SLE w,a,b (R199). -/
def execSle (w a b : RegNum) (s : State) : Host.Outcome State Fault Refusal :=
  setOp w (decide ((s.reg a).toInt ≤ (s.reg b).toInt)) s

/-- SLEI w,a,#k (R200). -/
def execSlei (w a : RegNum) (k : Const) (s : State) : Host.Outcome State Fault Refusal :=
  setOp w (decide ((s.reg a).toInt ≤ (sext32 k).toInt)) s

/-- SGE w,a,b (R201). -/
def execSge (w a b : RegNum) (s : State) : Host.Outcome State Fault Refusal :=
  setOp w (decide ((s.reg a).toInt ≥ (s.reg b).toInt)) s

/-- SGEI w,a,#k (R202). -/
def execSgei (w a : RegNum) (k : Const) (s : State) : Host.Outcome State Fault Refusal :=
  setOp w (decide ((s.reg a).toInt ≥ (sext32 k).toInt)) s

end Sys2Proof.Machine
end

