-- ==== Sys2Proof/Machine/Shift.lean ====
section
/-! DEFINITION. Shifts (41_logic_shift.md R169 to R179). The amount is all 32 bits of the second operand; above 31 the
result is a free value (R169, D11). -/

namespace Sys2Proof.Machine

/-- A shift that writes no flag: the result for an amount up to 31, a free value above (R169). -/
def shiftOp (f : Word → Nat → Word) (w : RegNum) (a b : Word) (s : State) : Host.Outcome State Fault Refusal :=
  if b.toNat ≤ 31 then writeResult w (f a b.toNat) s
  else
    let v := drawWord s
    writeResult w v.1 v.2

/-- SHL with the amount's value: also ovShift, which is a free value too for an amount above 31 (R169, R170). -/
def shlOp (w : RegNum) (a b : Word) (s : State) : Host.Outcome State Fault Refusal :=
  if b.toNat ≤ 31 then
    writeResult w (a <<< b.toNat) (s.setFlags { s.flags with ovShift := shiftedOut a b.toNat })
  else
    let v := drawWord s
    let o := drawBit v.2
    writeResult w v.1 (o.2.setFlags { s.flags with ovShift := o.1 })

/-- Rotation left by n <= 31 (R172). -/
def rotl (a : Word) (n : Nat) : Word := a <<< n ||| a >>> (32 - n)

/-- Logical right shift (R174). -/
def shrl (a : Word) (n : Nat) : Word := a >>> n

/-- Rotation right by n <= 31 (R176). -/
def rotr (a : Word) (n : Nat) : Word := a >>> n ||| a <<< (32 - n)

/-- Arithmetic right shift (R178). -/
def shra (a : Word) (n : Nat) : Word := a.sshiftRight n

/-- SHL w,a,b (R170). -/
def execShl (w a b : RegNum) (s : State) : Host.Outcome State Fault Refusal :=
  shlOp w (s.reg a) (s.reg b) s

/-- SHLI w,a,#k (R171). -/
def execShli (w a : RegNum) (k : Const) (s : State) : Host.Outcome State Fault Refusal :=
  shlOp w (s.reg a) (sext32 k) s

/-- CSHL w,a,b (R172). -/
def execCshl (w a b : RegNum) (s : State) : Host.Outcome State Fault Refusal :=
  shiftOp rotl w (s.reg a) (s.reg b) s

/-- CSHLI w,a,#k (R173). -/
def execCshli (w a : RegNum) (k : Const) (s : State) : Host.Outcome State Fault Refusal :=
  shiftOp rotl w (s.reg a) (sext32 k) s

/-- SHR w,a,b (R174). -/
def execShr (w a b : RegNum) (s : State) : Host.Outcome State Fault Refusal :=
  shiftOp shrl w (s.reg a) (s.reg b) s

/-- SHRI w,a,#k (R175). -/
def execShri (w a : RegNum) (k : Const) (s : State) : Host.Outcome State Fault Refusal :=
  shiftOp shrl w (s.reg a) (sext32 k) s

/-- CSHR w,a,b (R176). -/
def execCshr (w a b : RegNum) (s : State) : Host.Outcome State Fault Refusal :=
  shiftOp rotr w (s.reg a) (s.reg b) s

/-- CSHRI w,a,#k (R177). -/
def execCshri (w a : RegNum) (k : Const) (s : State) : Host.Outcome State Fault Refusal :=
  shiftOp rotr w (s.reg a) (sext32 k) s

/-- SHAR w,a,b (R178). -/
def execShar (w a b : RegNum) (s : State) : Host.Outcome State Fault Refusal :=
  shiftOp shra w (s.reg a) (s.reg b) s

/-- SHARI w,a,#k (R179). -/
def execShari (w a : RegNum) (k : Const) (s : State) : Host.Outcome State Fault Refusal :=
  shiftOp shra w (s.reg a) (sext32 k) s

end Sys2Proof.Machine
end

