-- ==== Sys2Proof/Machine/Dispatch.lean ====
section
/-! DEFINITION. The meaning of every instruction, one arm per constructor of Instr. -/

namespace Sys2Proof.Machine

/-- What the instruction does in the state (40_arithmetic.md to 48_register_load.md). -/
def exec (i : Instr) (s : State) : Host.Outcome State Fault Refusal :=
  match i with
  | .add w a b => Sys2Proof.Machine.execAdd w a b s
  | .addi w a k => Sys2Proof.Machine.execAddi w a k s
  | .sub w a b => Sys2Proof.Machine.execSub w a b s
  | .subi w a k => Sys2Proof.Machine.execSubi w a k s
  | .mul w a b => Sys2Proof.Machine.execMul w a b s
  | .muli w a k => Sys2Proof.Machine.execMuli w a k s
  | .prod w => Sys2Proof.Machine.execProd w s
  | .div w a b => Sys2Proof.Machine.execDiv w a b s
  | .divi w a k => Sys2Proof.Machine.execDivi w a k s
  | .div64p a => Sys2Proof.Machine.execDiv64p a s
  | .mod w => Sys2Proof.Machine.execMod w s
  | .mulfp w a b => Sys2Proof.Machine.execMulfp w a b s
  | .mulfpi w a k => Sys2Proof.Machine.execMulfpi w a k s
  | .divfp w a b => Sys2Proof.Machine.execDivfp w a b s
  | .divfpi w a k => Sys2Proof.Machine.execDivfpi w a k s
  | .and w a b => Sys2Proof.Machine.execAnd w a b s
  | .andi w a k => Sys2Proof.Machine.execAndi w a k s
  | .or w a b => Sys2Proof.Machine.execOr w a b s
  | .ori w a k => Sys2Proof.Machine.execOri w a k s
  | .xor w a b => Sys2Proof.Machine.execXor w a b s
  | .xori w a k => Sys2Proof.Machine.execXori w a k s
  | .xnor w a b => Sys2Proof.Machine.execXnor w a b s
  | .xnori w a k => Sys2Proof.Machine.execXnori w a k s
  | .shl w a b => Sys2Proof.Machine.execShl w a b s
  | .shli w a k => Sys2Proof.Machine.execShli w a k s
  | .cshl w a b => Sys2Proof.Machine.execCshl w a b s
  | .cshli w a k => Sys2Proof.Machine.execCshli w a k s
  | .shr w a b => Sys2Proof.Machine.execShr w a b s
  | .shri w a k => Sys2Proof.Machine.execShri w a k s
  | .cshr w a b => Sys2Proof.Machine.execCshr w a b s
  | .cshri w a k => Sys2Proof.Machine.execCshri w a k s
  | .shar w a b => Sys2Proof.Machine.execShar w a b s
  | .shari w a k => Sys2Proof.Machine.execShari w a k s
  | .seq w a b => Sys2Proof.Machine.execSeq w a b s
  | .seqi w a k => Sys2Proof.Machine.execSeqi w a k s
  | .sne w a b => Sys2Proof.Machine.execSne w a b s
  | .snei w a k => Sys2Proof.Machine.execSnei w a k s
  | .slt w a b => Sys2Proof.Machine.execSlt w a b s
  | .slti w a k => Sys2Proof.Machine.execSlti w a k s
  | .sgt w a b => Sys2Proof.Machine.execSgt w a b s
  | .sgti w a k => Sys2Proof.Machine.execSgti w a k s
  | .sle w a b => Sys2Proof.Machine.execSle w a b s
  | .slei w a k => Sys2Proof.Machine.execSlei w a k s
  | .sge w a b => Sys2Proof.Machine.execSge w a b s
  | .sgei w a k => Sys2Proof.Machine.execSgei w a k s
  | .beqz a k => Sys2Proof.Machine.execBeqz a k s
  | .bnez a k => Sys2Proof.Machine.execBnez a k s
  | .jmp k => Sys2Proof.Machine.execJmp k s
  | .ret b => Sys2Proof.Machine.execRet b s
  | .jmpr b => Sys2Proof.Machine.execJmpr b s
  | .jal w k => Sys2Proof.Machine.execJal w k s
  | .jalr w b => Sys2Proof.Machine.execJalr w b s
  | .start k => Sys2Proof.Machine.execStart k s
  | .startr b => Sys2Proof.Machine.execStartr b s
  | .load w a k => Sys2Proof.Machine.execLoad w a k s
  | .store b a k => Sys2Proof.Machine.execStore b a k s
  | .lregs n a k => Sys2Proof.Machine.execLregs n a k s
  | .sregs n a k => Sys2Proof.Machine.execSregs n a k s
  | .smp b => Sys2Proof.Machine.execSmp b s
  | .smpi k => Sys2Proof.Machine.execSmpi k s
  | .inp w k => Sys2Proof.Machine.execIn w k s
  | .inr w b => Sys2Proof.Machine.execInr w b s
  | .out a k => Sys2Proof.Machine.execOut a k s
  | .outr a b => Sys2Proof.Machine.execOutr a b s
  | .eni => Sys2Proof.Machine.execEni s
  | .dei => Sys2Proof.Machine.execDei s
  | .sisa a b => Sys2Proof.Machine.execSisa a b s
  | .sisai a k => Sys2Proof.Machine.execSisai a k s
  | .reti => Sys2Proof.Machine.execReti s
  | .llea w => Sys2Proof.Machine.execLlea w s
  | .lira w => Sys2Proof.Machine.execLira w s
  | .lflags w => Sys2Proof.Machine.execLflags w s
  | .sflags b => Sys2Proof.Machine.execSflags b s
  | .sflagsi k => Sys2Proof.Machine.execSflagsi k s
  | .sleep => Sys2Proof.Machine.execSleep s
  | .ldsi w k => Sys2Proof.Machine.execLdsi w k s
  | .ldui w k => Sys2Proof.Machine.execLdui w k s
  | .ld w a => Sys2Proof.Machine.execLd w a s

end Sys2Proof.Machine
end

