-- ==== Sys2Proof/Machine/Fetch.lean ====
section
/-! DEFINITION. What one machine step does before an instruction runs: the environment's slot, sleeping, taking an
interrupt, fetching and decoding (60_exceptions.md R297, R300; 20_memory.md R81; 30_encoding.md R109). -/

namespace Sys2Proof.Machine

/-- What a step comes to before an instruction's meaning is asked for. -/
inductive Action where
  /-- The step is over with this outcome. -/
  | over (o : Host.Outcome State Fault Refusal)
  /-- The instruction runs in this state. -/
  | run (i : Instr) (s : State)

/-- The instruction word at pc, if pc is a legal address and the program holds an instruction there (20_memory.md R80,
R81). -/
def State.fetch (s : State) : Option Word :=
  if s.pc.toNat ≤ pcMax then s.prog.read s.pc.toNat else none

/-- The core step (60_exceptions.md R300): a sleeping core does nothing; else the interrupt that is due is taken; else the
instruction at pc runs. An instruction whose address the program has stored to is refused (20_memory.md R80, R88, V12). -/
def coreAction (s : State) : Action :=
  if s.asleep then .over (done s)
  else
    match s.interruptToTake with
    | some i => .over (done (takeInterrupt i s))
    | none =>
      match s.fetch with
      | none => .over (.fault .fetchOutsideProgram)
      | some x =>
        if s.codeStores.contains s.pc then .over (.refused .ownCodeStored)
        else
          match decodeWord x with
          | .ok i => .run i s
          | .error e => .over (.refused (.invalidWord e))

/-- One machine step: an environment step where the schedule's next slot is a request (60_exceptions.md R297), else a core
step. Log 13. -/
def nextAction (s : State) : Action :=
  match s.schedule with
  | .request p :: rest => .over (done (envRequest p (s.setSchedule rest)))
  | .quiet :: rest => coreAction (s.setSchedule rest)
  | [] => coreAction s

/-- The state in which the next step runs the given word: the word stands in the program store at pc (at address 0, pc
being 0, where pc is no legal address), no store to that address is on record, and what would come before it is put off: the environment's slots are dropped, a
sleeping core is awake, and interrupts are disabled where one is due. Log 9. -/
def placeAtFetch (s : State) (x : Word) : State :=
  let s1 := (s.setSchedule []).setAsleep false
  let s2 := if s1.interruptToTake.isSome then s1.setIe false else s1
  let s3 := if s2.pc.toNat ≤ pcMax then s2 else s2.setPc 0
  (s3.setProg (s3.prog.write s3.pc.toNat x)).setCodeStores (s3.codeStores.filter (fun a => decide (a ≠ s3.pc)))

end Sys2Proof.Machine
end

