-- ==== Sys2Proof/Machine/Step.lean ====
section
/-! DEFINITION. One step of the machine, and the placing of one instruction where a step fetches it. -/

namespace Sys2Proof.Machine

/-- One step: what the boundary comes to (60_exceptions.md R297, R300), then the instruction's meaning. -/
def step (s : State) : Host.Outcome State Fault Refusal :=
  match nextAction s with
  | .over o => o
  | .run i s' => exec i s'

/-- s with the instruction whose bits are w, numbered as spec/opcode_table.json numbers them, stored where step fetches its
next instruction: the low 32 bits are the SRE-32 word at pc (30_encoding.md R105). Log 9. -/
def State.withFetchWord (s : State) (_nbits w : Nat) : State := placeAtFetch s (BitVec.ofNat 32 w)

end Sys2Proof.Machine
end

