-- ==== Sys2Proof/Machine/Run.lean ====
section
/-! DEFINITION. The run of a program up to its end, under the open parameter END_OF_RUN (00_scope.md R6, D30). -/

namespace Sys2Proof.Machine

/-- END_OF_RUN: which states count as the end of a program (00_scope.md R6). The source has no halt instruction and the spec
leaves the parameter open with no default, so it may be any test of a state. Log 30. -/
abbrev EndOfRun := State → Bool

/-- The first example of D30, as 95_test_vectors.md section 3 uses it: pc has reached the address and no interrupt is left to
take. -/
def endAtAddress (a : Word) : EndOfRun := fun s => decide (s.pc = a) && s.interruptToTake.isNone

/-- The instruction, run in s, is a jump to its own address that changes nothing else. -/
def jumpsToItself (i : Instr) (s : State) : Bool :=
  match i with
  | .jmp k => decide (sext32 k = s.pc)
  | .ret b | .jmpr b => decide (s.reg b = s.pc)
  | .beqz a k => decide (s.reg a = 0) && decide (sext32 k = s.pc)
  | .bnez a k => decide (s.reg a ≠ 0) && decide (sext32 k = s.pc)
  | _ => false

/-- The second example of D30: a jump to itself is reached by a core that is awake and has no interrupt left to take. -/
def endAtSelfJump : EndOfRun := fun s =>
  match s.fetch with
  | none => false
  | some x =>
    match decodeWord x with
    | .ok i => !s.codeStores.contains s.pc && !s.asleep && s.interruptToTake.isNone && jumpsToItself i s
    | .error _ => false

/-- The third example of D30: the core sleeps and no component is going to request anything, so that the sleep never ends
(47_other.md R275; 93_implementation_defined.md V14). -/
def endAsleep : EndOfRun := fun s => s.asleep && s.schedule.all (fun e => decide (e = .quiet))

/-- The state in which a run from s ends: the first one that END_OF_RUN accepts, if it is reached within n steps and no fault
or refusal comes before it. -/
def runToEnd (ended : EndOfRun) : Nat → State → Option State
  | 0, s => if ended s then some s else none
  | n + 1, s =>
    if ended s then some s
    else
      match step s with
      | .next t => runToEnd ended n t
      | .fault _ => none
      | .refused _ => none

end Sys2Proof.Machine
end

