-- ==== Sys2Proof/Safety.lean ====
section
/-! DEFINITION. What a good state and a good run are, and which state each instruction may write: the terms the statements
are made in. -/

namespace Sys2Proof.Safety

open Sys2Proof.Machine

/-! ### Good states -/

/-- The levels on the interrupt stack fall strictly from the present level to 0: each entry was made by an interrupt
above the level it saved (60_exceptions.md R300, R302), and level 0 is the main program (10_state.md R50). -/
def levelsFall : Nib → List IntFrame → Bool
  | l, [] => decide (l = 0)
  | l, f :: rest => decide (f.level.val < l.val) && levelsFall f.level rest

/-- The interrupts that nothing requests: USR1, XDUMMY1, XDUMMY2, USR2, OVF, DIV0 (60_exceptions.md R293, D22). -/
def neverRaised : List Nib := [1, 2, 9, 10, 11, 12]

/-- No stored request has a number that nothing requests (60_exceptions.md R293). -/
abbrev noIdleRequest (s : State) : Prop := ∀ i ∈ neverRaised, s.pendAt i = false

/-- Every store on record was to an address that holds an instruction (20_memory.md R80). -/
def recordsOnlyCode (s : State) : Bool := s.codeStores.all (fun a => (s.prog.read a.toNat).isSome)

/-- A state the machine may be in: parameters as the spec admits them, both memories in canonical form and within their
address ranges, the interrupt stack in order, no request that nothing makes, no store on record but to the program's code. -/
abbrev Good (s : State) : Prop :=
  s.params.valid ∧ s.mem.wf = true ∧ s.mem.below s.params.memSize = true ∧ s.prog.wf = true ∧
    s.prog.below 0x10000 = true ∧ levelsFall s.ilevel s.istack = true ∧ noIdleRequest s ∧
    recordsOnlyCode s = true

/-! ### Good runs -/

/-- The program has not stored into its own code. The spec refuses any claim about a program that does (20_memory.md R80,
93_implementation_defined.md V12), so no run that does is a good one. Log 35. -/
def sparesCode (s : State) : Bool := s.codeStores.isEmpty

/-- The outcome is a next state in which the program has not stored into its own code. -/
def goesOn (o : Host.Outcome State Fault Refusal) : Bool :=
  match o with
  | .next t => sparesCode t
  | .fault _ => false
  | .refused _ => false

/-- The machine makes n steps from s with no fault and no refusal, none of them a store into the program's own code. -/
def runsFor (n : Nat) (s : State) : Bool := goesOn (Sys2Proof.core.run n s)

/-- The run from s comes to its end, as END_OF_RUN says, within n steps, with no fault, no refusal and no store into the
program's own code (00_scope.md R6, D30; 20_memory.md R80). -/
def endsWithin (ended : EndOfRun) (n : Nat) (s : State) : Bool :=
  match runToEnd ended n s with
  | some t => sparesCode t
  | none => false

/-! ### What an instruction may write -/

/-- The general registers an instruction writes: those its operands or its count name as destinations (10_state.md R32). -/
def destinations : Instr → List Nib
  | .add w _ _ | .addi w _ _ | .sub w _ _ | .subi w _ _ | .mul w _ _ | .muli w _ _ | .prod w => [w]
  | .div w _ _ | .divi w _ _ | .mod w | .mulfp w _ _ | .mulfpi w _ _ | .divfp w _ _ | .divfpi w _ _ => [w]
  | .and w _ _ | .andi w _ _ | .or w _ _ | .ori w _ _ | .xor w _ _ | .xori w _ _ | .xnor w _ _ | .xnori w _ _ => [w]
  | .shl w _ _ | .shli w _ _ | .cshl w _ _ | .cshli w _ _ | .shr w _ _ | .shri w _ _ => [w]
  | .cshr w _ _ | .cshri w _ _ | .shar w _ _ | .shari w _ _ => [w]
  | .seq w _ _ | .seqi w _ _ | .sne w _ _ | .snei w _ _ | .slt w _ _ | .slti w _ _ => [w]
  | .sgt w _ _ | .sgti w _ _ | .sle w _ _ | .slei w _ _ | .sge w _ _ | .sgei w _ _ => [w]
  | .jal w _ | .jalr w _ | .load w _ _ | .inp w _ | .inr w _ => [w]
  | .llea w | .lira w | .lflags w | .ldsi w _ | .ldui w _ | .ld w _ => [w]
  | .lregs n _ _ => (List.finRange 16).filter (fun i => decide (1 ≤ i.val) && decide (i.val ≤ n.val))
  | .div64p _ | .beqz _ _ | .bnez _ _ | .jmp _ | .ret _ | .jmpr _ | .start _ | .startr _ => []
  | .store _ _ _ | .sregs _ _ _ | .smp _ | .smpi _ | .out _ _ | .outr _ _ => []
  | .eni | .dei | .sisa _ _ | .sisai _ _ | .reti | .sflags _ | .sflagsi _ | .sleep => []

/-- The instructions after which peripheral interrupts are held back for one boundary (10_state.md R53, 60_exceptions.md
R301). -/
def holdsPeripherals : Instr → Bool
  | .mul _ _ _ | .muli _ _ _ | .mulfp _ _ _ | .mulfpi _ _ _ | .div _ _ _ | .divi _ _ _ | .div64p _ => true
  | _ => false

/-- State beside the general registers, pc, irqHold and the stored requests. -/
inductive Place where
  | ovMul
  | ovShift
  | ovUns
  | ovSgn
  | rMod
  | rMulHigh
  | rDiv64
  | div64Prep
  | rMemProt
  | rLEA
  | ie
  | isa
  /-- ilevel and istack. -/
  | service
  | bootActive
  | asleep
  | mem
  /-- What passes between the core and the components. -/
  | ports
deriving DecidableEq, Repr

/-- The places an instruction may write: the flags by 10_state.md R38, the special registers by R40 to R44, the rest by
R46 to R55 and 20_memory.md R77 to R79. -/
def writes : Instr → List Place
  | .add _ _ _ | .addi _ _ _ | .sub _ _ _ | .subi _ _ _ => [.ovUns, .ovSgn]
  | .mul _ _ _ | .muli _ _ _ | .mulfp _ _ _ | .mulfpi _ _ _ => [.rMulHigh, .ovMul]
  | .div _ _ _ | .divi _ _ _ | .divfp _ _ _ | .divfpi _ _ _ => [.rMod, .div64Prep]
  | .div64p _ => [.rDiv64, .div64Prep]
  | .shl _ _ _ | .shli _ _ _ => [.ovShift]
  | .start _ | .startr _ => [.bootActive]
  | .load _ _ _ | .lregs _ _ _ => [.rLEA]
  | .store _ _ _ | .sregs _ _ _ => [.rLEA, .mem]
  | .smp _ | .smpi _ => [.rMemProt]
  | .inp _ _ | .inr _ _ | .out _ _ | .outr _ _ => [.ports]
  | .eni | .dei => [.ie]
  | .sisa _ _ | .sisai _ _ => [.isa]
  | .reti => [.service]
  | .sflags _ | .sflagsi _ => [.ovMul, .ovShift, .ovUns, .ovSgn]
  | .sleep => [.asleep]
  | .prod _ | .mod _ | .llea _ | .lira _ | .lflags _ | .ldsi _ _ | .ldui _ _ | .ld _ _ => []
  | .and _ _ _ | .andi _ _ _ | .or _ _ _ | .ori _ _ _ | .xor _ _ _ | .xori _ _ _ | .xnor _ _ _ | .xnori _ _ _ => []
  | .cshl _ _ _ | .cshli _ _ _ | .shr _ _ _ | .shri _ _ _ => []
  | .cshr _ _ _ | .cshri _ _ _ | .shar _ _ _ | .shari _ _ _ => []
  | .seq _ _ _ | .seqi _ _ _ | .sne _ _ _ | .snei _ _ _ | .slt _ _ _ | .slti _ _ _ => []
  | .sgt _ _ _ | .sgti _ _ _ | .sle _ _ _ | .slei _ _ _ | .sge _ _ _ | .sgei _ _ _ => []
  | .beqz _ _ | .bnez _ _ | .jmp _ | .ret _ | .jmpr _ | .jal _ _ | .jalr _ _ => []

/-- The instructions that may transfer control (43_jumps.md, 46_interrupt_instructions.md R264): every other instruction
but SLEEP ends with pc + 1 (10_state.md R35). -/
def transfersControl : Instr → Bool
  | .beqz _ _ | .bnez _ _ | .jmp _ | .ret _ | .jmpr _ | .jal _ _ | .jalr _ _ | .start _ | .startr _ | .reti => true
  | _ => false

/-- The core interrupt an instruction can request, if any: 13 by the port instructions, 14 by the memory instructions, 15
by the jumps (60_exceptions.md R291, R294). -/
def requestOf : Instr → Option Nib
  | .inp _ _ | .inr _ _ | .out _ _ | .outr _ _ => some 13
  | .load _ _ _ | .store _ _ _ | .lregs _ _ _ | .sregs _ _ _ => some 14
  | .beqz _ _ | .bnez _ _ | .jmp _ | .ret _ | .jmpr _ | .jal _ _ | .jalr _ _ | .start _ | .startr _ => some 15
  | _ => none

end Sys2Proof.Safety
end

