-- ==== Sys2Proof/Certificates/Slice0/Obligations.lean ====
section
/-! DEFINITION. The statements about the model, one `def Obligations.<Name> : Prop` each; OBLIGATIONS.json lists them. In the
result statements the state after the instruction is written out whole, so that each says its frame: what the record
does not name is unchanged. `Bank.set s.regs w v` is x[w] <- v (GeneralRegistersReadBack says what it does, r0 too). -/

open Sys2Proof Sys2Proof.Machine Sys2Proof.Safety

/-! ### Encoding (30_encoding.md R105 to R111) -/

/-- Decode and encode agree: the four bytes of every well-formed instruction's word decode to the instruction, in the
spelling the decoder reports, and leave the bytes after them. -/
def Obligations.DecodeOfEncodeGivesInstruction : Prop :=
  ∀ (i : Instr) (rest : List Byte), i.wellFormed = true →
    decodeBytes (wordBytes (encode i) ++ rest) = .ok (canonical i, rest)

/-- The other direction: a word that decodes is the word of the instruction it decodes to, which is well-formed and in the
reported spelling. So every bit of a valid word is accounted for, and no other word decodes to the same instruction. -/
def Obligations.EncodeOfDecodeGivesWord : Prop :=
  ∀ (x : Word) (i : Instr), decodeWord x = .ok i →
    encode i = x ∧ i.wellFormed = true ∧ canonical i = i

/-- The words 30_encoding.md section 7 works out, and three invalid ones of 95_test_vectors.md section 4. -/
def Obligations.WorkedWordsDecode : Prop :=
  decodeWord 0x01312000#32 = .ok (.add 3 1 2) ∧ decodeWord 0x8131FFFF#32 = .ok (.addi 3 1 0xFFFF#16) ∧
  decodeWord 0xC14F0002#32 = .ok (.store 4 15 2#16) ∧ decodeWord 0xC23F0000#32 = .ok (.lregs 3 15 0#16) ∧
  decodeWord 0xB0000007#32 = .ok (.jmp 7#16) ∧ decodeWord 0x32001000#32 = .ok (.jmpr 1) ∧
  decodeWord 0xE3020040#32 = .ok (.sisai 2 0x40#16) ∧ decodeWord 0x60000000#32 = .ok .eni ∧
  decodeWord 0x00000000#32 = .error .unassignedOp ∧ decodeWord 0x01312001#32 = .error .nonzeroUnusedField ∧
  decodeWord 0xC20F0000#32 = .error .countZero

/-- The spelling does not matter: an instruction and the spelling the decoder reports for its word (JMP for BEQZ with r0,
JMPR for RET, the spec's decision D38) have one effect in every state. -/
def Obligations.SpellingsHaveOneEffect : Prop :=
  ∀ (i : Instr) (s : State), exec (canonical i) s = exec i s

/-! ### The step (60_exceptions.md R297, R300) -/

/-- A step runs the decoded instruction: where no component makes a request, the core is awake, no interrupt is due and
the program holds at the legal address pc, to which it has not stored (else the step stops: FetchWithoutInstructionStops),
a word that decodes to i, one step is the meaning of i, in the state whose schedule has moved on by one slot. -/
def Obligations.StepRunsDecodedInstruction : Prop :=
  ∀ (s : State) (x : Word) (i : Instr),
    (∀ p rest, s.schedule ≠ .request p :: rest) → s.asleep = false →
    s.interruptToTake = none → s.pc.toNat ≤ 0xFFFF → s.prog.read s.pc.toNat = some x →
    s.pc ∉ s.codeStores → decodeWord x = .ok i →
    step s = exec i { s with schedule := s.schedule.tail }

/-- A core step that would fetch stops with a fault where there is no instruction (pc above 0xFFFF or nothing in the program
there), is refused by name where there is one but the program has stored to its address, and is refused by name where the
word is no instruction. The three stops are the spec's decisions D14, D13 and D31; that a program that writes its own code
is refused at the fetch is the model's reading (log 35). -/
def Obligations.FetchWithoutInstructionStops : Prop :=
  ∀ (s : State), (∀ p rest, s.schedule ≠ .request p :: rest) → s.asleep = false → s.interruptToTake = none →
    ((s.pc.toNat > 0xFFFF ∨ s.prog.read s.pc.toNat = none) → step s = .fault .fetchOutsideProgram) ∧
    (∀ x, s.pc.toNat ≤ 0xFFFF → s.prog.read s.pc.toNat = some x → s.pc ∈ s.codeStores →
      step s = .refused .ownCodeStored) ∧
    (∀ x e, s.pc.toNat ≤ 0xFFFF → s.prog.read s.pc.toNat = some x → s.pc ∉ s.codeStores → decodeWord x = .error e →
      step s = .refused (.invalidWord e))

/-- A sleeping core makes no step: nothing but the schedule (the model's own list, log 13) changes, whatever is pending. That
only a component's request ends a sleep is the spec's decision D24 (log 15). -/
def Obligations.SleepingCoreWaits : Prop :=
  ∀ (s : State), s.asleep = true → (∀ p rest, s.schedule ≠ .request p :: rest) →
    step s = .next { s with schedule := s.schedule.tail }

/-- A component's request is stored whatever ie and ilevel are, and wakes a sleeping core with pc at the instruction after
the SLEEP; nothing else changes (the spec's decisions D23 and D24; the schedule is the model's own, log 13). -/
def Obligations.ComponentRequestIsStored : Prop :=
  ∀ (s : State) (p : Peripheral) (rest : List EnvSlot), s.schedule = .request p :: rest →
    ∃ t, step s = .next t ∧
      t = { s with schedule := rest, pend := t.pend, asleep := false, pc := if s.asleep then s.pc + 1 else s.pc } ∧
      (∀ i : Nib, t.pendAt i = (s.pendAt i || decide (i = p.irq)))

/-- The core step takes the highest candidate: a stored request above the level, not a peripheral one (3..8) while
irqHold is 1. Entry saves pc and level on istack, sets the level, clears the request, goes to the routine's address and
changes nothing else, ie among it, but the schedule, which moves on by one slot (the model's own list, log 13). The order
and the machinery are the spec's decisions D21, D35, D36. The spec's rule R302 faults where isa of the interrupt was never
set (D33); the model holds 0 there and goes to address 0, its own choice (logs 2 and 3). -/
def Obligations.HighestCandidateIsTaken : Prop :=
  ∀ (s : State) (i : Nib),
    let due (j : Nib) : Prop := s.pendAt j = true ∧ j.val > s.ilevel.val ∧ ¬(s.irqHold = true ∧ 3 ≤ j.val ∧ j.val ≤ 8)
    (∀ p rest, s.schedule ≠ .request p :: rest) → s.asleep = false → s.ie = true → due i → (∀ j, due j → j ≤ i) →
    step s = .next { s with schedule := s.schedule.tail, ilevel := i, istack := { ret := s.pc, level := s.ilevel } :: s.istack,
                            pend := Bank.set s.pend i false, pc := s.isaAt i, irqHold := false }

/-- No interrupt is due while interrupts are disabled, nor one that is not above the level, nor a peripheral one while
irqHold is 1: with only such requests stored, interruptToTake names none, which is the premise under which
StepRunsDecodedInstruction and FetchWithoutInstructionStops say what the step does. The machinery is the spec's decision
D21, the hold D36 (logs 18 and 19). -/
def Obligations.HeldRequestsWait : Prop :=
  ∀ s : State,
    (s.ie = false ∨ ∀ j : Nib, s.pendAt j = true → j.val ≤ s.ilevel.val ∨ (s.irqHold = true ∧ 3 ≤ j.val ∧ j.val ≤ 8)) →
    s.interruptToTake = none

/-! ### Invariants and whole-machine rules -/

/-- Every step keeps a good state good, whatever instruction runs, whatever the environment does: both memories stay
canonical and in range, the interrupt levels keep falling (the spec's decision D21), nothing requests the six idle
interrupts (D22), the record of stores into code names code alone (the model's own list, log 35). -/
def Obligations.EveryStepKeepsGood : Prop :=
  ∀ s t : State, Good s → step s = .next t → Good t

/-- The state after reset is good, and so is every initial state of a run: the reset state under any parameters the spec
admits, with any program and any data memory image that are in canonical form and within their address ranges. The reset
values but rMemProt are the spec's decision D26 (log 8). -/
def Obligations.ResetIsGood : Prop :=
  Good State.reset ∧
  ∀ (p : Config.Params) (prog image : Memory), p.valid → prog.wf = true → prog.below 0x10000 = true →
    image.wf = true → image.below p.memSize = true → Good (State.launch p prog image)

/-- The interrupt stack of a good state is at most as deep as the level is high, so at most 15 deep, and it is empty
exactly in the main program. It rests on the spec's decision D21 and on the model's list istack (log 33). -/
def Obligations.GoodStackIsAtMostFifteenDeep : Prop :=
  ∀ s : State, Good s → s.istack.length ≤ s.ilevel.val ∧ s.istack.length ≤ 15 ∧ (s.istack = [] ↔ s.ilevel = 0)

/-- No step changes the program store, which is apart from data memory by the spec's decision D13 (log 9), or the
parameters (log 7). A step that changes the data word at an address of the program puts that address on record, and no
step takes one off, so that the instruction there is refused for ever after (the spec's decision D13; the record is the
model's own, log 35). -/
def Obligations.StepsNeverChangeTheProgram : Prop :=
  ∀ s t : State, step s = .next t →
    t.prog = s.prog ∧ t.params = s.params ∧ (∀ a ∈ s.codeStores, a ∈ t.codeStores) ∧
    (s.mem.wf = true → ∀ a : Word, (s.prog.read a.toNat).isSome = true → t.mem.read a.toNat ≠ s.mem.read a.toNat →
      a ∈ t.codeStores)

/-- Write protection holds against every step: an address below rMemProt reads after it as before, whatever runs. (An
SMP changes the bound for the steps after it.) The comparison is unsigned by the spec's decision D17. -/
def Obligations.ProtectedMemoryIsUnchanged : Prop :=
  ∀ (s t : State) (a : Nat), s.mem.wf = true → step s = .next t → a < s.rMemProt.toNat →
    t.mem.read a = s.mem.read a

/-- A general register changes only if the instruction names it as a destination, and r0 reads as 0 always
(a write to r0 is dropped by the spec's decision D2). -/
def Obligations.OnlyDestinationRegistersChange : Prop :=
  ∀ (i : Instr) (s t : State), exec i s = .next t →
    (∀ r : RegNum, r ∉ destinations i → t.reg r = s.reg r) ∧ t.reg 0 = 0

/-- Flags, special registers, interrupt state, boot and sleep bits, memory and ports change only by the instructions that
`writes` names for each. -/
def Obligations.OnlyNamedPlacesChange : Prop :=
  ∀ (i : Instr) (s t : State), exec i s = .next t →
    (.ovMul ∉ writes i → t.flags.ovMul = s.flags.ovMul) ∧ (.ovShift ∉ writes i → t.flags.ovShift = s.flags.ovShift) ∧
    (.ovUns ∉ writes i → t.flags.ovUns = s.flags.ovUns) ∧ (.ovSgn ∉ writes i → t.flags.ovSgn = s.flags.ovSgn) ∧
    (.rMod ∉ writes i → t.rMod = s.rMod) ∧ (.rMulHigh ∉ writes i → t.rMulHigh = s.rMulHigh) ∧
    (.rDiv64 ∉ writes i → t.rDiv64 = s.rDiv64) ∧ (.div64Prep ∉ writes i → t.div64Prep = s.div64Prep) ∧
    (.rMemProt ∉ writes i → t.rMemProt = s.rMemProt) ∧ (.rLEA ∉ writes i → t.rLEA = s.rLEA) ∧
    (.ie ∉ writes i → t.ie = s.ie) ∧ (.isa ∉ writes i → t.isa = s.isa) ∧
    (.service ∉ writes i → t.ilevel = s.ilevel ∧ t.istack = s.istack) ∧
    (.bootActive ∉ writes i → t.bootActive = s.bootActive) ∧ (.asleep ∉ writes i → t.asleep = s.asleep) ∧
    (.mem ∉ writes i → (∀ a, t.mem.read a = s.mem.read a) ∧ t.codeStores = s.codeStores) ∧
    (.ports ∉ writes i → t.portAnswers = s.portAnswers ∧ t.portTrace = s.portTrace) ∧
    t.params = s.params ∧ t.prog = s.prog ∧ t.schedule = s.schedule

/-- An instruction clears no stored request and adds none but its own family's: XADDR by the port instructions, MEMADDR by
the memory instructions, PCADDR by the jumps. In particular no arithmetic requests OVF or DIV0. -/
def Obligations.InstructionsOnlyAddTheirRequest : Prop :=
  ∀ (i : Instr) (s t : State) (j : Nib), exec i s = .next t →
    (s.pendAt j = true → t.pendAt j = true) ∧ (t.pendAt j = true → s.pendAt j = true ∨ requestOf i = some j)

/-- After MUL, MULFP, DIV, DIV64P and their immediate forms, and after no other instruction, irqHold is 1; then no
peripheral interrupt is the next to be taken. -/
def Obligations.HoldFollowsMultiplyAndDivide : Prop :=
  ∀ (i : Instr) (s t : State), exec i s = .next t →
    t.irqHold = holdsPeripherals i ∧
    (holdsPeripherals i = true → ∀ j, t.interruptToTake = some j → ¬(3 ≤ j.val ∧ j.val ≤ 8))

/-- Every instruction but the jumps, RETI and SLEEP ends at the next address, pc + 1 modulo 2^32 (that the pc holds 32 bits
is the spec's decision D14, log 31). -/
def Obligations.OtherInstructionsAdvance : Prop :=
  ∀ (i : Instr) (s t : State), exec i s = .next t → transfersControl i = false → i ≠ .sleep → t.pc = s.pc + 1

/-- What reset leaves under any parameters p, as 10_state.md R60 gives it: write protection off (the source's own fact), pc at
RESET_PC and div64Prep at RESET_DIV64PREP, the others fixed, which is all the spec's decision D26 (log 8). State.reset is
this state at the default parameters, where both are 0 (log 7), and a launch adds the program and a memory image alone. -/
def Obligations.ResetValues : Prop :=
  (∀ p : Config.Params,
    let s := State.resetWith p
    s.params = p ∧ s.rMemProt = 0 ∧ s.pc = p.resetPc ∧ s.div64Prep = p.resetDiv64Prep ∧ s.ie = false ∧
    (∀ i : Nib, s.pendAt i = false) ∧ s.ilevel = 0 ∧ s.istack = [] ∧ s.irqHold = false ∧ s.bootActive = true ∧
    s.asleep = false ∧ s.reg 0 = 0 ∧ (∀ a, s.mem.read a = none) ∧ s.codeStores = [] ∧
    ∀ prog image, State.launch p prog image = { s with prog := prog, mem := image }) ∧
  State.reset = State.resetWith Config.defaultParams ∧ State.reset.pc = 0 ∧ State.reset.div64Prep = false

/-- The register file: r0 reads as 0 and a write to it changes nothing; a write to any other register is read back there
and nowhere else. That the write to r0 is dropped is the spec's decision D2. -/
def Obligations.GeneralRegistersReadBack : Prop :=
  ∀ (s : State) (w r : RegNum) (v : Word),
    s.reg 0 = 0 ∧ Bank.set s.regs 0 v = s.regs ∧
    (w ≠ 0 → ({ s with regs := Bank.set s.regs w v } : State).reg w = v) ∧
    (r ≠ w → ({ s with regs := Bank.set s.regs w v } : State).reg r = s.reg r)

/-! ### Arithmetic (40_arithmetic.md) -/

/-- ADD and ADDI: the sum modulo 2^32; ovUns and ovSgn say whether the exact sum leaves the unsigned and the signed range
(the spec's decision D5); nothing else but pc and irqHold. -/
def Obligations.AdditionResult : Prop :=
  ∀ (s : State) (w a b : RegNum) (k : Const),
    let sum (B : Word) : State :=
      { s with regs := Bank.set s.regs w (BitVec.ofNat 32 (((s.reg a).toNat + B.toNat) % 2 ^ 32))
               flags := { s.flags with
                 ovUns := decide ((s.reg a).toNat + B.toNat ≥ 2 ^ 32)
                 ovSgn := decide ((s.reg a).toInt + B.toInt < -2 ^ 31 ∨ (s.reg a).toInt + B.toInt > 2 ^ 31 - 1) }
               pc := s.pc + 1
               irqHold := false }
    exec (.add w a b) s = .next (sum (s.reg b)) ∧ exec (.addi w a k) s = .next (sum (k.signExtend 32))

/-- SUB and SUBI: the difference modulo 2^32; ovUns is the borrow, ovSgn whether the exact difference leaves the signed
range (the spec's decision D5); nothing else but pc and irqHold. -/
def Obligations.SubtractionResult : Prop :=
  ∀ (s : State) (w a b : RegNum) (k : Const),
    let diff (B : Word) : State :=
      { s with regs := Bank.set s.regs w (BitVec.ofInt 32 ((s.reg a).toNat - B.toNat))
               flags := { s.flags with
                 ovUns := decide ((s.reg a).toNat < B.toNat)
                 ovSgn := decide ((s.reg a).toInt - B.toInt < -2 ^ 31 ∨ (s.reg a).toInt - B.toInt > 2 ^ 31 - 1) }
               pc := s.pc + 1
               irqHold := false }
    exec (.sub w a b) s = .next (diff (s.reg b)) ∧ exec (.subi w a k) s = .next (diff (k.signExtend 32))

/-- MUL and MULI: with P the exact signed product, x[w] is its low word, rMulHigh its high word, ovMul whether P leaves
the signed 32-bit range (the spec's decision D6); irqHold is set. -/
def Obligations.MultiplicationResult : Prop :=
  ∀ (s : State) (w a b : RegNum) (k : Const),
    let product (B : Word) : State :=
      let P := (s.reg a).toInt * B.toInt
      { s with regs := Bank.set s.regs w (BitVec.ofInt 32 P)
               rMulHigh := BitVec.ofInt 32 (P / 2 ^ 32)
               flags := { s.flags with ovMul := decide ¬(-2 ^ 31 ≤ P ∧ P ≤ 2 ^ 31 - 1) }
               pc := s.pc + 1
               irqHold := true }
    exec (.mul w a b) s = .next (product (s.reg b)) ∧ exec (.muli w a k) s = .next (product (k.signExtend 32))

/-- PROD copies rMulHigh and MOD copies rMod to x[w]; both keep the special register, which can be read again, and write
nothing else but pc and irqHold. Their words have OP 20 and 21. -/
def Obligations.HighProductAndRemainderAreRead : Prop :=
  ∀ (s : State) (w : RegNum),
    exec (.prod w) s = .next { s with regs := Bank.set s.regs w s.rMulHigh, pc := s.pc + 1, irqHold := false } ∧
    exec (.mod w) s = .next { s with regs := Bank.set s.regs w s.rMod, pc := s.pc + 1, irqHold := false } ∧
    encode (.prod w) = BitVec.ofNat 32 (0x20 * 2 ^ 24 + w.val * 2 ^ 20) ∧
    encode (.mod w) = BitVec.ofNat 32 (0x21 * 2 ^ 24 + w.val * 2 ^ 20)

/-- DIV and DIVI with a divisor D other than 0: T is the prepared 64-bit pair or x[a] alone, and there are integers q, r
with T = q * D + r, |r| < |D| and r of T's sign (of D's sign if the parameter DIV_ROUND floors) or 0. If q is in the
signed 32-bit range, x[w] is q, rMod is r, div64Prep is cleared, irqHold is set, nothing else changes. The rounding is
the spec's decision D7 (log 16). -/
def Obligations.DivisionResult : Prop :=
  ∀ (s : State) (w a b : RegNum) (k : Const) (B : Word),
    let T : Int :=
      if s.div64Prep then
        let u : Int := s.rDiv64.toNat * 2 ^ 32 + (s.reg a).toNat
        if u < 2 ^ 63 then u else u - 2 ^ 64
      else (s.reg a).toInt
    let D := B.toInt
    B ≠ 0 →
    ∃ q r : Int, T = q * D + r ∧ r.natAbs < D.natAbs ∧
      (match s.params.divRound with
        | .towardZero => r = 0 ∨ (r < 0 ↔ T < 0)
        | .towardMinusInfinity => r = 0 ∨ (r < 0 ↔ D < 0)) ∧
      (-2 ^ 31 ≤ q → q ≤ 2 ^ 31 - 1 →
        let t : State :=
          { s with regs := Bank.set s.regs w (BitVec.ofInt 32 q), rMod := BitVec.ofInt 32 r, div64Prep := false
                   pc := s.pc + 1, irqHold := true }
        (B = s.reg b → exec (.div w a b) s = .next t) ∧ (B = k.signExtend 32 → exec (.divi w a k) s = .next t))

/-- DIV and DIVI by zero, or with a quotient, rounded as in DivisionResult (the spec's decision D7, log 16), outside the
signed 32-bit range: the instruction completes, x[w] and rMod hold some values, div64Prep is cleared, irqHold is set, no
interrupt is requested, nothing else changes (the spec's decision D8). -/
def Obligations.DivisionWithoutResult : Prop :=
  ∀ (s : State) (w a b : RegNum) (k : Const) (B : Word),
    let T : Int :=
      if s.div64Prep then
        let u : Int := s.rDiv64.toNat * 2 ^ 32 + (s.reg a).toNat
        if u < 2 ^ 63 then u else u - 2 ^ 64
      else (s.reg a).toInt
    let D := B.toInt
    (D = 0 ∨ ∃ q r : Int, T = q * D + r ∧ r.natAbs < D.natAbs ∧
      (match s.params.divRound with
        | .towardZero => r = 0 ∨ (r < 0 ↔ T < 0)
        | .towardMinusInfinity => r = 0 ∨ (r < 0 ↔ D < 0)) ∧ ¬(-2 ^ 31 ≤ q ∧ q ≤ 2 ^ 31 - 1)) →
    let ends (o : Host.Outcome State Fault Refusal) : Prop :=
      ∃ (x m : Word) (n : Nat), o = .next
        { s with regs := Bank.set s.regs w x, rMod := m, div64Prep := false, pc := s.pc + 1, irqHold := true, freeCount := n }
    (B = s.reg b → ends (exec (.div w a b) s)) ∧ (B = k.signExtend 32 → ends (exec (.divi w a k) s))

/-- DIV64P: rDiv64 is x[a], div64Prep and irqHold are 1; no general register, no flag. Its word has OP 22. -/
def Obligations.DividendIsPrepared : Prop :=
  ∀ (s : State) (a : RegNum),
    exec (.div64p a) s = .next { s with rDiv64 := s.reg a, div64Prep := true, pc := s.pc + 1, irqHold := true } ∧
    encode (.div64p a) = BitVec.ofNat 32 (0x22 * 2 ^ 24 + a.val * 2 ^ 16)

/-- MULFP and MULFPI: the exact product divided by 2^16, rounded toward minus infinity, modulo 2^32 (the spec's decision
D9); rMulHigh and ovMul hold some values; irqHold is set; nothing else changes. -/
def Obligations.FixedPointProductResult : Prop :=
  ∀ (s : State) (w a b : RegNum) (k : Const),
    let ends (B : Word) (o : Host.Outcome State Fault Refusal) : Prop :=
      ∃ (h : Word) (v : Bool) (n : Nat), o = .next
        { s with regs := Bank.set s.regs w (BitVec.ofInt 32 ((s.reg a).toInt * B.toInt / 2 ^ 16))
                 rMulHigh := h
                 flags := { s.flags with ovMul := v }
                 pc := s.pc + 1
                 irqHold := true
                 freeCount := n }
    ends (s.reg b) (exec (.mulfp w a b) s) ∧ ends (k.signExtend 32) (exec (.mulfpi w a k) s)

/-- DIVFP and DIVFPI: for a non-zero divisor and a quotient q of x[a] * 2^16 that fits, x[w] is q, rounded as DIV rounds:
toward zero by default, the spec's decision D7 (40_arithmetic.md section 4), or down where the parameter DIV_ROUND floors,
which is the model's reading of its other value (log 16). Otherwise x[w] holds some value. rMod holds some value,
div64Prep is cleared, irqHold is cleared, rDiv64 and the old div64Prep play no part, no interrupt is requested (the
spec's decisions D8 and D10). -/
def Obligations.FixedPointQuotientResult : Prop :=
  ∀ (s : State) (w a b : RegNum) (k : Const) (B : Word),
    let N := (s.reg a).toInt * 2 ^ 16
    let D := B.toInt
    let ends (o : Host.Outcome State Fault Refusal) : Prop :=
      ∃ (x m : Word) (n : Nat), o = .next
        { s with regs := Bank.set s.regs w x, rMod := m, div64Prep := false, pc := s.pc + 1, irqHold := false, freeCount := n } ∧
        ∀ q r : Int, N = q * D + r → r.natAbs < D.natAbs →
          (match s.params.divRound with
            | .towardZero => r = 0 ∨ (r < 0 ↔ N < 0)
            | .towardMinusInfinity => r = 0 ∨ (r < 0 ↔ D < 0)) →
          -2 ^ 31 ≤ q → q ≤ 2 ^ 31 - 1 → x = BitVec.ofInt 32 q
    (B = s.reg b → ends (exec (.divfp w a b) s)) ∧ (B = k.signExtend 32 → ends (exec (.divfpi w a k) s))

/-! ### Logic, shifts, set-condition (41_logic_shift.md, 42_set_condition.md) -/

/-- AND, OR, XOR, XNOR on registers: x[w] is the value whose every bit is the operation on the operands' bits, and nothing
else changes but pc and irqHold. The words have OP 07, 08, 09, 0A. -/
def Obligations.LogicOnRegisters : Prop :=
  ∀ (s : State) (w a b : RegNum),
    let A (j : Nat) : Bool := (s.reg a).getLsbD j
    let B (j : Nat) : Bool := (s.reg b).getLsbD j
    let gives (o : Host.Outcome State Fault Refusal) (bit : Nat → Bool) : Prop :=
      ∃ r : Word, (∀ j, j < 32 → r.getLsbD j = bit j) ∧
        o = .next { s with regs := Bank.set s.regs w r, pc := s.pc + 1, irqHold := false }
    let word (op : Nat) : Word := BitVec.ofNat 32 (op * 2 ^ 24 + w.val * 2 ^ 20 + a.val * 2 ^ 16 + b.val * 2 ^ 12)
    gives (exec (.and w a b) s) (fun j => A j && B j) ∧ gives (exec (.or w a b) s) (fun j => A j || B j) ∧
    gives (exec (.xor w a b) s) (fun j => A j != B j) ∧ gives (exec (.xnor w a b) s) (fun j => A j == B j) ∧
    encode (.and w a b) = word 0x07 ∧ encode (.or w a b) = word 0x08 ∧
    encode (.xor w a b) = word 0x09 ∧ encode (.xnor w a b) = word 0x0A

/-- ANDI, ORI, XORI, XNORI: the same with the zero-extended constant, whose bits 31..16 are 0. The words have OP 87, 88,
89, 8A. -/
def Obligations.LogicWithConstants : Prop :=
  ∀ (s : State) (w a : RegNum) (k : Const),
    let A (j : Nat) : Bool := (s.reg a).getLsbD j
    let K (j : Nat) : Bool := decide (j < 16) && k.getLsbD j
    let gives (o : Host.Outcome State Fault Refusal) (bit : Nat → Bool) : Prop :=
      ∃ r : Word, (∀ j, j < 32 → r.getLsbD j = bit j) ∧
        o = .next { s with regs := Bank.set s.regs w r, pc := s.pc + 1, irqHold := false }
    let word (op : Nat) : Word := BitVec.ofNat 32 (op * 2 ^ 24 + w.val * 2 ^ 20 + a.val * 2 ^ 16 + k.toNat)
    gives (exec (.andi w a k) s) (fun j => A j && K j) ∧ gives (exec (.ori w a k) s) (fun j => A j || K j) ∧
    gives (exec (.xori w a k) s) (fun j => A j != K j) ∧ gives (exec (.xnori w a k) s) (fun j => A j == K j) ∧
    encode (.andi w a k) = word 0x87 ∧ encode (.ori w a k) = word 0x88 ∧
    encode (.xori w a k) = word 0x89 ∧ encode (.xnori w a k) = word 0x8A

/-- SHL and SHLI by n <= 31: x[a] * 2^n modulo 2^32, and ovShift says whether a 1 bit is among the n bits shifted out. -/
def Obligations.LeftShiftResult : Prop :=
  ∀ (s : State) (w a b : RegNum) (k : Const) (B : Word),
    let A := (s.reg a).toNat
    let n := B.toNat
    n ≤ 31 →
    let t : State :=
      { s with regs := Bank.set s.regs w (BitVec.ofNat 32 (A * 2 ^ n % 2 ^ 32))
               flags := { s.flags with ovShift := decide (n ≥ 1 ∧ A / 2 ^ (32 - n) ≠ 0) }
               pc := s.pc + 1
               irqHold := false }
    (B = s.reg b → exec (.shl w a b) s = .next t) ∧ (B = k.signExtend 32 → exec (.shli w a k) s = .next t)

/-- CSHL, SHR, CSHR, SHAR and their immediate forms by n <= 31: the rotation left, the quotient by 2^n, the rotation right,
the signed quotient by 2^n rounded down; nothing else changes but pc and irqHold, no flag. -/
def Obligations.OtherShiftResults : Prop :=
  ∀ (s : State) (w a b : RegNum) (k : Const) (B : Word),
    let A := (s.reg a).toNat
    let n := B.toNat
    n ≤ 31 →
    let t (v : Word) : State := { s with regs := Bank.set s.regs w v, pc := s.pc + 1, irqHold := false }
    let left := t (BitVec.ofNat 32 (A * 2 ^ n % 2 ^ 32 + A / 2 ^ (32 - n)))
    let logical := t (BitVec.ofNat 32 (A / 2 ^ n))
    let right := t (BitVec.ofNat 32 (A / 2 ^ n + A * 2 ^ (32 - n) % 2 ^ 32))
    let arithmetic := t (BitVec.ofInt 32 ((s.reg a).toInt / 2 ^ n))
    (B = s.reg b →
      exec (.cshl w a b) s = .next left ∧ exec (.shr w a b) s = .next logical ∧
      exec (.cshr w a b) s = .next right ∧ exec (.shar w a b) s = .next arithmetic) ∧
    (B = k.signExtend 32 →
      exec (.cshli w a k) s = .next left ∧ exec (.shri w a k) s = .next logical ∧
      exec (.cshri w a k) s = .next right ∧ exec (.shari w a k) s = .next arithmetic)

/-- A shift by more than 31, every negative constant among them, completes: x[w] holds some value, for SHL and SHLI ovShift
too, and nothing else changes but pc and irqHold (the spec's decision D11). -/
def Obligations.ShiftsAboveThirtyOne : Prop :=
  ∀ (s : State) (w a b : RegNum) (k : Const) (B : Word),
    B.toNat > 31 →
    let plain (o : Host.Outcome State Fault Refusal) : Prop :=
      ∃ (x : Word) (n : Nat), o = .next
        { s with regs := Bank.set s.regs w x, pc := s.pc + 1, irqHold := false, freeCount := n }
    let flagged (o : Host.Outcome State Fault Refusal) : Prop :=
      ∃ (x : Word) (v : Bool) (n : Nat), o = .next
        { s with regs := Bank.set s.regs w x, flags := { s.flags with ovShift := v }, pc := s.pc + 1, irqHold := false
                 freeCount := n }
    (B = s.reg b →
      flagged (exec (.shl w a b) s) ∧ plain (exec (.cshl w a b) s) ∧ plain (exec (.shr w a b) s) ∧
      plain (exec (.cshr w a b) s) ∧ plain (exec (.shar w a b) s)) ∧
    (B = k.signExtend 32 →
      flagged (exec (.shli w a k) s) ∧ plain (exec (.cshli w a k) s) ∧ plain (exec (.shri w a k) s) ∧
      plain (exec (.cshri w a k) s) ∧ plain (exec (.shari w a k) s))

/-- SEQ and SNE and their immediate forms: x[w] is 1 if the operands are equal (different), else 0; nothing else changes
but pc and irqHold. The words have OP 10, 11, 90, 91. -/
def Obligations.EqualityTests : Prop :=
  ∀ (s : State) (w a b : RegNum) (k : Const),
    let t (c : Prop) [Decidable c] : State :=
      { s with regs := Bank.set s.regs w (if c then 1 else 0), pc := s.pc + 1, irqHold := false }
    let A := s.reg a
    let regWord (op : Nat) : Word := BitVec.ofNat 32 (op * 2 ^ 24 + w.val * 2 ^ 20 + a.val * 2 ^ 16 + b.val * 2 ^ 12)
    let constWord (op : Nat) : Word := BitVec.ofNat 32 (op * 2 ^ 24 + w.val * 2 ^ 20 + a.val * 2 ^ 16 + k.toNat)
    exec (.seq w a b) s = .next (t (A.toNat = (s.reg b).toNat)) ∧
    exec (.sne w a b) s = .next (t (A.toNat ≠ (s.reg b).toNat)) ∧
    exec (.seqi w a k) s = .next (t (A.toNat = (k.signExtend 32).toNat)) ∧
    exec (.snei w a k) s = .next (t (A.toNat ≠ (k.signExtend 32).toNat)) ∧
    encode (.seq w a b) = regWord 0x10 ∧ encode (.sne w a b) = regWord 0x11 ∧
    encode (.seqi w a k) = constWord 0x90 ∧ encode (.snei w a k) = constWord 0x91

/-- SLT, SGT, SLE, SGE and their immediate forms compare as signed numbers (the spec's decision D12): x[w] is 1 or 0,
nothing else changes but pc and irqHold. -/
def Obligations.OrderTests : Prop :=
  ∀ (s : State) (w a b : RegNum) (k : Const),
    let t (c : Prop) [Decidable c] : State :=
      { s with regs := Bank.set s.regs w (if c then 1 else 0), pc := s.pc + 1, irqHold := false }
    let A := (s.reg a).toInt
    let B := (s.reg b).toInt
    let K := k.toInt
    exec (.slt w a b) s = .next (t (A < B)) ∧ exec (.sgt w a b) s = .next (t (A > B)) ∧
    exec (.sle w a b) s = .next (t (A ≤ B)) ∧ exec (.sge w a b) s = .next (t (A ≥ B)) ∧
    exec (.slti w a k) s = .next (t (A < K)) ∧ exec (.sgti w a k) s = .next (t (A > K)) ∧
    exec (.slei w a k) s = .next (t (A ≤ K)) ∧ exec (.sgei w a k) s = .next (t (A ≥ K))

/-! ### Jumps (43_jumps.md) -/

/-- BEQZ and BNEZ: to the sign-extended constant if the condition holds, requesting PCADDR if that is no legal address (the
spec's decisions D3 and D14), else to the next instruction, whatever the constant; nothing else changes but irqHold. -/
def Obligations.BranchResult : Prop :=
  ∀ (s : State) (a : RegNum) (k : Const),
    let T := k.signExtend 32
    let taken : State :=
      { s with pend := if T.toNat > 0xFFFF then Bank.set s.pend 15 true else s.pend, pc := T, irqHold := false }
    let notTaken : State := { s with pc := s.pc + 1, irqHold := false }
    exec (.beqz a k) s = .next (if s.reg a = 0 then taken else notTaken) ∧
    exec (.bnez a k) s = .next (if s.reg a = 0 then notTaken else taken)

/-- JMP goes to the sign-extended constant, RET and JMPR to x[b], all 32 bits; an illegal target requests PCADDR and is
taken all the same (the spec's decisions D3 and D14); nothing else changes but irqHold. -/
def Obligations.JumpResult : Prop :=
  ∀ (s : State) (b : RegNum) (k : Const),
    let t (T : Word) : State :=
      { s with pend := if T.toNat > 0xFFFF then Bank.set s.pend 15 true else s.pend, pc := T, irqHold := false }
    exec (.jmp k) s = .next (t (k.signExtend 32)) ∧ exec (.ret b) s = .next (t (s.reg b)) ∧
    exec (.jmpr b) s = .next (t (s.reg b))

/-- JAL and JALR: the link x[w] is the address after the call, the target the sign-extended constant or the old x[b], also
for w = b (the spec's decision D4); an illegal target requests PCADDR, and the link is written all the same. -/
def Obligations.CallResult : Prop :=
  ∀ (s : State) (w b : RegNum) (k : Const),
    let t (T : Word) : State :=
      { s with regs := Bank.set s.regs w (s.pc + 1)
               pend := if T.toNat > 0xFFFF then Bank.set s.pend 15 true else s.pend
               pc := T
               irqHold := false }
    exec (.jal w k) s = .next (t (k.signExtend 32)) ∧ exec (.jalr w b) s = .next (t (s.reg b))

/-- START and STARTR: a jump that also switches the boot memory off; no register, flag or memory word changes
(the spec's decisions D3, D14 and D27). -/
def Obligations.StartResult : Prop :=
  ∀ (s : State) (b : RegNum) (k : Const),
    let t (T : Word) : State :=
      { s with bootActive := false
               pend := if T.toNat > 0xFFFF then Bank.set s.pend 15 true else s.pend
               pc := T
               irqHold := false }
    exec (.start k) s = .next (t (k.signExtend 32)) ∧ exec (.startr b) s = .next (t (s.reg b))

/-! ### Loads and stores (44_load_store.md, 20_memory.md) -/

/-- LOAD: EA is x[a] plus the sign-extended displacement modulo 2^32, and rLEA is EA. At an existing address x[w] is the
word there: the one last stored, or, where none ever was, one value fixed for the address (the model's choice, log 5).
At a missing address x[w] holds some value and MEMADDR is requested. Memory never changes. -/
def Obligations.LoadResult : Prop :=
  ∀ (s : State) (w a : RegNum) (k : Const),
    let EA := BitVec.ofNat 32 ((s.reg a).toNat + (k.signExtend 32).toNat)
    (∀ v, EA.toNat < s.params.memSize → s.mem.read EA.toNat = some v →
      exec (.load w a k) s = .next { s with regs := Bank.set s.regs w v, rLEA := EA, pc := s.pc + 1, irqHold := false }) ∧
    (EA.toNat < s.params.memSize → s.mem.read EA.toNat = none →
      exec (.load w a k) s = .next
        { s with regs := Bank.set s.regs w (Config.powerOnWord EA.toNat), rLEA := EA, pc := s.pc + 1, irqHold := false }) ∧
    (EA.toNat ≥ s.params.memSize → ∃ (x : Word) (n : Nat), exec (.load w a k) s = .next
      { s with regs := Bank.set s.regs w x, rLEA := EA, pend := Bank.set s.pend 14 true, pc := s.pc + 1, irqHold := false
               freeCount := n })

/-- STORE: at an address that exists and is not below rMemProt, memory reads as x[b] there and as before everywhere else;
otherwise memory is unchanged and MEMADDR is requested (the spec's decision D16). A store to an address of the program is
put on record (the model's own list, log 35). rLEA is EA either way; no register changes. -/
def Obligations.StoreResult : Prop :=
  ∀ (s : State) (b a : RegNum) (k : Const), s.mem.wf = true →
    let EA := BitVec.ofNat 32 ((s.reg a).toNat + (k.signExtend 32).toNat)
    (EA.toNat < s.params.memSize → EA.toNat ≥ s.rMemProt.toNat →
      ∃ m, exec (.store b a k) s = .next
          { s with mem := m, rLEA := EA, pc := s.pc + 1, irqHold := false
                   codeStores := if (s.prog.read EA.toNat).isSome then EA :: s.codeStores else s.codeStores } ∧
        ∀ x, m.read x = if x = EA.toNat then some (s.reg b) else s.mem.read x) ∧
    ((EA.toNat ≥ s.params.memSize ∨ EA.toNat < s.rMemProt.toNat) →
      exec (.store b a k) s = .next
        { s with rLEA := EA, pend := Bank.set s.pend 14 true, pc := s.pc + 1, irqHold := false })

/-- A LOAD from the address a STORE has just written gives the word stored, through any two registers that address it. -/
def Obligations.LoadReadsWhatStoreWrote : Prop :=
  ∀ (s t : State) (b a w c : RegNum) (k k' : Const), s.mem.wf = true →
    exec (.store b a k) s = .next t → s.writable (effAddr a k s) = true →
    s.reg c + k'.signExtend 32 = effAddr a k s →
    ∃ u, exec (.load w c k') t = .next u ∧ (w ≠ 0 → u.reg w = s.reg b) ∧
      ∀ r, r ≠ w → u.reg r = s.reg r

/-- LREGS with count 1..15 and a base register not among r1..rn: each register 1..n whose address EA + (i-1) exists holds
the word there (where none was ever stored, one value fixed for the address: the model's choice, log 5); the registers
above n are unchanged; MEMADDR is requested exactly if one of the addresses does not exist; rLEA is the start address;
pc advances by 1; nothing else changes (the spec's decisions D3 and D18). -/
def Obligations.BlockLoadResult : Prop :=
  ∀ (s : State) (n a : Nib) (k : Const), n ≠ 0 → ¬(1 ≤ a.val ∧ a.val ≤ n.val) →
    let EA := s.reg a + k.signExtend 32
    let addr (i : Nib) : Nat := (EA + BitVec.ofNat 32 (i.val - 1)).toNat
    ∃ (regs : Bank Word) (c : Nat),
      exec (.lregs n a k) s = .next
        { s with regs := regs
                 rLEA := EA
                 pend := if ∀ i : Nib, 1 ≤ i.val → i.val ≤ n.val → addr i < s.params.memSize then s.pend
                         else Bank.set s.pend 14 true
                 pc := s.pc + 1
                 irqHold := false
                 freeCount := c } ∧
      (∀ (i : Nib) (v : Word), 1 ≤ i.val → i.val ≤ n.val → addr i < s.params.memSize →
        (s.mem.read (addr i) = some v ∨ (s.mem.read (addr i) = none ∧ v = Config.powerOnWord (addr i))) →
        Bank.get regs 0 i = v) ∧
      (∀ i : Nib, i.val > n.val → Bank.get regs 0 i = s.reg i)

/-- LREGS and SREGS with count 0, and LREGS whose base register is among those loaded, are refused by name (the spec's
decision D18). -/
def Obligations.BlockFormsRefused : Prop :=
  ∀ (s : State) (n a : Nib) (k : Const),
    exec (.lregs 0 a k) s = .refused .blockCountZero ∧ exec (.sregs 0 a k) s = .refused .blockCountZero ∧
    (1 ≤ a.val → a.val ≤ n.val → exec (.lregs n a k) s = .refused .blockBaseLoaded)

/-- SREGS with count 1..15: at each address EA + (i-1) that exists and is not protected memory reads as x[i], and every
other address reads as before; MEMADDR is requested exactly if one of the n words was not stored; rLEA is the start
address; pc advances by 1; the addresses of the program among those stored to are put on record (the model's own list, log
35); nothing else changes (the spec's decisions D3, D16, D18). -/
def Obligations.BlockStoreResult : Prop :=
  ∀ (s : State) (n a : Nib) (k : Const), s.mem.wf = true → n ≠ 0 →
    let EA := s.reg a + k.signExtend 32
    let addr (i : Nib) : Nat := (EA + BitVec.ofNat 32 (i.val - 1)).toNat
    let stored (i : Nib) : Prop :=
      1 ≤ i.val ∧ i.val ≤ n.val ∧ addr i < s.params.memSize ∧ addr i ≥ s.rMemProt.toNat
    ∃ (m : Memory) (c : List Word),
      exec (.sregs n a k) s = .next
        { s with mem := m
                 rLEA := EA
                 pend := if ∀ i : Nib, 1 ≤ i.val → i.val ≤ n.val → addr i < s.params.memSize ∧ addr i ≥ s.rMemProt.toNat
                         then s.pend else Bank.set s.pend 14 true
                 pc := s.pc + 1
                 irqHold := false
                 codeStores := c } ∧
      (∀ x, x ∈ c ↔ x ∈ s.codeStores ∨
        ∃ i, stored i ∧ (s.prog.read (addr i)).isSome = true ∧ x = EA + BitVec.ofNat 32 (i.val - 1)) ∧
      (∀ i, stored i → m.read (addr i) = some (s.reg i)) ∧
      (∀ x, (∀ i, stored i → addr i ≠ x) → m.read x = s.mem.read x)

/-- SMP sets the protection bound to x[b], all 32 bits, and nothing else but pc and irqHold: no flag, no general register,
no request. Its word has OP 27. -/
def Obligations.ProtectionBoundIsSet : Prop :=
  ∀ (s : State) (b : RegNum),
    exec (.smp b) s = .next { s with rMemProt := s.reg b, pc := s.pc + 1, irqHold := false } ∧
    encode (.smp b) = BitVec.ofNat 32 (0x27 * 2 ^ 24 + b.val * 2 ^ 12)

/-- SMPI sets the protection bound to the sign-extended constant (the extension is the spec's decision D3), and nothing else
but pc and irqHold. Its word has OP A7. -/
def Obligations.ConstantProtectionBoundIsSet : Prop :=
  ∀ (s : State) (k : Const),
    exec (.smpi k) s = .next { s with rMemProt := k.signExtend 32, pc := s.pc + 1, irqHold := false } ∧
    encode (.smpi k) = BitVec.ofNat 32 (0xA7 * 2 ^ 24 + k.toNat)

/-! ### Ports (45_port_io.md, 20_memory.md R77 to R79) -/

/-- IN and INR: an existing port gives its component's answer, the listed one (the model's own list, log 14) or some value
where none is listed, and the access is recorded once; a missing port gives some value and requests XADDR. Nothing
else changes (the constant is sign-extended by the spec's decision D3). -/
def Obligations.PortInputResult : Prop :=
  ∀ (s : State) (w b : RegNum) (k : Const) (P : Word),
    let ends (o : Host.Outcome State Fault Refusal) : Prop :=
      (∀ v rest, P ∈ s.params.ports → s.portAnswers = v :: rest → o = .next
        { s with regs := Bank.set s.regs w v, portAnswers := rest, portTrace := .read P v :: s.portTrace, pc := s.pc + 1
                 irqHold := false }) ∧
      (P ∈ s.params.ports → s.portAnswers = [] → ∃ (v : Word) (n : Nat), o = .next
        { s with regs := Bank.set s.regs w v, portTrace := .read P v :: s.portTrace, pc := s.pc + 1, irqHold := false
                 freeCount := n }) ∧
      (P ∉ s.params.ports → ∃ (v : Word) (n : Nat), o = .next
        { s with regs := Bank.set s.regs w v, pend := Bank.set s.pend 13 true, pc := s.pc + 1, irqHold := false
                 freeCount := n })
    (P = k.signExtend 32 → ends (exec (.inp w k) s)) ∧ (P = s.reg b → ends (exec (.inr w b) s))

/-- OUT and OUTR: x[a] is handed once to the component at an existing port; with a missing port nothing is sent and XADDR
is requested (the spec's decision D19). Nothing else changes. -/
def Obligations.PortOutputResult : Prop :=
  ∀ (s : State) (a b : RegNum) (k : Const) (P : Word),
    let t : State :=
      if P ∈ s.params.ports then
        { s with portTrace := .write P (s.reg a) :: s.portTrace, pc := s.pc + 1, irqHold := false }
      else { s with pend := Bank.set s.pend 13 true, pc := s.pc + 1, irqHold := false }
    (P = k.signExtend 32 → exec (.out a k) s = .next t) ∧ (P = s.reg b → exec (.outr a b) s = .next t)

/-! ### Interrupt control (46_interrupt_instructions.md) -/

/-- ENI sets ie and DEI clears it, whatever it was; stored requests, level and everything else stay, and after DEI no
interrupt is taken. -/
def Obligations.InterruptsEnabledAndDisabled : Prop :=
  ∀ s : State,
    exec .eni s = .next { s with ie := true, pc := s.pc + 1, irqHold := false } ∧
    exec .dei s = .next { s with ie := false, pc := s.pc + 1, irqHold := false } ∧
    (∀ t, exec .dei s = .next t → t.interruptToTake = none)

/-- SISA and SISAI: with 1..15 in x[a], isa of that number is x[b] or the sign-extended constant, and nothing else changes
but pc and irqHold; with any other value they are refused by name (the spec's decisions D3, D20 and D37). -/
def Obligations.RoutineAddressIsSet : Prop :=
  ∀ (s : State) (a b : RegNum) (k : Const),
    let t (i : Nib) (v : Word) : State := { s with isa := Bank.set s.isa i v, pc := s.pc + 1, irqHold := false }
    (∀ i : Nib, 1 ≤ i.val → (s.reg a).toNat = i.val →
      exec (.sisa a b) s = .next (t i (s.reg b)) ∧ exec (.sisai a k) s = .next (t i (k.signExtend 32))) ∧
    ((s.reg a).toNat = 0 ∨ (s.reg a).toNat > 15 →
      exec (.sisa a b) s = .refused .noSuchInterrupt ∧ exec (.sisai a k) s = .refused .noSuchInterrupt)

/-- RETI and LIRA: in a routine RETI goes back to the innermost return address and its level, and LIRA copies that address
and leaves the stack; outside a routine both are refused by name (RETI by the spec's decisions D21 and D34). -/
def Obligations.ReturnFromRoutine : Prop :=
  ∀ (s : State) (w : RegNum),
    (∀ f rest, s.istack = f :: rest →
      exec .reti s = .next { s with ilevel := f.level, istack := rest, pc := f.ret, irqHold := false } ∧
      exec (.lira w) s = .next { s with regs := Bank.set s.regs w f.ret, pc := s.pc + 1, irqHold := false }) ∧
    (s.istack = [] →
      exec .reti s = .refused .returnOutsideRoutine ∧ exec (.lira w) s = .refused .returnAddressOutsideRoutine)

/-! ### Others (47_other.md, 48_register_load.md) -/

/-- LLEA copies rLEA to x[w]; after a LOAD, STORE, LREGS or SREGS that is the sum x[a] + k of that instruction, though the
access may have failed (the spec's reading C8). -/
def Obligations.LastAddressIsRead : Prop :=
  ∀ (s t : State) (w r a : RegNum) (k : Const),
    exec (.llea w) s = .next { s with regs := Bank.set s.regs w s.rLEA, pc := s.pc + 1, irqHold := false } ∧
    (exec (.load r a k) s = .next t ∨ exec (.store r a k) s = .next t ∨ exec (.lregs r a k) s = .next t ∨
      exec (.sregs r a k) s = .next t → t.rLEA = s.reg a + k.signExtend 32)

/-- LFLAGS, SFLAGS, SFLAGSI under the parameter FLAGS_LAYOUT: bit p of the value LFLAGS gives is the flag placed at p and 0
where none is; SFLAGS and SFLAGSI take each flag from its bit and ignore the others (the positions are the open parameter
of the spec's decision D25, log 27). -/
def Obligations.FlagsAreReadAndWritten : Prop :=
  ∀ (s : State) (w b : RegNum) (k : Const), s.params.flagsLayout.distinct →
    let L := s.params.flagsLayout
    let set (v : Word) : State :=
      { s with flags := { ovMul := v.getLsbD L.ovMul, ovShift := v.getLsbD L.ovShift, ovUns := v.getLsbD L.ovUns
                          ovSgn := v.getLsbD L.ovSgn }
               pc := s.pc + 1
               irqHold := false }
    (∃ B : Word, (∀ p : Fin 32, B.getLsbD p =
        if p = L.ovMul then s.flags.ovMul else if p = L.ovShift then s.flags.ovShift
        else if p = L.ovUns then s.flags.ovUns else if p = L.ovSgn then s.flags.ovSgn else false) ∧
      exec (.lflags w) s = .next { s with regs := Bank.set s.regs w B, pc := s.pc + 1, irqHold := false }) ∧
    exec (.sflags b) s = .next (set (s.reg b)) ∧ exec (.sflagsi k) s = .next (set (k.signExtend 32))

/-- Flags saved by LFLAGS into a register and restored by SFLAGS are as before, whatever the four flags are set to in
between, under every layout. -/
def Obligations.FlagsSaveAndRestore : Prop :=
  ∀ (s t u : State) (w : RegNum) (f : Flags), s.params.flagsLayout.distinct → w ≠ 0 →
    exec (.lflags w) s = .next t → exec (.sflags w) { t with flags := f } = .next u → u.flags = s.flags

/-- SLEEP: the core sleeps with pc at the SLEEP and irqHold cleared, nothing else changes; only where the parameter
SLEEP_WAKES_ON_PENDING holds and a peripheral request 3..8 is stored does it end at once (the spec's decision D24). -/
def Obligations.SleepResult : Prop :=
  ∀ s : State,
    ((s.params.sleepWakesOnPending = true ∧ ∃ i : Nib, 3 ≤ i.val ∧ i.val ≤ 8 ∧ s.pendAt i = true) →
      exec .sleep s = .next { s with pc := s.pc + 1, irqHold := false }) ∧
    (¬(s.params.sleepWakesOnPending = true ∧ ∃ i : Nib, 3 ≤ i.val ∧ i.val ≤ 8 ∧ s.pendAt i = true) →
      exec .sleep s = .next { s with asleep := true, irqHold := false })

/-- LDSI, LDUI and LD write the sign-extended constant, the zero-extended constant and x[a] to x[w], and nothing else but
pc and irqHold (that LDSI leaves the flags is the spec's decision D32). -/
def Obligations.RegisterLoadResult : Prop :=
  ∀ (s : State) (w a : RegNum) (k : Const),
    let t (v : Word) : State := { s with regs := Bank.set s.regs w v, pc := s.pc + 1, irqHold := false }
    exec (.ldsi w k) s = .next (t (BitVec.ofInt 32 k.toInt)) ∧ exec (.ldui w k) s = .next (t (BitVec.ofNat 32 k.toNat)) ∧
    exec (.ld w a) s = .next (t (s.reg a))
end

