-- ==== Sys2Proof/Laws/Bank.lean ====
section
/-! SUPPORT. Banks of fifteen: a read after a write, number 0, equality by reads. -/

namespace Sys2Proof.Machine

variable {α : Type} (b : Bank α) (z v : α) (i j : Nib)

@[simp] theorem Bank.get_zero : Bank.get b z 0 = z := rfl

@[simp] theorem Bank.set_zero : Bank.set b 0 v = b := rfl

theorem Bank.get_set : Bank.get (Bank.set b i v) z j = if i = j ∧ i ≠ 0 then v else Bank.get b z j := by
  unfold Bank.get Bank.set
  by_cases hj : j.val = 0
  · have : j = 0 := Fin.ext hj
    simp only [hj, dite_true]
    split <;> simp_all
  · by_cases hi : i.val = 0
    · have : i = 0 := Fin.ext hi
      simp [this]
    · simp only [hi, hj, dite_false, Vector.getElem_set, Fin.ext_iff (a := i) (b := j)]
      by_cases h : i.val = j.val
      · have : i ≠ 0 := fun e => hi (congrArg Fin.val e)
        simp [h, this]
      · have : i.val - 1 ≠ j.val - 1 := by omega
        simp [h, this]

theorem Bank.get_set_same (h : i ≠ 0) : Bank.get (Bank.set b i v) z i = v := by simp [Bank.get_set, h]

theorem Bank.get_set_ne (h : i ≠ j) : Bank.get (Bank.set b i v) z j = Bank.get b z j := by simp [Bank.get_set, h]

/-- Two banks that agree at every number are equal. -/
theorem Bank.ext_get {b c : Bank α} (h : ∀ i : Nib, Bank.get b z i = Bank.get c z i) : b = c := by
  apply Vector.ext
  intro k hk
  have := h ⟨k + 1, by omega⟩
  simpa [Bank.get] using this

@[simp] theorem Bank.get_replicate (w : α) : Bank.get (Vector.replicate 15 w : Bank α) w i = w := by
  unfold Bank.get
  split <;> simp

end Sys2Proof.Machine
end

