-- ==== Sys2Proof/Laws/Memory.lean ====
section
/-! SUPPORT. Word memory: the canonical form is kept, a read after a write, equality by reads. -/

namespace Sys2Proof.Machine

theorem Memory.read_of_risesFrom {m : Memory} {lo a : Nat} (h : Memory.risesFrom lo m = true) (ha : a < lo) :
    Memory.read m a = none := by
  induction m generalizing lo with
  | nil => rfl
  | cons e rest ih =>
    simp only [Memory.risesFrom, Bool.and_eq_true, decide_eq_true_eq] at h
    have hne : e.1 ≠ a := by omega
    simp only [Memory.read, hne, if_false]
    exact ih h.2 (by omega)

theorem Memory.write_risesFrom {m : Memory} {lo a : Nat} {v : Word} (h : Memory.risesFrom lo m = true) (ha : lo ≤ a) :
    Memory.risesFrom lo (Memory.write m a v) = true := by
  induction m generalizing lo with
  | nil => simp [Memory.write, Memory.risesFrom, ha]
  | cons e rest ih =>
    simp only [Memory.risesFrom, Bool.and_eq_true, decide_eq_true_eq] at h
    unfold Memory.write
    split
    · simp only [Memory.risesFrom, Bool.and_eq_true, decide_eq_true_eq]
      exact ⟨ha, by omega, h.2⟩
    · split
      · rename_i h2
        simp only [Memory.risesFrom, Bool.and_eq_true, decide_eq_true_eq]
        exact ⟨ha, h2 ▸ h.2⟩
      · simp only [Memory.risesFrom, Bool.and_eq_true, decide_eq_true_eq]
        exact ⟨h.1, ih h.2 (by omega)⟩

/-- A write keeps the canonical form. -/
theorem Memory.write_wf {m : Memory} {a : Nat} {v : Word} (h : m.wf = true) : (m.write a v).wf = true :=
  Memory.write_risesFrom h (Nat.zero_le a)

/-- A write below a bound keeps every listed address below it. -/
theorem Memory.write_below {m : Memory} {bound a : Nat} {v : Word} (h : m.below bound = true) (ha : a < bound) :
    (m.write a v).below bound = true := by
  induction m with
  | nil => simp [Memory.write, Memory.below, ha]
  | cons e rest ih =>
    simp only [Memory.below, List.all_cons, Bool.and_eq_true, decide_eq_true_eq] at h ih ⊢
    unfold Memory.write
    split
    · simp [h.1, ha]; simpa using h.2
    · split
      · simp [ha]; simpa using h.2
      · simp only [List.all_cons, Bool.and_eq_true, decide_eq_true_eq]
        exact ⟨h.1, ih h.2⟩

/-- A read after a write: the value written at the same address, the old word elsewhere. -/
theorem Memory.read_write_from {m : Memory} {lo a b : Nat} {v : Word} (h : Memory.risesFrom lo m = true) :
    (m.write a v).read b = if a = b then some v else m.read b := by
  induction m generalizing lo with
  | nil => simp [Memory.write, Memory.read]
  | cons e rest ih =>
    simp only [Memory.risesFrom, Bool.and_eq_true, decide_eq_true_eq] at h
    unfold Memory.write
    split
    · simp [Memory.read]
    · split
      · rename_i h2
        simp only [Memory.read, h2]
        split <;> simp_all
      · simp only [Memory.read, ih h.2]
        split <;> split <;> simp_all

theorem Memory.read_write {m : Memory} {a b : Nat} {v : Word} (h : m.wf = true) :
    (m.write a v).read b = if a = b then some v else m.read b :=
  Memory.read_write_from h

/-- An address at or above the bound is not listed. -/
theorem Memory.read_below {m : Memory} {bound a : Nat} (h : m.below bound = true) (ha : bound ≤ a) : m.read a = none := by
  induction m with
  | nil => rfl
  | cons e rest ih =>
    simp only [Memory.below, List.all_cons, Bool.and_eq_true, decide_eq_true_eq] at h ih
    have hne : e.1 ≠ a := by omega
    simp only [Memory.read, hne, if_false]
    exact ih h.2

/-- Canonical memories that read alike are equal data. -/
theorem Memory.eq_of_read {m n : Memory} {lo : Nat} (hm : Memory.risesFrom lo m = true) (hn : Memory.risesFrom lo n = true)
    (h : ∀ a, m.read a = n.read a) : m = n := by
  induction m generalizing n lo with
  | nil =>
    cases n with
    | nil => rfl
    | cons e rest => have := h e.1; simp [Memory.read] at this
  | cons e rest ih =>
    cases n with
    | nil => have := h e.1; simp [Memory.read] at this
    | cons f rest2 =>
      simp only [Memory.risesFrom, Bool.and_eq_true, decide_eq_true_eq] at hm hn
      have hef : e.1 = f.1 := by
        rcases Nat.lt_trichotomy e.1 f.1 with hlt | heq | hgt
        · have h1 := h e.1
          have h2 : f.1 ≠ e.1 := by omega
          simp [Memory.read, h2, Memory.read_of_risesFrom hn.2 (by omega : e.1 < f.1 + 1)] at h1
        · exact heq
        · have h1 := h f.1
          have h2 : e.1 ≠ f.1 := by omega
          simp [Memory.read, h2, Memory.read_of_risesFrom hm.2 (by omega : f.1 < e.1 + 1)] at h1
      have hv : e.2 = f.2 := by
        have h1 := h e.1
        simpa [Memory.read, hef] using h1
      have hr : rest = rest2 := by
        apply ih hm.2 (hef ▸ hn.2)
        intro a
        by_cases ha : e.1 = a
        · rw [Memory.read_of_risesFrom hm.2 (by omega), Memory.read_of_risesFrom hn.2 (by omega)]
        · have h1 := h a
          simpa [Memory.read, ha, hef ▸ ha] using h1
      rw [Prod.ext hef hv, hr]

end Sys2Proof.Machine
end

