-- ==== Sys2Proof/Laws/State.lean ====
section
/-! SUPPORT. One lemma per field per update of State, true by rfl, so that no later proof unfolds a record update. -/

namespace Sys2Proof.Machine

variable (s : State)

/-! setReg -/

@[simp] theorem State.setReg_params (i : RegNum) (v : Word) : (s.setReg i v).params = s.params := rfl
@[simp] theorem State.setReg_regs (i : RegNum) (v : Word) : (s.setReg i v).regs = Bank.set s.regs i v := rfl
@[simp] theorem State.setReg_pc (i : RegNum) (v : Word) : (s.setReg i v).pc = s.pc := rfl
@[simp] theorem State.setReg_flags (i : RegNum) (v : Word) : (s.setReg i v).flags = s.flags := rfl
@[simp] theorem State.setReg_rMod (i : RegNum) (v : Word) : (s.setReg i v).rMod = s.rMod := rfl
@[simp] theorem State.setReg_rMulHigh (i : RegNum) (v : Word) : (s.setReg i v).rMulHigh = s.rMulHigh := rfl
@[simp] theorem State.setReg_rDiv64 (i : RegNum) (v : Word) : (s.setReg i v).rDiv64 = s.rDiv64 := rfl
@[simp] theorem State.setReg_div64Prep (i : RegNum) (v : Word) : (s.setReg i v).div64Prep = s.div64Prep := rfl
@[simp] theorem State.setReg_rMemProt (i : RegNum) (v : Word) : (s.setReg i v).rMemProt = s.rMemProt := rfl
@[simp] theorem State.setReg_rLEA (i : RegNum) (v : Word) : (s.setReg i v).rLEA = s.rLEA := rfl
@[simp] theorem State.setReg_ie (i : RegNum) (v : Word) : (s.setReg i v).ie = s.ie := rfl
@[simp] theorem State.setReg_isa (i : RegNum) (v : Word) : (s.setReg i v).isa = s.isa := rfl
@[simp] theorem State.setReg_pend (i : RegNum) (v : Word) : (s.setReg i v).pend = s.pend := rfl
@[simp] theorem State.setReg_ilevel (i : RegNum) (v : Word) : (s.setReg i v).ilevel = s.ilevel := rfl
@[simp] theorem State.setReg_istack (i : RegNum) (v : Word) : (s.setReg i v).istack = s.istack := rfl
@[simp] theorem State.setReg_irqHold (i : RegNum) (v : Word) : (s.setReg i v).irqHold = s.irqHold := rfl
@[simp] theorem State.setReg_bootActive (i : RegNum) (v : Word) : (s.setReg i v).bootActive = s.bootActive := rfl
@[simp] theorem State.setReg_asleep (i : RegNum) (v : Word) : (s.setReg i v).asleep = s.asleep := rfl
@[simp] theorem State.setReg_mem (i : RegNum) (v : Word) : (s.setReg i v).mem = s.mem := rfl
@[simp] theorem State.setReg_prog (i : RegNum) (v : Word) : (s.setReg i v).prog = s.prog := rfl
@[simp] theorem State.setReg_codeStores (i : RegNum) (v : Word) : (s.setReg i v).codeStores = s.codeStores := rfl
@[simp] theorem State.setReg_schedule (i : RegNum) (v : Word) : (s.setReg i v).schedule = s.schedule := rfl
@[simp] theorem State.setReg_portAnswers (i : RegNum) (v : Word) : (s.setReg i v).portAnswers = s.portAnswers := rfl
@[simp] theorem State.setReg_portTrace (i : RegNum) (v : Word) : (s.setReg i v).portTrace = s.portTrace := rfl
@[simp] theorem State.setReg_freeCount (i : RegNum) (v : Word) : (s.setReg i v).freeCount = s.freeCount := rfl

/-! setPc -/

@[simp] theorem State.setPc_params (v : Word) : (s.setPc v).params = s.params := rfl
@[simp] theorem State.setPc_regs (v : Word) : (s.setPc v).regs = s.regs := rfl
@[simp] theorem State.setPc_pc (v : Word) : (s.setPc v).pc = v := rfl
@[simp] theorem State.setPc_flags (v : Word) : (s.setPc v).flags = s.flags := rfl
@[simp] theorem State.setPc_rMod (v : Word) : (s.setPc v).rMod = s.rMod := rfl
@[simp] theorem State.setPc_rMulHigh (v : Word) : (s.setPc v).rMulHigh = s.rMulHigh := rfl
@[simp] theorem State.setPc_rDiv64 (v : Word) : (s.setPc v).rDiv64 = s.rDiv64 := rfl
@[simp] theorem State.setPc_div64Prep (v : Word) : (s.setPc v).div64Prep = s.div64Prep := rfl
@[simp] theorem State.setPc_rMemProt (v : Word) : (s.setPc v).rMemProt = s.rMemProt := rfl
@[simp] theorem State.setPc_rLEA (v : Word) : (s.setPc v).rLEA = s.rLEA := rfl
@[simp] theorem State.setPc_ie (v : Word) : (s.setPc v).ie = s.ie := rfl
@[simp] theorem State.setPc_isa (v : Word) : (s.setPc v).isa = s.isa := rfl
@[simp] theorem State.setPc_pend (v : Word) : (s.setPc v).pend = s.pend := rfl
@[simp] theorem State.setPc_ilevel (v : Word) : (s.setPc v).ilevel = s.ilevel := rfl
@[simp] theorem State.setPc_istack (v : Word) : (s.setPc v).istack = s.istack := rfl
@[simp] theorem State.setPc_irqHold (v : Word) : (s.setPc v).irqHold = s.irqHold := rfl
@[simp] theorem State.setPc_bootActive (v : Word) : (s.setPc v).bootActive = s.bootActive := rfl
@[simp] theorem State.setPc_asleep (v : Word) : (s.setPc v).asleep = s.asleep := rfl
@[simp] theorem State.setPc_mem (v : Word) : (s.setPc v).mem = s.mem := rfl
@[simp] theorem State.setPc_prog (v : Word) : (s.setPc v).prog = s.prog := rfl
@[simp] theorem State.setPc_codeStores (v : Word) : (s.setPc v).codeStores = s.codeStores := rfl
@[simp] theorem State.setPc_schedule (v : Word) : (s.setPc v).schedule = s.schedule := rfl
@[simp] theorem State.setPc_portAnswers (v : Word) : (s.setPc v).portAnswers = s.portAnswers := rfl
@[simp] theorem State.setPc_portTrace (v : Word) : (s.setPc v).portTrace = s.portTrace := rfl
@[simp] theorem State.setPc_freeCount (v : Word) : (s.setPc v).freeCount = s.freeCount := rfl

/-! setFlags -/

@[simp] theorem State.setFlags_params (f : Flags) : (s.setFlags f).params = s.params := rfl
@[simp] theorem State.setFlags_regs (f : Flags) : (s.setFlags f).regs = s.regs := rfl
@[simp] theorem State.setFlags_pc (f : Flags) : (s.setFlags f).pc = s.pc := rfl
@[simp] theorem State.setFlags_flags (f : Flags) : (s.setFlags f).flags = f := rfl
@[simp] theorem State.setFlags_rMod (f : Flags) : (s.setFlags f).rMod = s.rMod := rfl
@[simp] theorem State.setFlags_rMulHigh (f : Flags) : (s.setFlags f).rMulHigh = s.rMulHigh := rfl
@[simp] theorem State.setFlags_rDiv64 (f : Flags) : (s.setFlags f).rDiv64 = s.rDiv64 := rfl
@[simp] theorem State.setFlags_div64Prep (f : Flags) : (s.setFlags f).div64Prep = s.div64Prep := rfl
@[simp] theorem State.setFlags_rMemProt (f : Flags) : (s.setFlags f).rMemProt = s.rMemProt := rfl
@[simp] theorem State.setFlags_rLEA (f : Flags) : (s.setFlags f).rLEA = s.rLEA := rfl
@[simp] theorem State.setFlags_ie (f : Flags) : (s.setFlags f).ie = s.ie := rfl
@[simp] theorem State.setFlags_isa (f : Flags) : (s.setFlags f).isa = s.isa := rfl
@[simp] theorem State.setFlags_pend (f : Flags) : (s.setFlags f).pend = s.pend := rfl
@[simp] theorem State.setFlags_ilevel (f : Flags) : (s.setFlags f).ilevel = s.ilevel := rfl
@[simp] theorem State.setFlags_istack (f : Flags) : (s.setFlags f).istack = s.istack := rfl
@[simp] theorem State.setFlags_irqHold (f : Flags) : (s.setFlags f).irqHold = s.irqHold := rfl
@[simp] theorem State.setFlags_bootActive (f : Flags) : (s.setFlags f).bootActive = s.bootActive := rfl
@[simp] theorem State.setFlags_asleep (f : Flags) : (s.setFlags f).asleep = s.asleep := rfl
@[simp] theorem State.setFlags_mem (f : Flags) : (s.setFlags f).mem = s.mem := rfl
@[simp] theorem State.setFlags_prog (f : Flags) : (s.setFlags f).prog = s.prog := rfl
@[simp] theorem State.setFlags_codeStores (f : Flags) : (s.setFlags f).codeStores = s.codeStores := rfl
@[simp] theorem State.setFlags_schedule (f : Flags) : (s.setFlags f).schedule = s.schedule := rfl
@[simp] theorem State.setFlags_portAnswers (f : Flags) : (s.setFlags f).portAnswers = s.portAnswers := rfl
@[simp] theorem State.setFlags_portTrace (f : Flags) : (s.setFlags f).portTrace = s.portTrace := rfl
@[simp] theorem State.setFlags_freeCount (f : Flags) : (s.setFlags f).freeCount = s.freeCount := rfl

/-! setRMod -/

@[simp] theorem State.setRMod_params (v : Word) : (s.setRMod v).params = s.params := rfl
@[simp] theorem State.setRMod_regs (v : Word) : (s.setRMod v).regs = s.regs := rfl
@[simp] theorem State.setRMod_pc (v : Word) : (s.setRMod v).pc = s.pc := rfl
@[simp] theorem State.setRMod_flags (v : Word) : (s.setRMod v).flags = s.flags := rfl
@[simp] theorem State.setRMod_rMod (v : Word) : (s.setRMod v).rMod = v := rfl
@[simp] theorem State.setRMod_rMulHigh (v : Word) : (s.setRMod v).rMulHigh = s.rMulHigh := rfl
@[simp] theorem State.setRMod_rDiv64 (v : Word) : (s.setRMod v).rDiv64 = s.rDiv64 := rfl
@[simp] theorem State.setRMod_div64Prep (v : Word) : (s.setRMod v).div64Prep = s.div64Prep := rfl
@[simp] theorem State.setRMod_rMemProt (v : Word) : (s.setRMod v).rMemProt = s.rMemProt := rfl
@[simp] theorem State.setRMod_rLEA (v : Word) : (s.setRMod v).rLEA = s.rLEA := rfl
@[simp] theorem State.setRMod_ie (v : Word) : (s.setRMod v).ie = s.ie := rfl
@[simp] theorem State.setRMod_isa (v : Word) : (s.setRMod v).isa = s.isa := rfl
@[simp] theorem State.setRMod_pend (v : Word) : (s.setRMod v).pend = s.pend := rfl
@[simp] theorem State.setRMod_ilevel (v : Word) : (s.setRMod v).ilevel = s.ilevel := rfl
@[simp] theorem State.setRMod_istack (v : Word) : (s.setRMod v).istack = s.istack := rfl
@[simp] theorem State.setRMod_irqHold (v : Word) : (s.setRMod v).irqHold = s.irqHold := rfl
@[simp] theorem State.setRMod_bootActive (v : Word) : (s.setRMod v).bootActive = s.bootActive := rfl
@[simp] theorem State.setRMod_asleep (v : Word) : (s.setRMod v).asleep = s.asleep := rfl
@[simp] theorem State.setRMod_mem (v : Word) : (s.setRMod v).mem = s.mem := rfl
@[simp] theorem State.setRMod_prog (v : Word) : (s.setRMod v).prog = s.prog := rfl
@[simp] theorem State.setRMod_codeStores (v : Word) : (s.setRMod v).codeStores = s.codeStores := rfl
@[simp] theorem State.setRMod_schedule (v : Word) : (s.setRMod v).schedule = s.schedule := rfl
@[simp] theorem State.setRMod_portAnswers (v : Word) : (s.setRMod v).portAnswers = s.portAnswers := rfl
@[simp] theorem State.setRMod_portTrace (v : Word) : (s.setRMod v).portTrace = s.portTrace := rfl
@[simp] theorem State.setRMod_freeCount (v : Word) : (s.setRMod v).freeCount = s.freeCount := rfl

/-! setRMulHigh -/

@[simp] theorem State.setRMulHigh_params (v : Word) : (s.setRMulHigh v).params = s.params := rfl
@[simp] theorem State.setRMulHigh_regs (v : Word) : (s.setRMulHigh v).regs = s.regs := rfl
@[simp] theorem State.setRMulHigh_pc (v : Word) : (s.setRMulHigh v).pc = s.pc := rfl
@[simp] theorem State.setRMulHigh_flags (v : Word) : (s.setRMulHigh v).flags = s.flags := rfl
@[simp] theorem State.setRMulHigh_rMod (v : Word) : (s.setRMulHigh v).rMod = s.rMod := rfl
@[simp] theorem State.setRMulHigh_rMulHigh (v : Word) : (s.setRMulHigh v).rMulHigh = v := rfl
@[simp] theorem State.setRMulHigh_rDiv64 (v : Word) : (s.setRMulHigh v).rDiv64 = s.rDiv64 := rfl
@[simp] theorem State.setRMulHigh_div64Prep (v : Word) : (s.setRMulHigh v).div64Prep = s.div64Prep := rfl
@[simp] theorem State.setRMulHigh_rMemProt (v : Word) : (s.setRMulHigh v).rMemProt = s.rMemProt := rfl
@[simp] theorem State.setRMulHigh_rLEA (v : Word) : (s.setRMulHigh v).rLEA = s.rLEA := rfl
@[simp] theorem State.setRMulHigh_ie (v : Word) : (s.setRMulHigh v).ie = s.ie := rfl
@[simp] theorem State.setRMulHigh_isa (v : Word) : (s.setRMulHigh v).isa = s.isa := rfl
@[simp] theorem State.setRMulHigh_pend (v : Word) : (s.setRMulHigh v).pend = s.pend := rfl
@[simp] theorem State.setRMulHigh_ilevel (v : Word) : (s.setRMulHigh v).ilevel = s.ilevel := rfl
@[simp] theorem State.setRMulHigh_istack (v : Word) : (s.setRMulHigh v).istack = s.istack := rfl
@[simp] theorem State.setRMulHigh_irqHold (v : Word) : (s.setRMulHigh v).irqHold = s.irqHold := rfl
@[simp] theorem State.setRMulHigh_bootActive (v : Word) : (s.setRMulHigh v).bootActive = s.bootActive := rfl
@[simp] theorem State.setRMulHigh_asleep (v : Word) : (s.setRMulHigh v).asleep = s.asleep := rfl
@[simp] theorem State.setRMulHigh_mem (v : Word) : (s.setRMulHigh v).mem = s.mem := rfl
@[simp] theorem State.setRMulHigh_prog (v : Word) : (s.setRMulHigh v).prog = s.prog := rfl
@[simp] theorem State.setRMulHigh_codeStores (v : Word) : (s.setRMulHigh v).codeStores = s.codeStores := rfl
@[simp] theorem State.setRMulHigh_schedule (v : Word) : (s.setRMulHigh v).schedule = s.schedule := rfl
@[simp] theorem State.setRMulHigh_portAnswers (v : Word) : (s.setRMulHigh v).portAnswers = s.portAnswers := rfl
@[simp] theorem State.setRMulHigh_portTrace (v : Word) : (s.setRMulHigh v).portTrace = s.portTrace := rfl
@[simp] theorem State.setRMulHigh_freeCount (v : Word) : (s.setRMulHigh v).freeCount = s.freeCount := rfl

/-! setRDiv64 -/

@[simp] theorem State.setRDiv64_params (v : Word) : (s.setRDiv64 v).params = s.params := rfl
@[simp] theorem State.setRDiv64_regs (v : Word) : (s.setRDiv64 v).regs = s.regs := rfl
@[simp] theorem State.setRDiv64_pc (v : Word) : (s.setRDiv64 v).pc = s.pc := rfl
@[simp] theorem State.setRDiv64_flags (v : Word) : (s.setRDiv64 v).flags = s.flags := rfl
@[simp] theorem State.setRDiv64_rMod (v : Word) : (s.setRDiv64 v).rMod = s.rMod := rfl
@[simp] theorem State.setRDiv64_rMulHigh (v : Word) : (s.setRDiv64 v).rMulHigh = s.rMulHigh := rfl
@[simp] theorem State.setRDiv64_rDiv64 (v : Word) : (s.setRDiv64 v).rDiv64 = v := rfl
@[simp] theorem State.setRDiv64_div64Prep (v : Word) : (s.setRDiv64 v).div64Prep = s.div64Prep := rfl
@[simp] theorem State.setRDiv64_rMemProt (v : Word) : (s.setRDiv64 v).rMemProt = s.rMemProt := rfl
@[simp] theorem State.setRDiv64_rLEA (v : Word) : (s.setRDiv64 v).rLEA = s.rLEA := rfl
@[simp] theorem State.setRDiv64_ie (v : Word) : (s.setRDiv64 v).ie = s.ie := rfl
@[simp] theorem State.setRDiv64_isa (v : Word) : (s.setRDiv64 v).isa = s.isa := rfl
@[simp] theorem State.setRDiv64_pend (v : Word) : (s.setRDiv64 v).pend = s.pend := rfl
@[simp] theorem State.setRDiv64_ilevel (v : Word) : (s.setRDiv64 v).ilevel = s.ilevel := rfl
@[simp] theorem State.setRDiv64_istack (v : Word) : (s.setRDiv64 v).istack = s.istack := rfl
@[simp] theorem State.setRDiv64_irqHold (v : Word) : (s.setRDiv64 v).irqHold = s.irqHold := rfl
@[simp] theorem State.setRDiv64_bootActive (v : Word) : (s.setRDiv64 v).bootActive = s.bootActive := rfl
@[simp] theorem State.setRDiv64_asleep (v : Word) : (s.setRDiv64 v).asleep = s.asleep := rfl
@[simp] theorem State.setRDiv64_mem (v : Word) : (s.setRDiv64 v).mem = s.mem := rfl
@[simp] theorem State.setRDiv64_prog (v : Word) : (s.setRDiv64 v).prog = s.prog := rfl
@[simp] theorem State.setRDiv64_codeStores (v : Word) : (s.setRDiv64 v).codeStores = s.codeStores := rfl
@[simp] theorem State.setRDiv64_schedule (v : Word) : (s.setRDiv64 v).schedule = s.schedule := rfl
@[simp] theorem State.setRDiv64_portAnswers (v : Word) : (s.setRDiv64 v).portAnswers = s.portAnswers := rfl
@[simp] theorem State.setRDiv64_portTrace (v : Word) : (s.setRDiv64 v).portTrace = s.portTrace := rfl
@[simp] theorem State.setRDiv64_freeCount (v : Word) : (s.setRDiv64 v).freeCount = s.freeCount := rfl

/-! setDiv64Prep -/

@[simp] theorem State.setDiv64Prep_params (b : Bool) : (s.setDiv64Prep b).params = s.params := rfl
@[simp] theorem State.setDiv64Prep_regs (b : Bool) : (s.setDiv64Prep b).regs = s.regs := rfl
@[simp] theorem State.setDiv64Prep_pc (b : Bool) : (s.setDiv64Prep b).pc = s.pc := rfl
@[simp] theorem State.setDiv64Prep_flags (b : Bool) : (s.setDiv64Prep b).flags = s.flags := rfl
@[simp] theorem State.setDiv64Prep_rMod (b : Bool) : (s.setDiv64Prep b).rMod = s.rMod := rfl
@[simp] theorem State.setDiv64Prep_rMulHigh (b : Bool) : (s.setDiv64Prep b).rMulHigh = s.rMulHigh := rfl
@[simp] theorem State.setDiv64Prep_rDiv64 (b : Bool) : (s.setDiv64Prep b).rDiv64 = s.rDiv64 := rfl
@[simp] theorem State.setDiv64Prep_div64Prep (b : Bool) : (s.setDiv64Prep b).div64Prep = b := rfl
@[simp] theorem State.setDiv64Prep_rMemProt (b : Bool) : (s.setDiv64Prep b).rMemProt = s.rMemProt := rfl
@[simp] theorem State.setDiv64Prep_rLEA (b : Bool) : (s.setDiv64Prep b).rLEA = s.rLEA := rfl
@[simp] theorem State.setDiv64Prep_ie (b : Bool) : (s.setDiv64Prep b).ie = s.ie := rfl
@[simp] theorem State.setDiv64Prep_isa (b : Bool) : (s.setDiv64Prep b).isa = s.isa := rfl
@[simp] theorem State.setDiv64Prep_pend (b : Bool) : (s.setDiv64Prep b).pend = s.pend := rfl
@[simp] theorem State.setDiv64Prep_ilevel (b : Bool) : (s.setDiv64Prep b).ilevel = s.ilevel := rfl
@[simp] theorem State.setDiv64Prep_istack (b : Bool) : (s.setDiv64Prep b).istack = s.istack := rfl
@[simp] theorem State.setDiv64Prep_irqHold (b : Bool) : (s.setDiv64Prep b).irqHold = s.irqHold := rfl
@[simp] theorem State.setDiv64Prep_bootActive (b : Bool) : (s.setDiv64Prep b).bootActive = s.bootActive := rfl
@[simp] theorem State.setDiv64Prep_asleep (b : Bool) : (s.setDiv64Prep b).asleep = s.asleep := rfl
@[simp] theorem State.setDiv64Prep_mem (b : Bool) : (s.setDiv64Prep b).mem = s.mem := rfl
@[simp] theorem State.setDiv64Prep_prog (b : Bool) : (s.setDiv64Prep b).prog = s.prog := rfl
@[simp] theorem State.setDiv64Prep_codeStores (b : Bool) : (s.setDiv64Prep b).codeStores = s.codeStores := rfl
@[simp] theorem State.setDiv64Prep_schedule (b : Bool) : (s.setDiv64Prep b).schedule = s.schedule := rfl
@[simp] theorem State.setDiv64Prep_portAnswers (b : Bool) : (s.setDiv64Prep b).portAnswers = s.portAnswers := rfl
@[simp] theorem State.setDiv64Prep_portTrace (b : Bool) : (s.setDiv64Prep b).portTrace = s.portTrace := rfl
@[simp] theorem State.setDiv64Prep_freeCount (b : Bool) : (s.setDiv64Prep b).freeCount = s.freeCount := rfl

/-! setRMemProt -/

@[simp] theorem State.setRMemProt_params (v : Word) : (s.setRMemProt v).params = s.params := rfl
@[simp] theorem State.setRMemProt_regs (v : Word) : (s.setRMemProt v).regs = s.regs := rfl
@[simp] theorem State.setRMemProt_pc (v : Word) : (s.setRMemProt v).pc = s.pc := rfl
@[simp] theorem State.setRMemProt_flags (v : Word) : (s.setRMemProt v).flags = s.flags := rfl
@[simp] theorem State.setRMemProt_rMod (v : Word) : (s.setRMemProt v).rMod = s.rMod := rfl
@[simp] theorem State.setRMemProt_rMulHigh (v : Word) : (s.setRMemProt v).rMulHigh = s.rMulHigh := rfl
@[simp] theorem State.setRMemProt_rDiv64 (v : Word) : (s.setRMemProt v).rDiv64 = s.rDiv64 := rfl
@[simp] theorem State.setRMemProt_div64Prep (v : Word) : (s.setRMemProt v).div64Prep = s.div64Prep := rfl
@[simp] theorem State.setRMemProt_rMemProt (v : Word) : (s.setRMemProt v).rMemProt = v := rfl
@[simp] theorem State.setRMemProt_rLEA (v : Word) : (s.setRMemProt v).rLEA = s.rLEA := rfl
@[simp] theorem State.setRMemProt_ie (v : Word) : (s.setRMemProt v).ie = s.ie := rfl
@[simp] theorem State.setRMemProt_isa (v : Word) : (s.setRMemProt v).isa = s.isa := rfl
@[simp] theorem State.setRMemProt_pend (v : Word) : (s.setRMemProt v).pend = s.pend := rfl
@[simp] theorem State.setRMemProt_ilevel (v : Word) : (s.setRMemProt v).ilevel = s.ilevel := rfl
@[simp] theorem State.setRMemProt_istack (v : Word) : (s.setRMemProt v).istack = s.istack := rfl
@[simp] theorem State.setRMemProt_irqHold (v : Word) : (s.setRMemProt v).irqHold = s.irqHold := rfl
@[simp] theorem State.setRMemProt_bootActive (v : Word) : (s.setRMemProt v).bootActive = s.bootActive := rfl
@[simp] theorem State.setRMemProt_asleep (v : Word) : (s.setRMemProt v).asleep = s.asleep := rfl
@[simp] theorem State.setRMemProt_mem (v : Word) : (s.setRMemProt v).mem = s.mem := rfl
@[simp] theorem State.setRMemProt_prog (v : Word) : (s.setRMemProt v).prog = s.prog := rfl
@[simp] theorem State.setRMemProt_codeStores (v : Word) : (s.setRMemProt v).codeStores = s.codeStores := rfl
@[simp] theorem State.setRMemProt_schedule (v : Word) : (s.setRMemProt v).schedule = s.schedule := rfl
@[simp] theorem State.setRMemProt_portAnswers (v : Word) : (s.setRMemProt v).portAnswers = s.portAnswers := rfl
@[simp] theorem State.setRMemProt_portTrace (v : Word) : (s.setRMemProt v).portTrace = s.portTrace := rfl
@[simp] theorem State.setRMemProt_freeCount (v : Word) : (s.setRMemProt v).freeCount = s.freeCount := rfl

/-! setRLEA -/

@[simp] theorem State.setRLEA_params (v : Word) : (s.setRLEA v).params = s.params := rfl
@[simp] theorem State.setRLEA_regs (v : Word) : (s.setRLEA v).regs = s.regs := rfl
@[simp] theorem State.setRLEA_pc (v : Word) : (s.setRLEA v).pc = s.pc := rfl
@[simp] theorem State.setRLEA_flags (v : Word) : (s.setRLEA v).flags = s.flags := rfl
@[simp] theorem State.setRLEA_rMod (v : Word) : (s.setRLEA v).rMod = s.rMod := rfl
@[simp] theorem State.setRLEA_rMulHigh (v : Word) : (s.setRLEA v).rMulHigh = s.rMulHigh := rfl
@[simp] theorem State.setRLEA_rDiv64 (v : Word) : (s.setRLEA v).rDiv64 = s.rDiv64 := rfl
@[simp] theorem State.setRLEA_div64Prep (v : Word) : (s.setRLEA v).div64Prep = s.div64Prep := rfl
@[simp] theorem State.setRLEA_rMemProt (v : Word) : (s.setRLEA v).rMemProt = s.rMemProt := rfl
@[simp] theorem State.setRLEA_rLEA (v : Word) : (s.setRLEA v).rLEA = v := rfl
@[simp] theorem State.setRLEA_ie (v : Word) : (s.setRLEA v).ie = s.ie := rfl
@[simp] theorem State.setRLEA_isa (v : Word) : (s.setRLEA v).isa = s.isa := rfl
@[simp] theorem State.setRLEA_pend (v : Word) : (s.setRLEA v).pend = s.pend := rfl
@[simp] theorem State.setRLEA_ilevel (v : Word) : (s.setRLEA v).ilevel = s.ilevel := rfl
@[simp] theorem State.setRLEA_istack (v : Word) : (s.setRLEA v).istack = s.istack := rfl
@[simp] theorem State.setRLEA_irqHold (v : Word) : (s.setRLEA v).irqHold = s.irqHold := rfl
@[simp] theorem State.setRLEA_bootActive (v : Word) : (s.setRLEA v).bootActive = s.bootActive := rfl
@[simp] theorem State.setRLEA_asleep (v : Word) : (s.setRLEA v).asleep = s.asleep := rfl
@[simp] theorem State.setRLEA_mem (v : Word) : (s.setRLEA v).mem = s.mem := rfl
@[simp] theorem State.setRLEA_prog (v : Word) : (s.setRLEA v).prog = s.prog := rfl
@[simp] theorem State.setRLEA_codeStores (v : Word) : (s.setRLEA v).codeStores = s.codeStores := rfl
@[simp] theorem State.setRLEA_schedule (v : Word) : (s.setRLEA v).schedule = s.schedule := rfl
@[simp] theorem State.setRLEA_portAnswers (v : Word) : (s.setRLEA v).portAnswers = s.portAnswers := rfl
@[simp] theorem State.setRLEA_portTrace (v : Word) : (s.setRLEA v).portTrace = s.portTrace := rfl
@[simp] theorem State.setRLEA_freeCount (v : Word) : (s.setRLEA v).freeCount = s.freeCount := rfl

/-! setIe -/

@[simp] theorem State.setIe_params (b : Bool) : (s.setIe b).params = s.params := rfl
@[simp] theorem State.setIe_regs (b : Bool) : (s.setIe b).regs = s.regs := rfl
@[simp] theorem State.setIe_pc (b : Bool) : (s.setIe b).pc = s.pc := rfl
@[simp] theorem State.setIe_flags (b : Bool) : (s.setIe b).flags = s.flags := rfl
@[simp] theorem State.setIe_rMod (b : Bool) : (s.setIe b).rMod = s.rMod := rfl
@[simp] theorem State.setIe_rMulHigh (b : Bool) : (s.setIe b).rMulHigh = s.rMulHigh := rfl
@[simp] theorem State.setIe_rDiv64 (b : Bool) : (s.setIe b).rDiv64 = s.rDiv64 := rfl
@[simp] theorem State.setIe_div64Prep (b : Bool) : (s.setIe b).div64Prep = s.div64Prep := rfl
@[simp] theorem State.setIe_rMemProt (b : Bool) : (s.setIe b).rMemProt = s.rMemProt := rfl
@[simp] theorem State.setIe_rLEA (b : Bool) : (s.setIe b).rLEA = s.rLEA := rfl
@[simp] theorem State.setIe_ie (b : Bool) : (s.setIe b).ie = b := rfl
@[simp] theorem State.setIe_isa (b : Bool) : (s.setIe b).isa = s.isa := rfl
@[simp] theorem State.setIe_pend (b : Bool) : (s.setIe b).pend = s.pend := rfl
@[simp] theorem State.setIe_ilevel (b : Bool) : (s.setIe b).ilevel = s.ilevel := rfl
@[simp] theorem State.setIe_istack (b : Bool) : (s.setIe b).istack = s.istack := rfl
@[simp] theorem State.setIe_irqHold (b : Bool) : (s.setIe b).irqHold = s.irqHold := rfl
@[simp] theorem State.setIe_bootActive (b : Bool) : (s.setIe b).bootActive = s.bootActive := rfl
@[simp] theorem State.setIe_asleep (b : Bool) : (s.setIe b).asleep = s.asleep := rfl
@[simp] theorem State.setIe_mem (b : Bool) : (s.setIe b).mem = s.mem := rfl
@[simp] theorem State.setIe_prog (b : Bool) : (s.setIe b).prog = s.prog := rfl
@[simp] theorem State.setIe_codeStores (b : Bool) : (s.setIe b).codeStores = s.codeStores := rfl
@[simp] theorem State.setIe_schedule (b : Bool) : (s.setIe b).schedule = s.schedule := rfl
@[simp] theorem State.setIe_portAnswers (b : Bool) : (s.setIe b).portAnswers = s.portAnswers := rfl
@[simp] theorem State.setIe_portTrace (b : Bool) : (s.setIe b).portTrace = s.portTrace := rfl
@[simp] theorem State.setIe_freeCount (b : Bool) : (s.setIe b).freeCount = s.freeCount := rfl

/-! setIsa -/

@[simp] theorem State.setIsa_params (i : Nib) (v : Word) : (s.setIsa i v).params = s.params := rfl
@[simp] theorem State.setIsa_regs (i : Nib) (v : Word) : (s.setIsa i v).regs = s.regs := rfl
@[simp] theorem State.setIsa_pc (i : Nib) (v : Word) : (s.setIsa i v).pc = s.pc := rfl
@[simp] theorem State.setIsa_flags (i : Nib) (v : Word) : (s.setIsa i v).flags = s.flags := rfl
@[simp] theorem State.setIsa_rMod (i : Nib) (v : Word) : (s.setIsa i v).rMod = s.rMod := rfl
@[simp] theorem State.setIsa_rMulHigh (i : Nib) (v : Word) : (s.setIsa i v).rMulHigh = s.rMulHigh := rfl
@[simp] theorem State.setIsa_rDiv64 (i : Nib) (v : Word) : (s.setIsa i v).rDiv64 = s.rDiv64 := rfl
@[simp] theorem State.setIsa_div64Prep (i : Nib) (v : Word) : (s.setIsa i v).div64Prep = s.div64Prep := rfl
@[simp] theorem State.setIsa_rMemProt (i : Nib) (v : Word) : (s.setIsa i v).rMemProt = s.rMemProt := rfl
@[simp] theorem State.setIsa_rLEA (i : Nib) (v : Word) : (s.setIsa i v).rLEA = s.rLEA := rfl
@[simp] theorem State.setIsa_ie (i : Nib) (v : Word) : (s.setIsa i v).ie = s.ie := rfl
@[simp] theorem State.setIsa_isa (i : Nib) (v : Word) : (s.setIsa i v).isa = Bank.set s.isa i v := rfl
@[simp] theorem State.setIsa_pend (i : Nib) (v : Word) : (s.setIsa i v).pend = s.pend := rfl
@[simp] theorem State.setIsa_ilevel (i : Nib) (v : Word) : (s.setIsa i v).ilevel = s.ilevel := rfl
@[simp] theorem State.setIsa_istack (i : Nib) (v : Word) : (s.setIsa i v).istack = s.istack := rfl
@[simp] theorem State.setIsa_irqHold (i : Nib) (v : Word) : (s.setIsa i v).irqHold = s.irqHold := rfl
@[simp] theorem State.setIsa_bootActive (i : Nib) (v : Word) : (s.setIsa i v).bootActive = s.bootActive := rfl
@[simp] theorem State.setIsa_asleep (i : Nib) (v : Word) : (s.setIsa i v).asleep = s.asleep := rfl
@[simp] theorem State.setIsa_mem (i : Nib) (v : Word) : (s.setIsa i v).mem = s.mem := rfl
@[simp] theorem State.setIsa_prog (i : Nib) (v : Word) : (s.setIsa i v).prog = s.prog := rfl
@[simp] theorem State.setIsa_codeStores (i : Nib) (v : Word) : (s.setIsa i v).codeStores = s.codeStores := rfl
@[simp] theorem State.setIsa_schedule (i : Nib) (v : Word) : (s.setIsa i v).schedule = s.schedule := rfl
@[simp] theorem State.setIsa_portAnswers (i : Nib) (v : Word) : (s.setIsa i v).portAnswers = s.portAnswers := rfl
@[simp] theorem State.setIsa_portTrace (i : Nib) (v : Word) : (s.setIsa i v).portTrace = s.portTrace := rfl
@[simp] theorem State.setIsa_freeCount (i : Nib) (v : Word) : (s.setIsa i v).freeCount = s.freeCount := rfl

/-! setPend -/

@[simp] theorem State.setPend_params (i : Nib) (b : Bool) : (s.setPend i b).params = s.params := rfl
@[simp] theorem State.setPend_regs (i : Nib) (b : Bool) : (s.setPend i b).regs = s.regs := rfl
@[simp] theorem State.setPend_pc (i : Nib) (b : Bool) : (s.setPend i b).pc = s.pc := rfl
@[simp] theorem State.setPend_flags (i : Nib) (b : Bool) : (s.setPend i b).flags = s.flags := rfl
@[simp] theorem State.setPend_rMod (i : Nib) (b : Bool) : (s.setPend i b).rMod = s.rMod := rfl
@[simp] theorem State.setPend_rMulHigh (i : Nib) (b : Bool) : (s.setPend i b).rMulHigh = s.rMulHigh := rfl
@[simp] theorem State.setPend_rDiv64 (i : Nib) (b : Bool) : (s.setPend i b).rDiv64 = s.rDiv64 := rfl
@[simp] theorem State.setPend_div64Prep (i : Nib) (b : Bool) : (s.setPend i b).div64Prep = s.div64Prep := rfl
@[simp] theorem State.setPend_rMemProt (i : Nib) (b : Bool) : (s.setPend i b).rMemProt = s.rMemProt := rfl
@[simp] theorem State.setPend_rLEA (i : Nib) (b : Bool) : (s.setPend i b).rLEA = s.rLEA := rfl
@[simp] theorem State.setPend_ie (i : Nib) (b : Bool) : (s.setPend i b).ie = s.ie := rfl
@[simp] theorem State.setPend_isa (i : Nib) (b : Bool) : (s.setPend i b).isa = s.isa := rfl
@[simp] theorem State.setPend_pend (i : Nib) (b : Bool) : (s.setPend i b).pend = Bank.set s.pend i b := rfl
@[simp] theorem State.setPend_ilevel (i : Nib) (b : Bool) : (s.setPend i b).ilevel = s.ilevel := rfl
@[simp] theorem State.setPend_istack (i : Nib) (b : Bool) : (s.setPend i b).istack = s.istack := rfl
@[simp] theorem State.setPend_irqHold (i : Nib) (b : Bool) : (s.setPend i b).irqHold = s.irqHold := rfl
@[simp] theorem State.setPend_bootActive (i : Nib) (b : Bool) : (s.setPend i b).bootActive = s.bootActive := rfl
@[simp] theorem State.setPend_asleep (i : Nib) (b : Bool) : (s.setPend i b).asleep = s.asleep := rfl
@[simp] theorem State.setPend_mem (i : Nib) (b : Bool) : (s.setPend i b).mem = s.mem := rfl
@[simp] theorem State.setPend_prog (i : Nib) (b : Bool) : (s.setPend i b).prog = s.prog := rfl
@[simp] theorem State.setPend_codeStores (i : Nib) (b : Bool) : (s.setPend i b).codeStores = s.codeStores := rfl
@[simp] theorem State.setPend_schedule (i : Nib) (b : Bool) : (s.setPend i b).schedule = s.schedule := rfl
@[simp] theorem State.setPend_portAnswers (i : Nib) (b : Bool) : (s.setPend i b).portAnswers = s.portAnswers := rfl
@[simp] theorem State.setPend_portTrace (i : Nib) (b : Bool) : (s.setPend i b).portTrace = s.portTrace := rfl
@[simp] theorem State.setPend_freeCount (i : Nib) (b : Bool) : (s.setPend i b).freeCount = s.freeCount := rfl

/-! setService -/

@[simp] theorem State.setService_params (l : Nib) (st : List IntFrame) : (s.setService l st).params = s.params := rfl
@[simp] theorem State.setService_regs (l : Nib) (st : List IntFrame) : (s.setService l st).regs = s.regs := rfl
@[simp] theorem State.setService_pc (l : Nib) (st : List IntFrame) : (s.setService l st).pc = s.pc := rfl
@[simp] theorem State.setService_flags (l : Nib) (st : List IntFrame) : (s.setService l st).flags = s.flags := rfl
@[simp] theorem State.setService_rMod (l : Nib) (st : List IntFrame) : (s.setService l st).rMod = s.rMod := rfl
@[simp] theorem State.setService_rMulHigh (l : Nib) (st : List IntFrame) : (s.setService l st).rMulHigh = s.rMulHigh := rfl
@[simp] theorem State.setService_rDiv64 (l : Nib) (st : List IntFrame) : (s.setService l st).rDiv64 = s.rDiv64 := rfl
@[simp] theorem State.setService_div64Prep (l : Nib) (st : List IntFrame) : (s.setService l st).div64Prep = s.div64Prep := rfl
@[simp] theorem State.setService_rMemProt (l : Nib) (st : List IntFrame) : (s.setService l st).rMemProt = s.rMemProt := rfl
@[simp] theorem State.setService_rLEA (l : Nib) (st : List IntFrame) : (s.setService l st).rLEA = s.rLEA := rfl
@[simp] theorem State.setService_ie (l : Nib) (st : List IntFrame) : (s.setService l st).ie = s.ie := rfl
@[simp] theorem State.setService_isa (l : Nib) (st : List IntFrame) : (s.setService l st).isa = s.isa := rfl
@[simp] theorem State.setService_pend (l : Nib) (st : List IntFrame) : (s.setService l st).pend = s.pend := rfl
@[simp] theorem State.setService_ilevel (l : Nib) (st : List IntFrame) : (s.setService l st).ilevel = l := rfl
@[simp] theorem State.setService_istack (l : Nib) (st : List IntFrame) : (s.setService l st).istack = st := rfl
@[simp] theorem State.setService_irqHold (l : Nib) (st : List IntFrame) : (s.setService l st).irqHold = s.irqHold := rfl
@[simp] theorem State.setService_bootActive (l : Nib) (st : List IntFrame) : (s.setService l st).bootActive = s.bootActive := rfl
@[simp] theorem State.setService_asleep (l : Nib) (st : List IntFrame) : (s.setService l st).asleep = s.asleep := rfl
@[simp] theorem State.setService_mem (l : Nib) (st : List IntFrame) : (s.setService l st).mem = s.mem := rfl
@[simp] theorem State.setService_prog (l : Nib) (st : List IntFrame) : (s.setService l st).prog = s.prog := rfl
@[simp] theorem State.setService_codeStores (l : Nib) (st : List IntFrame) : (s.setService l st).codeStores = s.codeStores := rfl
@[simp] theorem State.setService_schedule (l : Nib) (st : List IntFrame) : (s.setService l st).schedule = s.schedule := rfl
@[simp] theorem State.setService_portAnswers (l : Nib) (st : List IntFrame) : (s.setService l st).portAnswers = s.portAnswers := rfl
@[simp] theorem State.setService_portTrace (l : Nib) (st : List IntFrame) : (s.setService l st).portTrace = s.portTrace := rfl
@[simp] theorem State.setService_freeCount (l : Nib) (st : List IntFrame) : (s.setService l st).freeCount = s.freeCount := rfl

/-! setIrqHold -/

@[simp] theorem State.setIrqHold_params (b : Bool) : (s.setIrqHold b).params = s.params := rfl
@[simp] theorem State.setIrqHold_regs (b : Bool) : (s.setIrqHold b).regs = s.regs := rfl
@[simp] theorem State.setIrqHold_pc (b : Bool) : (s.setIrqHold b).pc = s.pc := rfl
@[simp] theorem State.setIrqHold_flags (b : Bool) : (s.setIrqHold b).flags = s.flags := rfl
@[simp] theorem State.setIrqHold_rMod (b : Bool) : (s.setIrqHold b).rMod = s.rMod := rfl
@[simp] theorem State.setIrqHold_rMulHigh (b : Bool) : (s.setIrqHold b).rMulHigh = s.rMulHigh := rfl
@[simp] theorem State.setIrqHold_rDiv64 (b : Bool) : (s.setIrqHold b).rDiv64 = s.rDiv64 := rfl
@[simp] theorem State.setIrqHold_div64Prep (b : Bool) : (s.setIrqHold b).div64Prep = s.div64Prep := rfl
@[simp] theorem State.setIrqHold_rMemProt (b : Bool) : (s.setIrqHold b).rMemProt = s.rMemProt := rfl
@[simp] theorem State.setIrqHold_rLEA (b : Bool) : (s.setIrqHold b).rLEA = s.rLEA := rfl
@[simp] theorem State.setIrqHold_ie (b : Bool) : (s.setIrqHold b).ie = s.ie := rfl
@[simp] theorem State.setIrqHold_isa (b : Bool) : (s.setIrqHold b).isa = s.isa := rfl
@[simp] theorem State.setIrqHold_pend (b : Bool) : (s.setIrqHold b).pend = s.pend := rfl
@[simp] theorem State.setIrqHold_ilevel (b : Bool) : (s.setIrqHold b).ilevel = s.ilevel := rfl
@[simp] theorem State.setIrqHold_istack (b : Bool) : (s.setIrqHold b).istack = s.istack := rfl
@[simp] theorem State.setIrqHold_irqHold (b : Bool) : (s.setIrqHold b).irqHold = b := rfl
@[simp] theorem State.setIrqHold_bootActive (b : Bool) : (s.setIrqHold b).bootActive = s.bootActive := rfl
@[simp] theorem State.setIrqHold_asleep (b : Bool) : (s.setIrqHold b).asleep = s.asleep := rfl
@[simp] theorem State.setIrqHold_mem (b : Bool) : (s.setIrqHold b).mem = s.mem := rfl
@[simp] theorem State.setIrqHold_prog (b : Bool) : (s.setIrqHold b).prog = s.prog := rfl
@[simp] theorem State.setIrqHold_codeStores (b : Bool) : (s.setIrqHold b).codeStores = s.codeStores := rfl
@[simp] theorem State.setIrqHold_schedule (b : Bool) : (s.setIrqHold b).schedule = s.schedule := rfl
@[simp] theorem State.setIrqHold_portAnswers (b : Bool) : (s.setIrqHold b).portAnswers = s.portAnswers := rfl
@[simp] theorem State.setIrqHold_portTrace (b : Bool) : (s.setIrqHold b).portTrace = s.portTrace := rfl
@[simp] theorem State.setIrqHold_freeCount (b : Bool) : (s.setIrqHold b).freeCount = s.freeCount := rfl

/-! setBootActive -/

@[simp] theorem State.setBootActive_params (b : Bool) : (s.setBootActive b).params = s.params := rfl
@[simp] theorem State.setBootActive_regs (b : Bool) : (s.setBootActive b).regs = s.regs := rfl
@[simp] theorem State.setBootActive_pc (b : Bool) : (s.setBootActive b).pc = s.pc := rfl
@[simp] theorem State.setBootActive_flags (b : Bool) : (s.setBootActive b).flags = s.flags := rfl
@[simp] theorem State.setBootActive_rMod (b : Bool) : (s.setBootActive b).rMod = s.rMod := rfl
@[simp] theorem State.setBootActive_rMulHigh (b : Bool) : (s.setBootActive b).rMulHigh = s.rMulHigh := rfl
@[simp] theorem State.setBootActive_rDiv64 (b : Bool) : (s.setBootActive b).rDiv64 = s.rDiv64 := rfl
@[simp] theorem State.setBootActive_div64Prep (b : Bool) : (s.setBootActive b).div64Prep = s.div64Prep := rfl
@[simp] theorem State.setBootActive_rMemProt (b : Bool) : (s.setBootActive b).rMemProt = s.rMemProt := rfl
@[simp] theorem State.setBootActive_rLEA (b : Bool) : (s.setBootActive b).rLEA = s.rLEA := rfl
@[simp] theorem State.setBootActive_ie (b : Bool) : (s.setBootActive b).ie = s.ie := rfl
@[simp] theorem State.setBootActive_isa (b : Bool) : (s.setBootActive b).isa = s.isa := rfl
@[simp] theorem State.setBootActive_pend (b : Bool) : (s.setBootActive b).pend = s.pend := rfl
@[simp] theorem State.setBootActive_ilevel (b : Bool) : (s.setBootActive b).ilevel = s.ilevel := rfl
@[simp] theorem State.setBootActive_istack (b : Bool) : (s.setBootActive b).istack = s.istack := rfl
@[simp] theorem State.setBootActive_irqHold (b : Bool) : (s.setBootActive b).irqHold = s.irqHold := rfl
@[simp] theorem State.setBootActive_bootActive (b : Bool) : (s.setBootActive b).bootActive = b := rfl
@[simp] theorem State.setBootActive_asleep (b : Bool) : (s.setBootActive b).asleep = s.asleep := rfl
@[simp] theorem State.setBootActive_mem (b : Bool) : (s.setBootActive b).mem = s.mem := rfl
@[simp] theorem State.setBootActive_prog (b : Bool) : (s.setBootActive b).prog = s.prog := rfl
@[simp] theorem State.setBootActive_codeStores (b : Bool) : (s.setBootActive b).codeStores = s.codeStores := rfl
@[simp] theorem State.setBootActive_schedule (b : Bool) : (s.setBootActive b).schedule = s.schedule := rfl
@[simp] theorem State.setBootActive_portAnswers (b : Bool) : (s.setBootActive b).portAnswers = s.portAnswers := rfl
@[simp] theorem State.setBootActive_portTrace (b : Bool) : (s.setBootActive b).portTrace = s.portTrace := rfl
@[simp] theorem State.setBootActive_freeCount (b : Bool) : (s.setBootActive b).freeCount = s.freeCount := rfl

/-! setAsleep -/

@[simp] theorem State.setAsleep_params (b : Bool) : (s.setAsleep b).params = s.params := rfl
@[simp] theorem State.setAsleep_regs (b : Bool) : (s.setAsleep b).regs = s.regs := rfl
@[simp] theorem State.setAsleep_pc (b : Bool) : (s.setAsleep b).pc = s.pc := rfl
@[simp] theorem State.setAsleep_flags (b : Bool) : (s.setAsleep b).flags = s.flags := rfl
@[simp] theorem State.setAsleep_rMod (b : Bool) : (s.setAsleep b).rMod = s.rMod := rfl
@[simp] theorem State.setAsleep_rMulHigh (b : Bool) : (s.setAsleep b).rMulHigh = s.rMulHigh := rfl
@[simp] theorem State.setAsleep_rDiv64 (b : Bool) : (s.setAsleep b).rDiv64 = s.rDiv64 := rfl
@[simp] theorem State.setAsleep_div64Prep (b : Bool) : (s.setAsleep b).div64Prep = s.div64Prep := rfl
@[simp] theorem State.setAsleep_rMemProt (b : Bool) : (s.setAsleep b).rMemProt = s.rMemProt := rfl
@[simp] theorem State.setAsleep_rLEA (b : Bool) : (s.setAsleep b).rLEA = s.rLEA := rfl
@[simp] theorem State.setAsleep_ie (b : Bool) : (s.setAsleep b).ie = s.ie := rfl
@[simp] theorem State.setAsleep_isa (b : Bool) : (s.setAsleep b).isa = s.isa := rfl
@[simp] theorem State.setAsleep_pend (b : Bool) : (s.setAsleep b).pend = s.pend := rfl
@[simp] theorem State.setAsleep_ilevel (b : Bool) : (s.setAsleep b).ilevel = s.ilevel := rfl
@[simp] theorem State.setAsleep_istack (b : Bool) : (s.setAsleep b).istack = s.istack := rfl
@[simp] theorem State.setAsleep_irqHold (b : Bool) : (s.setAsleep b).irqHold = s.irqHold := rfl
@[simp] theorem State.setAsleep_bootActive (b : Bool) : (s.setAsleep b).bootActive = s.bootActive := rfl
@[simp] theorem State.setAsleep_asleep (b : Bool) : (s.setAsleep b).asleep = b := rfl
@[simp] theorem State.setAsleep_mem (b : Bool) : (s.setAsleep b).mem = s.mem := rfl
@[simp] theorem State.setAsleep_prog (b : Bool) : (s.setAsleep b).prog = s.prog := rfl
@[simp] theorem State.setAsleep_codeStores (b : Bool) : (s.setAsleep b).codeStores = s.codeStores := rfl
@[simp] theorem State.setAsleep_schedule (b : Bool) : (s.setAsleep b).schedule = s.schedule := rfl
@[simp] theorem State.setAsleep_portAnswers (b : Bool) : (s.setAsleep b).portAnswers = s.portAnswers := rfl
@[simp] theorem State.setAsleep_portTrace (b : Bool) : (s.setAsleep b).portTrace = s.portTrace := rfl
@[simp] theorem State.setAsleep_freeCount (b : Bool) : (s.setAsleep b).freeCount = s.freeCount := rfl

/-! setMem -/

@[simp] theorem State.setMem_params (m : Memory) : (s.setMem m).params = s.params := rfl
@[simp] theorem State.setMem_regs (m : Memory) : (s.setMem m).regs = s.regs := rfl
@[simp] theorem State.setMem_pc (m : Memory) : (s.setMem m).pc = s.pc := rfl
@[simp] theorem State.setMem_flags (m : Memory) : (s.setMem m).flags = s.flags := rfl
@[simp] theorem State.setMem_rMod (m : Memory) : (s.setMem m).rMod = s.rMod := rfl
@[simp] theorem State.setMem_rMulHigh (m : Memory) : (s.setMem m).rMulHigh = s.rMulHigh := rfl
@[simp] theorem State.setMem_rDiv64 (m : Memory) : (s.setMem m).rDiv64 = s.rDiv64 := rfl
@[simp] theorem State.setMem_div64Prep (m : Memory) : (s.setMem m).div64Prep = s.div64Prep := rfl
@[simp] theorem State.setMem_rMemProt (m : Memory) : (s.setMem m).rMemProt = s.rMemProt := rfl
@[simp] theorem State.setMem_rLEA (m : Memory) : (s.setMem m).rLEA = s.rLEA := rfl
@[simp] theorem State.setMem_ie (m : Memory) : (s.setMem m).ie = s.ie := rfl
@[simp] theorem State.setMem_isa (m : Memory) : (s.setMem m).isa = s.isa := rfl
@[simp] theorem State.setMem_pend (m : Memory) : (s.setMem m).pend = s.pend := rfl
@[simp] theorem State.setMem_ilevel (m : Memory) : (s.setMem m).ilevel = s.ilevel := rfl
@[simp] theorem State.setMem_istack (m : Memory) : (s.setMem m).istack = s.istack := rfl
@[simp] theorem State.setMem_irqHold (m : Memory) : (s.setMem m).irqHold = s.irqHold := rfl
@[simp] theorem State.setMem_bootActive (m : Memory) : (s.setMem m).bootActive = s.bootActive := rfl
@[simp] theorem State.setMem_asleep (m : Memory) : (s.setMem m).asleep = s.asleep := rfl
@[simp] theorem State.setMem_mem (m : Memory) : (s.setMem m).mem = m := rfl
@[simp] theorem State.setMem_prog (m : Memory) : (s.setMem m).prog = s.prog := rfl
@[simp] theorem State.setMem_codeStores (m : Memory) : (s.setMem m).codeStores = s.codeStores := rfl
@[simp] theorem State.setMem_schedule (m : Memory) : (s.setMem m).schedule = s.schedule := rfl
@[simp] theorem State.setMem_portAnswers (m : Memory) : (s.setMem m).portAnswers = s.portAnswers := rfl
@[simp] theorem State.setMem_portTrace (m : Memory) : (s.setMem m).portTrace = s.portTrace := rfl
@[simp] theorem State.setMem_freeCount (m : Memory) : (s.setMem m).freeCount = s.freeCount := rfl

/-! setProg -/

@[simp] theorem State.setProg_params (m : Memory) : (s.setProg m).params = s.params := rfl
@[simp] theorem State.setProg_regs (m : Memory) : (s.setProg m).regs = s.regs := rfl
@[simp] theorem State.setProg_pc (m : Memory) : (s.setProg m).pc = s.pc := rfl
@[simp] theorem State.setProg_flags (m : Memory) : (s.setProg m).flags = s.flags := rfl
@[simp] theorem State.setProg_rMod (m : Memory) : (s.setProg m).rMod = s.rMod := rfl
@[simp] theorem State.setProg_rMulHigh (m : Memory) : (s.setProg m).rMulHigh = s.rMulHigh := rfl
@[simp] theorem State.setProg_rDiv64 (m : Memory) : (s.setProg m).rDiv64 = s.rDiv64 := rfl
@[simp] theorem State.setProg_div64Prep (m : Memory) : (s.setProg m).div64Prep = s.div64Prep := rfl
@[simp] theorem State.setProg_rMemProt (m : Memory) : (s.setProg m).rMemProt = s.rMemProt := rfl
@[simp] theorem State.setProg_rLEA (m : Memory) : (s.setProg m).rLEA = s.rLEA := rfl
@[simp] theorem State.setProg_ie (m : Memory) : (s.setProg m).ie = s.ie := rfl
@[simp] theorem State.setProg_isa (m : Memory) : (s.setProg m).isa = s.isa := rfl
@[simp] theorem State.setProg_pend (m : Memory) : (s.setProg m).pend = s.pend := rfl
@[simp] theorem State.setProg_ilevel (m : Memory) : (s.setProg m).ilevel = s.ilevel := rfl
@[simp] theorem State.setProg_istack (m : Memory) : (s.setProg m).istack = s.istack := rfl
@[simp] theorem State.setProg_irqHold (m : Memory) : (s.setProg m).irqHold = s.irqHold := rfl
@[simp] theorem State.setProg_bootActive (m : Memory) : (s.setProg m).bootActive = s.bootActive := rfl
@[simp] theorem State.setProg_asleep (m : Memory) : (s.setProg m).asleep = s.asleep := rfl
@[simp] theorem State.setProg_mem (m : Memory) : (s.setProg m).mem = s.mem := rfl
@[simp] theorem State.setProg_prog (m : Memory) : (s.setProg m).prog = m := rfl
@[simp] theorem State.setProg_codeStores (m : Memory) : (s.setProg m).codeStores = s.codeStores := rfl
@[simp] theorem State.setProg_schedule (m : Memory) : (s.setProg m).schedule = s.schedule := rfl
@[simp] theorem State.setProg_portAnswers (m : Memory) : (s.setProg m).portAnswers = s.portAnswers := rfl
@[simp] theorem State.setProg_portTrace (m : Memory) : (s.setProg m).portTrace = s.portTrace := rfl
@[simp] theorem State.setProg_freeCount (m : Memory) : (s.setProg m).freeCount = s.freeCount := rfl

/-! setCodeStores -/

@[simp] theorem State.setCodeStores_params (l : List Word) : (s.setCodeStores l).params = s.params := rfl
@[simp] theorem State.setCodeStores_regs (l : List Word) : (s.setCodeStores l).regs = s.regs := rfl
@[simp] theorem State.setCodeStores_pc (l : List Word) : (s.setCodeStores l).pc = s.pc := rfl
@[simp] theorem State.setCodeStores_flags (l : List Word) : (s.setCodeStores l).flags = s.flags := rfl
@[simp] theorem State.setCodeStores_rMod (l : List Word) : (s.setCodeStores l).rMod = s.rMod := rfl
@[simp] theorem State.setCodeStores_rMulHigh (l : List Word) : (s.setCodeStores l).rMulHigh = s.rMulHigh := rfl
@[simp] theorem State.setCodeStores_rDiv64 (l : List Word) : (s.setCodeStores l).rDiv64 = s.rDiv64 := rfl
@[simp] theorem State.setCodeStores_div64Prep (l : List Word) : (s.setCodeStores l).div64Prep = s.div64Prep := rfl
@[simp] theorem State.setCodeStores_rMemProt (l : List Word) : (s.setCodeStores l).rMemProt = s.rMemProt := rfl
@[simp] theorem State.setCodeStores_rLEA (l : List Word) : (s.setCodeStores l).rLEA = s.rLEA := rfl
@[simp] theorem State.setCodeStores_ie (l : List Word) : (s.setCodeStores l).ie = s.ie := rfl
@[simp] theorem State.setCodeStores_isa (l : List Word) : (s.setCodeStores l).isa = s.isa := rfl
@[simp] theorem State.setCodeStores_pend (l : List Word) : (s.setCodeStores l).pend = s.pend := rfl
@[simp] theorem State.setCodeStores_ilevel (l : List Word) : (s.setCodeStores l).ilevel = s.ilevel := rfl
@[simp] theorem State.setCodeStores_istack (l : List Word) : (s.setCodeStores l).istack = s.istack := rfl
@[simp] theorem State.setCodeStores_irqHold (l : List Word) : (s.setCodeStores l).irqHold = s.irqHold := rfl
@[simp] theorem State.setCodeStores_bootActive (l : List Word) : (s.setCodeStores l).bootActive = s.bootActive := rfl
@[simp] theorem State.setCodeStores_asleep (l : List Word) : (s.setCodeStores l).asleep = s.asleep := rfl
@[simp] theorem State.setCodeStores_mem (l : List Word) : (s.setCodeStores l).mem = s.mem := rfl
@[simp] theorem State.setCodeStores_prog (l : List Word) : (s.setCodeStores l).prog = s.prog := rfl
@[simp] theorem State.setCodeStores_codeStores (l : List Word) : (s.setCodeStores l).codeStores = l := rfl
@[simp] theorem State.setCodeStores_schedule (l : List Word) : (s.setCodeStores l).schedule = s.schedule := rfl
@[simp] theorem State.setCodeStores_portAnswers (l : List Word) : (s.setCodeStores l).portAnswers = s.portAnswers := rfl
@[simp] theorem State.setCodeStores_portTrace (l : List Word) : (s.setCodeStores l).portTrace = s.portTrace := rfl
@[simp] theorem State.setCodeStores_freeCount (l : List Word) : (s.setCodeStores l).freeCount = s.freeCount := rfl

/-! setSchedule -/

@[simp] theorem State.setSchedule_params (l : List EnvSlot) : (s.setSchedule l).params = s.params := rfl
@[simp] theorem State.setSchedule_regs (l : List EnvSlot) : (s.setSchedule l).regs = s.regs := rfl
@[simp] theorem State.setSchedule_pc (l : List EnvSlot) : (s.setSchedule l).pc = s.pc := rfl
@[simp] theorem State.setSchedule_flags (l : List EnvSlot) : (s.setSchedule l).flags = s.flags := rfl
@[simp] theorem State.setSchedule_rMod (l : List EnvSlot) : (s.setSchedule l).rMod = s.rMod := rfl
@[simp] theorem State.setSchedule_rMulHigh (l : List EnvSlot) : (s.setSchedule l).rMulHigh = s.rMulHigh := rfl
@[simp] theorem State.setSchedule_rDiv64 (l : List EnvSlot) : (s.setSchedule l).rDiv64 = s.rDiv64 := rfl
@[simp] theorem State.setSchedule_div64Prep (l : List EnvSlot) : (s.setSchedule l).div64Prep = s.div64Prep := rfl
@[simp] theorem State.setSchedule_rMemProt (l : List EnvSlot) : (s.setSchedule l).rMemProt = s.rMemProt := rfl
@[simp] theorem State.setSchedule_rLEA (l : List EnvSlot) : (s.setSchedule l).rLEA = s.rLEA := rfl
@[simp] theorem State.setSchedule_ie (l : List EnvSlot) : (s.setSchedule l).ie = s.ie := rfl
@[simp] theorem State.setSchedule_isa (l : List EnvSlot) : (s.setSchedule l).isa = s.isa := rfl
@[simp] theorem State.setSchedule_pend (l : List EnvSlot) : (s.setSchedule l).pend = s.pend := rfl
@[simp] theorem State.setSchedule_ilevel (l : List EnvSlot) : (s.setSchedule l).ilevel = s.ilevel := rfl
@[simp] theorem State.setSchedule_istack (l : List EnvSlot) : (s.setSchedule l).istack = s.istack := rfl
@[simp] theorem State.setSchedule_irqHold (l : List EnvSlot) : (s.setSchedule l).irqHold = s.irqHold := rfl
@[simp] theorem State.setSchedule_bootActive (l : List EnvSlot) : (s.setSchedule l).bootActive = s.bootActive := rfl
@[simp] theorem State.setSchedule_asleep (l : List EnvSlot) : (s.setSchedule l).asleep = s.asleep := rfl
@[simp] theorem State.setSchedule_mem (l : List EnvSlot) : (s.setSchedule l).mem = s.mem := rfl
@[simp] theorem State.setSchedule_prog (l : List EnvSlot) : (s.setSchedule l).prog = s.prog := rfl
@[simp] theorem State.setSchedule_codeStores (l : List EnvSlot) : (s.setSchedule l).codeStores = s.codeStores := rfl
@[simp] theorem State.setSchedule_schedule (l : List EnvSlot) : (s.setSchedule l).schedule = l := rfl
@[simp] theorem State.setSchedule_portAnswers (l : List EnvSlot) : (s.setSchedule l).portAnswers = s.portAnswers := rfl
@[simp] theorem State.setSchedule_portTrace (l : List EnvSlot) : (s.setSchedule l).portTrace = s.portTrace := rfl
@[simp] theorem State.setSchedule_freeCount (l : List EnvSlot) : (s.setSchedule l).freeCount = s.freeCount := rfl

/-! setAnswers -/

@[simp] theorem State.setAnswers_params (l : List Word) : (s.setAnswers l).params = s.params := rfl
@[simp] theorem State.setAnswers_regs (l : List Word) : (s.setAnswers l).regs = s.regs := rfl
@[simp] theorem State.setAnswers_pc (l : List Word) : (s.setAnswers l).pc = s.pc := rfl
@[simp] theorem State.setAnswers_flags (l : List Word) : (s.setAnswers l).flags = s.flags := rfl
@[simp] theorem State.setAnswers_rMod (l : List Word) : (s.setAnswers l).rMod = s.rMod := rfl
@[simp] theorem State.setAnswers_rMulHigh (l : List Word) : (s.setAnswers l).rMulHigh = s.rMulHigh := rfl
@[simp] theorem State.setAnswers_rDiv64 (l : List Word) : (s.setAnswers l).rDiv64 = s.rDiv64 := rfl
@[simp] theorem State.setAnswers_div64Prep (l : List Word) : (s.setAnswers l).div64Prep = s.div64Prep := rfl
@[simp] theorem State.setAnswers_rMemProt (l : List Word) : (s.setAnswers l).rMemProt = s.rMemProt := rfl
@[simp] theorem State.setAnswers_rLEA (l : List Word) : (s.setAnswers l).rLEA = s.rLEA := rfl
@[simp] theorem State.setAnswers_ie (l : List Word) : (s.setAnswers l).ie = s.ie := rfl
@[simp] theorem State.setAnswers_isa (l : List Word) : (s.setAnswers l).isa = s.isa := rfl
@[simp] theorem State.setAnswers_pend (l : List Word) : (s.setAnswers l).pend = s.pend := rfl
@[simp] theorem State.setAnswers_ilevel (l : List Word) : (s.setAnswers l).ilevel = s.ilevel := rfl
@[simp] theorem State.setAnswers_istack (l : List Word) : (s.setAnswers l).istack = s.istack := rfl
@[simp] theorem State.setAnswers_irqHold (l : List Word) : (s.setAnswers l).irqHold = s.irqHold := rfl
@[simp] theorem State.setAnswers_bootActive (l : List Word) : (s.setAnswers l).bootActive = s.bootActive := rfl
@[simp] theorem State.setAnswers_asleep (l : List Word) : (s.setAnswers l).asleep = s.asleep := rfl
@[simp] theorem State.setAnswers_mem (l : List Word) : (s.setAnswers l).mem = s.mem := rfl
@[simp] theorem State.setAnswers_prog (l : List Word) : (s.setAnswers l).prog = s.prog := rfl
@[simp] theorem State.setAnswers_codeStores (l : List Word) : (s.setAnswers l).codeStores = s.codeStores := rfl
@[simp] theorem State.setAnswers_schedule (l : List Word) : (s.setAnswers l).schedule = s.schedule := rfl
@[simp] theorem State.setAnswers_portAnswers (l : List Word) : (s.setAnswers l).portAnswers = l := rfl
@[simp] theorem State.setAnswers_portTrace (l : List Word) : (s.setAnswers l).portTrace = s.portTrace := rfl
@[simp] theorem State.setAnswers_freeCount (l : List Word) : (s.setAnswers l).freeCount = s.freeCount := rfl

/-! setTrace -/

@[simp] theorem State.setTrace_params (l : List PortAccess) : (s.setTrace l).params = s.params := rfl
@[simp] theorem State.setTrace_regs (l : List PortAccess) : (s.setTrace l).regs = s.regs := rfl
@[simp] theorem State.setTrace_pc (l : List PortAccess) : (s.setTrace l).pc = s.pc := rfl
@[simp] theorem State.setTrace_flags (l : List PortAccess) : (s.setTrace l).flags = s.flags := rfl
@[simp] theorem State.setTrace_rMod (l : List PortAccess) : (s.setTrace l).rMod = s.rMod := rfl
@[simp] theorem State.setTrace_rMulHigh (l : List PortAccess) : (s.setTrace l).rMulHigh = s.rMulHigh := rfl
@[simp] theorem State.setTrace_rDiv64 (l : List PortAccess) : (s.setTrace l).rDiv64 = s.rDiv64 := rfl
@[simp] theorem State.setTrace_div64Prep (l : List PortAccess) : (s.setTrace l).div64Prep = s.div64Prep := rfl
@[simp] theorem State.setTrace_rMemProt (l : List PortAccess) : (s.setTrace l).rMemProt = s.rMemProt := rfl
@[simp] theorem State.setTrace_rLEA (l : List PortAccess) : (s.setTrace l).rLEA = s.rLEA := rfl
@[simp] theorem State.setTrace_ie (l : List PortAccess) : (s.setTrace l).ie = s.ie := rfl
@[simp] theorem State.setTrace_isa (l : List PortAccess) : (s.setTrace l).isa = s.isa := rfl
@[simp] theorem State.setTrace_pend (l : List PortAccess) : (s.setTrace l).pend = s.pend := rfl
@[simp] theorem State.setTrace_ilevel (l : List PortAccess) : (s.setTrace l).ilevel = s.ilevel := rfl
@[simp] theorem State.setTrace_istack (l : List PortAccess) : (s.setTrace l).istack = s.istack := rfl
@[simp] theorem State.setTrace_irqHold (l : List PortAccess) : (s.setTrace l).irqHold = s.irqHold := rfl
@[simp] theorem State.setTrace_bootActive (l : List PortAccess) : (s.setTrace l).bootActive = s.bootActive := rfl
@[simp] theorem State.setTrace_asleep (l : List PortAccess) : (s.setTrace l).asleep = s.asleep := rfl
@[simp] theorem State.setTrace_mem (l : List PortAccess) : (s.setTrace l).mem = s.mem := rfl
@[simp] theorem State.setTrace_prog (l : List PortAccess) : (s.setTrace l).prog = s.prog := rfl
@[simp] theorem State.setTrace_codeStores (l : List PortAccess) : (s.setTrace l).codeStores = s.codeStores := rfl
@[simp] theorem State.setTrace_schedule (l : List PortAccess) : (s.setTrace l).schedule = s.schedule := rfl
@[simp] theorem State.setTrace_portAnswers (l : List PortAccess) : (s.setTrace l).portAnswers = s.portAnswers := rfl
@[simp] theorem State.setTrace_portTrace (l : List PortAccess) : (s.setTrace l).portTrace = l := rfl
@[simp] theorem State.setTrace_freeCount (l : List PortAccess) : (s.setTrace l).freeCount = s.freeCount := rfl

/-! setFreeCount -/

@[simp] theorem State.setFreeCount_params (n : Nat) : (s.setFreeCount n).params = s.params := rfl
@[simp] theorem State.setFreeCount_regs (n : Nat) : (s.setFreeCount n).regs = s.regs := rfl
@[simp] theorem State.setFreeCount_pc (n : Nat) : (s.setFreeCount n).pc = s.pc := rfl
@[simp] theorem State.setFreeCount_flags (n : Nat) : (s.setFreeCount n).flags = s.flags := rfl
@[simp] theorem State.setFreeCount_rMod (n : Nat) : (s.setFreeCount n).rMod = s.rMod := rfl
@[simp] theorem State.setFreeCount_rMulHigh (n : Nat) : (s.setFreeCount n).rMulHigh = s.rMulHigh := rfl
@[simp] theorem State.setFreeCount_rDiv64 (n : Nat) : (s.setFreeCount n).rDiv64 = s.rDiv64 := rfl
@[simp] theorem State.setFreeCount_div64Prep (n : Nat) : (s.setFreeCount n).div64Prep = s.div64Prep := rfl
@[simp] theorem State.setFreeCount_rMemProt (n : Nat) : (s.setFreeCount n).rMemProt = s.rMemProt := rfl
@[simp] theorem State.setFreeCount_rLEA (n : Nat) : (s.setFreeCount n).rLEA = s.rLEA := rfl
@[simp] theorem State.setFreeCount_ie (n : Nat) : (s.setFreeCount n).ie = s.ie := rfl
@[simp] theorem State.setFreeCount_isa (n : Nat) : (s.setFreeCount n).isa = s.isa := rfl
@[simp] theorem State.setFreeCount_pend (n : Nat) : (s.setFreeCount n).pend = s.pend := rfl
@[simp] theorem State.setFreeCount_ilevel (n : Nat) : (s.setFreeCount n).ilevel = s.ilevel := rfl
@[simp] theorem State.setFreeCount_istack (n : Nat) : (s.setFreeCount n).istack = s.istack := rfl
@[simp] theorem State.setFreeCount_irqHold (n : Nat) : (s.setFreeCount n).irqHold = s.irqHold := rfl
@[simp] theorem State.setFreeCount_bootActive (n : Nat) : (s.setFreeCount n).bootActive = s.bootActive := rfl
@[simp] theorem State.setFreeCount_asleep (n : Nat) : (s.setFreeCount n).asleep = s.asleep := rfl
@[simp] theorem State.setFreeCount_mem (n : Nat) : (s.setFreeCount n).mem = s.mem := rfl
@[simp] theorem State.setFreeCount_prog (n : Nat) : (s.setFreeCount n).prog = s.prog := rfl
@[simp] theorem State.setFreeCount_codeStores (n : Nat) : (s.setFreeCount n).codeStores = s.codeStores := rfl
@[simp] theorem State.setFreeCount_schedule (n : Nat) : (s.setFreeCount n).schedule = s.schedule := rfl
@[simp] theorem State.setFreeCount_portAnswers (n : Nat) : (s.setFreeCount n).portAnswers = s.portAnswers := rfl
@[simp] theorem State.setFreeCount_portTrace (n : Nat) : (s.setFreeCount n).portTrace = s.portTrace := rfl
@[simp] theorem State.setFreeCount_freeCount (n : Nat) : (s.setFreeCount n).freeCount = n := rfl

/-! resetWith, launch and reset -/

variable (p : Config.Params) (code image : Memory)

@[simp] theorem State.resetWith_params : (State.resetWith p).params = p := rfl
@[simp] theorem State.resetWith_regs : (State.resetWith p).regs = Vector.replicate 15 0 := rfl
@[simp] theorem State.resetWith_pc : (State.resetWith p).pc = p.resetPc := rfl
@[simp] theorem State.resetWith_flags : (State.resetWith p).flags = { ovMul := false, ovShift := false, ovUns := false, ovSgn := false } := rfl
@[simp] theorem State.resetWith_rMod : (State.resetWith p).rMod = 0 := rfl
@[simp] theorem State.resetWith_rMulHigh : (State.resetWith p).rMulHigh = 0 := rfl
@[simp] theorem State.resetWith_rDiv64 : (State.resetWith p).rDiv64 = 0 := rfl
@[simp] theorem State.resetWith_div64Prep : (State.resetWith p).div64Prep = p.resetDiv64Prep := rfl
@[simp] theorem State.resetWith_rMemProt : (State.resetWith p).rMemProt = 0 := rfl
@[simp] theorem State.resetWith_rLEA : (State.resetWith p).rLEA = 0 := rfl
@[simp] theorem State.resetWith_ie : (State.resetWith p).ie = false := rfl
@[simp] theorem State.resetWith_isa : (State.resetWith p).isa = Vector.replicate 15 0 := rfl
@[simp] theorem State.resetWith_pend : (State.resetWith p).pend = Vector.replicate 15 false := rfl
@[simp] theorem State.resetWith_ilevel : (State.resetWith p).ilevel = 0 := rfl
@[simp] theorem State.resetWith_istack : (State.resetWith p).istack = [] := rfl
@[simp] theorem State.resetWith_irqHold : (State.resetWith p).irqHold = false := rfl
@[simp] theorem State.resetWith_bootActive : (State.resetWith p).bootActive = true := rfl
@[simp] theorem State.resetWith_asleep : (State.resetWith p).asleep = false := rfl
@[simp] theorem State.resetWith_mem : (State.resetWith p).mem = [] := rfl
@[simp] theorem State.resetWith_prog : (State.resetWith p).prog = [] := rfl
@[simp] theorem State.resetWith_codeStores : (State.resetWith p).codeStores = [] := rfl
@[simp] theorem State.resetWith_schedule : (State.resetWith p).schedule = [] := rfl
@[simp] theorem State.resetWith_portAnswers : (State.resetWith p).portAnswers = [] := rfl
@[simp] theorem State.resetWith_portTrace : (State.resetWith p).portTrace = [] := rfl
@[simp] theorem State.resetWith_freeCount : (State.resetWith p).freeCount = 0 := rfl

@[simp] theorem State.launch_params : (State.launch p code image).params = p := rfl
@[simp] theorem State.launch_regs : (State.launch p code image).regs = Vector.replicate 15 0 := rfl
@[simp] theorem State.launch_pc : (State.launch p code image).pc = p.resetPc := rfl
@[simp] theorem State.launch_flags : (State.launch p code image).flags = { ovMul := false, ovShift := false, ovUns := false, ovSgn := false } := rfl
@[simp] theorem State.launch_rMod : (State.launch p code image).rMod = 0 := rfl
@[simp] theorem State.launch_rMulHigh : (State.launch p code image).rMulHigh = 0 := rfl
@[simp] theorem State.launch_rDiv64 : (State.launch p code image).rDiv64 = 0 := rfl
@[simp] theorem State.launch_div64Prep : (State.launch p code image).div64Prep = p.resetDiv64Prep := rfl
@[simp] theorem State.launch_rMemProt : (State.launch p code image).rMemProt = 0 := rfl
@[simp] theorem State.launch_rLEA : (State.launch p code image).rLEA = 0 := rfl
@[simp] theorem State.launch_ie : (State.launch p code image).ie = false := rfl
@[simp] theorem State.launch_isa : (State.launch p code image).isa = Vector.replicate 15 0 := rfl
@[simp] theorem State.launch_pend : (State.launch p code image).pend = Vector.replicate 15 false := rfl
@[simp] theorem State.launch_ilevel : (State.launch p code image).ilevel = 0 := rfl
@[simp] theorem State.launch_istack : (State.launch p code image).istack = [] := rfl
@[simp] theorem State.launch_irqHold : (State.launch p code image).irqHold = false := rfl
@[simp] theorem State.launch_bootActive : (State.launch p code image).bootActive = true := rfl
@[simp] theorem State.launch_asleep : (State.launch p code image).asleep = false := rfl
@[simp] theorem State.launch_mem : (State.launch p code image).mem = image := rfl
@[simp] theorem State.launch_prog : (State.launch p code image).prog = code := rfl
@[simp] theorem State.launch_codeStores : (State.launch p code image).codeStores = [] := rfl
@[simp] theorem State.launch_schedule : (State.launch p code image).schedule = [] := rfl
@[simp] theorem State.launch_portAnswers : (State.launch p code image).portAnswers = [] := rfl
@[simp] theorem State.launch_portTrace : (State.launch p code image).portTrace = [] := rfl
@[simp] theorem State.launch_freeCount : (State.launch p code image).freeCount = 0 := rfl

@[simp] theorem State.launch_nothing : State.launch p [] [] = State.resetWith p := rfl
theorem State.reset_eq_resetWith : State.reset = State.resetWith Config.defaultParams := rfl

end Sys2Proof.Machine
end

