-- ==== Sys2Proof/Laws/Ops.lean ====
section
/-! SUPPORT. One lemma per shared operation that says what it can do, so that proofs cite it instead of unfolding it. -/

namespace Sys2Proof.Machine

variable (s : State)

/-! ### Extensions (00_scope.md R9) -/

theorem zext32_eq (k : Const) : zext32 k = k.setWidth 32 := by
  apply BitVec.eq_of_getLsbD_eq
  intro i hi
  have h : (zext32 k).getLsbD i = (0#16 ++ k : BitVec (16 + 16)).getLsbD i := rfl
  rw [h, BitVec.getLsbD_append, BitVec.getLsbD_setWidth]
  split
  · simp [hi]
  · simp [hi, BitVec.getLsbD_of_ge k i (by omega)]

theorem sext32_eq (k : Const) : sext32 k = k.signExtend 32 := by
  apply BitVec.eq_of_getLsbD_eq
  intro i hi
  have h : (sext32 k).getLsbD i = ((if k.getLsbD 15 then 0xFFFF#16 else 0#16) ++ k : BitVec (16 + 16)).getLsbD i := rfl
  have h15 : k.msb = k.getLsbD 15 := by simp [BitVec.msb_eq_getLsbD_last]
  rw [h, BitVec.getLsbD_append, BitVec.getLsbD_signExtend, h15]
  split
  · simp [hi]
  · have h16 : i - 16 < 16 := by omega
    have h1 : (0xFFFF#16).getLsbD (i - 16) = true := by
      have : 0xFFFF#16 = BitVec.allOnes 16 := rfl
      rw [this, BitVec.getLsbD_allOnes]
      simp [h16]
    cases hk : k.getLsbD 15 <;> simp [hi, h1]

/-! ### Registers and interrupt banks -/

@[simp] theorem State.reg_zero : s.reg 0 = 0 := rfl

theorem State.reg_setReg (w i : RegNum) (v : Word) :
    (s.setReg w v).reg i = if w = i ∧ w ≠ 0 then v else s.reg i := by
  simp [State.reg, Bank.get_set]

theorem State.reg_of_regs {s t : State} (h : t.regs = s.regs) (i : RegNum) : t.reg i = s.reg i := by
  simp [State.reg, h]

theorem State.isaAt_setIsa (i j : Nib) (v : Word) :
    (s.setIsa i v).isaAt j = if i = j ∧ i ≠ 0 then v else s.isaAt j := by
  simp [State.isaAt, Bank.get_set]

theorem State.pendAt_setPend (i j : Nib) (b : Bool) :
    (s.setPend i b).pendAt j = if i = j ∧ i ≠ 0 then b else s.pendAt j := by
  simp [State.pendAt, Bank.get_set]

theorem State.pendAt_of_pend {s t : State} (h : t.pend = s.pend) (i : Nib) : t.pendAt i = s.pendAt i := by
  simp [State.pendAt, h]

/-- A request that is stored stays stored when another is raised. -/
theorem pendAt_raise (i j : Nib) : (raise i s).pendAt j = if i = j ∧ i ≠ 0 then true else s.pendAt j :=
  State.pendAt_setPend s i j true

/-! ### Memory -/

/-- Everything a memory read can do: the word at a valid address and nothing else, or a free value with a request. -/
theorem memRead_cases (addr : Word) :
    (s.validAddr addr = true ∧ memRead addr s = (s.memWord addr, s)) ∨
      (s.validAddr addr = false ∧ memRead addr s =
        (Config.freeWord s.freeCount, (raise irqMemaddr s).setFreeCount (s.freeCount + 1))) := by
  unfold memRead
  cases h : s.validAddr addr
  · exact .inr ⟨rfl, rfl⟩
  · exact .inl ⟨rfl, rfl⟩

/-- What the record of stores into code holds after a store to addr. -/
theorem State.mem_codeStoresWith (addr a : Word) : a ∈ s.codeStoresWith addr ↔
    a ∈ s.codeStores ∨ ((s.prog.read addr.toNat).isSome = true ∧ a = addr) := by
  unfold State.codeStoresWith
  cases (s.prog.read addr.toNat).isSome <;> simp [or_comm]

/-- Everything a memory write can do: the word is stored, a store into code being recorded, or memory is as before and a
request is stored. -/
theorem memWrite_cases (addr v : Word) :
    (s.writable addr = true ∧ memWrite addr v s =
        (s.setMem (s.mem.write addr.toNat v)).setCodeStores (s.codeStoresWith addr)) ∨
      (s.writable addr = false ∧ memWrite addr v s = raise irqMemaddr s) := by
  unfold memWrite
  cases h : s.writable addr
  · exact .inr ⟨rfl, rfl⟩
  · exact .inl ⟨rfl, rfl⟩

/-- A block read changes registers, requests and the counter of free values, and nothing else. -/
theorem loadBlock_frame (ea : Word) (n : Nat) :
    ∃ r p c, loadBlock ea n s = { s with regs := r, pend := p, freeCount := c } := by
  induction n with
  | zero => exact ⟨s.regs, s.pend, s.freeCount, rfl⟩
  | succ n ih =>
    obtain ⟨r, p, c, h⟩ := ih
    simp only [loadBlock]
    rcases memRead_cases (loadBlock ea n s) (ea + BitVec.ofNat 32 n) with ⟨_, h2⟩ | ⟨_, h2⟩
    · rw [h2, h]; exact ⟨_, _, _, rfl⟩
    · rw [h2, h]; exact ⟨_, _, _, rfl⟩

/-- A block write changes memory, requests and the record of stores into code, and nothing else. -/
theorem storeBlock_frame (ea : Word) (n : Nat) :
    ∃ m p c, storeBlock ea n s = { s with mem := m, pend := p, codeStores := c } := by
  induction n with
  | zero => exact ⟨s.mem, s.pend, s.codeStores, rfl⟩
  | succ n ih =>
    obtain ⟨m, p, c, h⟩ := ih
    simp only [storeBlock]
    rcases memWrite_cases (storeBlock ea n s) (ea + BitVec.ofNat 32 n) (s.reg (Fin.ofNat 16 (n + 1)))
      with ⟨_, h2⟩ | ⟨_, h2⟩
    · rw [h2, h]; exact ⟨_, _, _, rfl⟩
    · rw [h2, h]; exact ⟨_, _, _, rfl⟩

/-- A block write keeps the canonical form of the memory. -/
theorem storeBlock_wf (ea : Word) (n : Nat) (h : s.mem.wf = true) : (storeBlock ea n s).mem.wf = true := by
  induction n with
  | zero => exact h
  | succ n ih =>
    simp only [storeBlock]
    rcases memWrite_cases (storeBlock ea n s) (ea + BitVec.ofNat 32 n) (s.reg (Fin.ofNat 16 (n + 1)))
      with ⟨_, h2⟩ | ⟨_, h2⟩
    · rw [h2]; exact Memory.write_wf ih
    · rw [h2]; exact ih

/-! ### Ports -/

/-- Everything a port read can do: the next listed answer, a free value where none is listed, or, with no port, a free
value and a request. -/
theorem portRead_cases (p : Word) :
    (s.portExists p = true ∧ ∃ v rest, s.portAnswers = v :: rest ∧
        portRead p s = (v, (s.setAnswers rest).setTrace (.read p v :: s.portTrace))) ∨
      (s.portExists p = true ∧ s.portAnswers = [] ∧ portRead p s = (Config.freeWord s.freeCount,
        (s.setFreeCount (s.freeCount + 1)).setTrace (.read p (Config.freeWord s.freeCount) :: s.portTrace))) ∨
      (s.portExists p = false ∧ portRead p s =
        (Config.freeWord s.freeCount, (raise irqXaddr s).setFreeCount (s.freeCount + 1))) := by
  unfold portRead portAnswer
  cases h : s.portExists p
  · exact .inr (.inr ⟨rfl, rfl⟩)
  · cases h2 : s.portAnswers with
    | nil => exact .inr (.inl ⟨rfl, rfl, rfl⟩)
    | cons v rest => exact .inl ⟨rfl, v, rest, rfl, rfl⟩

/-- Everything a port write can do: the value is handed over, or a request is stored. -/
theorem portWrite_cases (p v : Word) :
    (s.portExists p = true ∧ portWrite p v s = s.setTrace (.write p v :: s.portTrace)) ∨
      (s.portExists p = false ∧ portWrite p v s = raise irqXaddr s) := by
  unfold portWrite
  cases h : s.portExists p
  · exact .inr ⟨rfl, rfl⟩
  · exact .inl ⟨rfl, rfl⟩

/-! ### Jumps and interrupts -/

/-- Everything a jump does. -/
theorem jumpTo_eq (t : Word) : jumpTo t s =
    { s with pend := if illegalTarget t then Bank.set s.pend 15 true else s.pend, pc := t, irqHold := false } := by
  unfold jumpTo
  cases illegalTarget t <;> rfl

/-- Everything taking an interrupt does. -/
theorem takeInterrupt_eq (i : Nib) : takeInterrupt i s =
    { s with ilevel := i, istack := { ret := s.pc, level := s.ilevel } :: s.istack, pend := Bank.set s.pend i false,
             pc := s.isaAt i, irqHold := false } := rfl

/-- Everything a return from interrupt can do. -/
theorem returnFromInterrupt_cases :
    (s.istack = [] ∧ returnFromInterrupt s = .refused .returnOutsideRoutine) ∨
      (∃ f rest, s.istack = f :: rest ∧ returnFromInterrupt s =
        .next { s with ilevel := f.level, istack := rest, pc := f.ret, irqHold := false }) := by
  unfold returnFromInterrupt
  cases h : s.istack with
  | nil => exact .inl ⟨rfl, rfl⟩
  | cons f rest => exact .inr ⟨f, rest, rfl, rfl⟩

/-- Everything a component's request does. -/
theorem envRequest_eq (p : Peripheral) : envRequest p s =
    { s with pend := Bank.set s.pend p.irq true, asleep := false, pc := if s.asleep then s.pc + 1 else s.pc } := by
  unfold envRequest
  cases h : s.asleep
  · simp only [raise, State.setPend_asleep, h, Bool.false_eq_true, if_false]
    show { s with pend := Bank.set s.pend p.irq true } = _
    simp [h]
  · simp only [raise, State.setPend_asleep, h, if_true]
    rfl

/-- The interrupt that is taken is a candidate. -/
theorem interruptToTake_candidate {s : State} {i : Nib} (h : s.interruptToTake = some i) :
    s.ie = true ∧ s.candidate i = true := by
  unfold State.interruptToTake at h
  cases hie : s.ie
  · simp [hie] at h
  · rw [hie, if_pos rfl] at h
    exact ⟨rfl, by simpa using List.find?_some h⟩

/-- What makes a request a candidate. -/
theorem State.candidate_iff (j : Nib) : s.candidate j = true ↔
    (s.pendAt j = true ∧ j.val > s.ilevel.val ∧ ¬(s.irqHold = true ∧ 3 ≤ j.val ∧ j.val ≤ 8)) := by
  simp [State.candidate, isPeripheral]
  cases s.irqHold <;> simp
  rw [and_assoc]
  constructor <;> rintro ⟨a, b, c⟩ <;> refine ⟨a, b, ?_⟩ <;> omega

/-- The first number in order of priority that has a property is the highest that has it. -/
theorem find?_irqsByPriority (f : Nib → Bool) (i : Nib) (h0 : f 0 = false) (hi : f i = true) (hj : ∀ j, f j = true → j ≤ i) :
    irqsByPriority.find? f = some i := by
  have hne : ∀ j, i < j → f j = false := by
    intro j hj'
    cases h : f j
    · rfl
    · exact absurd (hj j h) (not_le.mpr hj')
  unfold irqsByPriority
  revert hi hne
  revert i
  intro i _ hi hne
  fin_cases i
  all_goals simp only [List.find?_cons]
  all_goals simp at hi hne
  all_goals simp_all

/-- One of the requests 3..8 is stored. -/
theorem State.peripheralPending_iff :
    s.peripheralPending = true ↔ ∃ i : Nib, 3 ≤ i.val ∧ i.val ≤ 8 ∧ s.pendAt i = true := by
  simp only [State.peripheralPending, isPeripheral, List.any_eq_true, Bool.and_eq_true, decide_eq_true_eq]
  constructor
  · rintro ⟨i, _, ⟨h1, h2⟩, h3⟩
    exact ⟨i, h1, h2, h3⟩
  · rintro ⟨i, h1, h2, h3⟩
    have : ∀ i : Nib, 3 ≤ i.val → i ∈ irqsByPriority := by decide
    exact ⟨i, this i h1, ⟨h1, h2⟩, h3⟩

end Sys2Proof.Machine
end

