-- ==== Sys2Proof/Laws/Block.lean ====
section
/-! SUPPORT. What the block forms do, for every word of the block (44_load_store.md R233, R234). -/

namespace Sys2Proof.Machine

/-- The address of the i-th word of a block, i from 1. -/
abbrev blockAddr (ea : Word) (i : Nib) : Nat := (ea + BitVec.ofNat 32 (i.val - 1)).toNat

/-- A block read: memory is unchanged; a request exactly if some address does not exist; each register whose address exists
holds the word there; registers above n are unchanged. -/
theorem loadBlock_spec (s : State) (ea : Word) (n : Nat) (hn : n ≤ 15) :
    (loadBlock ea n s).mem = s.mem ∧ (loadBlock ea n s).params = s.params ∧
    (loadBlock ea n s).pend =
      (if ∀ i : Nib, 1 ≤ i.val → i.val ≤ n → blockAddr ea i < s.params.memSize then s.pend else Bank.set s.pend 14 true) ∧
    (∀ (i : Nib) (v : Word), 1 ≤ i.val → i.val ≤ n → blockAddr ea i < s.params.memSize →
      (s.mem.read (blockAddr ea i) = some v ∨
        (s.mem.read (blockAddr ea i) = none ∧ v = Config.powerOnWord (blockAddr ea i))) →
      (loadBlock ea n s).reg i = v) ∧
    (∀ i : Nib, i.val > n → (loadBlock ea n s).reg i = s.reg i) := by
  simp only [blockAddr]
  induction n with
  | zero => 
    refine ⟨rfl, rfl, ?_, ?_, fun _ _ => rfl⟩
    · rw [if_pos]; rfl
      intro i h1 h2; omega
    · intro i v h1 h2; omega
  | succ n ih =>
    obtain ⟨h1, h2, h3, h4, h5⟩ := ih (by omega)
    have hx : (Fin.ofNat 16 (n+1)).val = n + 1 := by simp; omega
    have hx0 : (Fin.ofNat 16 (n+1)) ≠ 0 := by intro e; have := congrArg Fin.val e; rw [hx] at this; simp at this
    have hreg (S : State) (hS : S.regs = (loadBlock ea n s).regs) (v : Word) (i : Nib) (hi : i.val ≠ n + 1) : (S.setReg (Fin.ofNat 16 (n+1)) v).reg i = (loadBlock ea n s).reg i := by
      rw [State.reg_setReg, if_neg, State.reg_of_regs hS]
      rintro ⟨e, _⟩; apply hi; rw [← e, hx]
    have hregs (S : State) (v : Word) (i : Nib) (hi : i.val = n + 1) : (S.setReg (Fin.ofNat 16 (n+1)) v).reg i = v := by
      rw [State.reg_setReg, if_pos]
      refine ⟨?_, hx0⟩
      apply Fin.ext; rw [hx, hi]
    simp only [loadBlock]
    rcases memRead_cases (loadBlock ea n s) (ea + BitVec.ofNat 32 n) with ⟨hv, h⟩ | ⟨hv, h⟩ <;> rw [h]
    · have hv' : (ea + BitVec.ofNat 32 n).toNat < s.params.memSize := by simpa [State.validAddr, h2] using hv
      refine ⟨h1, h2, ?_, ?_, ?_⟩
      · show (loadBlock ea n s).pend = _
        rw [h3]
        refine if_congr ⟨?_, ?_⟩ rfl rfl
        · intro h i hi1 hi2
          by_cases hi : i.val = n + 1
          · rw [hi]; exact hv'
          · exact h i hi1 (by omega)
        · intro h i hi1 hi2; exact h i hi1 (by omega)
      · intro i v hi1 hi2 hi3 hi4
        by_cases hi : i.val = n + 1
        · rw [hregs _ _ _ hi]; 
          show (loadBlock ea n s).memWord _ = _
          unfold State.memWord
          rw [h1]
          rw [hi, Nat.add_sub_cancel] at hi4
          rcases hi4 with hi4 | ⟨hi4, hi5⟩
          · rw [hi4]
          · rw [hi4, hi5]
        · rw [hreg _ rfl _ _ hi]; exact h4 i v hi1 (by omega) hi3 hi4
      · intro i hi; rw [hreg _ rfl _ _ (by omega)]; exact h5 i (by omega)
    · have hv' : ¬ (ea + BitVec.ofNat 32 n).toNat < s.params.memSize := by simpa [State.validAddr, h2] using hv
      refine ⟨h1, h2, ?_, ?_, ?_⟩
      · show Bank.set (loadBlock ea n s).pend 14 true = _
        rw [h3, if_neg (c := ∀ i : Nib, 1 ≤ i.val → i.val ≤ n + 1 → _)]
        · split
          · rfl
          · apply Bank.ext_get (z := false); intro i; simp only [Bank.get_set]; split <;> rfl
        · intro h; apply hv'
          have := h (Fin.ofNat 16 (n+1)) (by rw [hx]; omega) (by rw [hx])
          rw [hx] at this; exact this
      · intro i v hi1 hi2 hi3 hi4
        by_cases hi : i.val = n + 1
        · rw [hi] at hi3; exact absurd hi3 hv'
        · show State.reg (State.setReg ((raise irqMemaddr (loadBlock ea n s)).setFreeCount ((loadBlock ea n s).freeCount + 1)) _ _) i = _; rw [hreg (((raise irqMemaddr (loadBlock ea n s)).setFreeCount ((loadBlock ea n s).freeCount + 1))) rfl _ _ hi]; exact h4 i v hi1 (by omega) hi3 hi4
      · intro i hi; show State.reg (State.setReg ((raise irqMemaddr (loadBlock ea n s)).setFreeCount ((loadBlock ea n s).freeCount + 1)) _ _) i = _; rw [hreg (((raise irqMemaddr (loadBlock ea n s)).setFreeCount ((loadBlock ea n s).freeCount + 1))) rfl _ i (by omega)]; exact h5 i (by omega)

/-- A block write: a request exactly if some word was not stored; each word stored reads back; every other address reads as
before. -/
theorem storeBlock_spec (s : State) (ea : Word) (n : Nat) (hn : n ≤ 15) (hw : s.mem.wf = true) :
    (storeBlock ea n s).mem.wf = true ∧ (storeBlock ea n s).params = s.params ∧
    (storeBlock ea n s).rMemProt = s.rMemProt ∧
    (storeBlock ea n s).pend =
      (if ∀ i : Nib, 1 ≤ i.val → i.val ≤ n → blockAddr ea i < s.params.memSize ∧ blockAddr ea i ≥ s.rMemProt.toNat
        then s.pend else Bank.set s.pend 14 true) ∧
    (∀ i : Nib, 1 ≤ i.val → i.val ≤ n → blockAddr ea i < s.params.memSize → blockAddr ea i ≥ s.rMemProt.toNat →
      (storeBlock ea n s).mem.read (blockAddr ea i) = some (s.reg i)) ∧
    (∀ x, (∀ i : Nib, 1 ≤ i.val → i.val ≤ n → blockAddr ea i < s.params.memSize → blockAddr ea i ≥ s.rMemProt.toNat →
      blockAddr ea i ≠ x) → (storeBlock ea n s).mem.read x = s.mem.read x) := by
  simp only [blockAddr]
  induction n with
  | zero => 
    refine ⟨hw, rfl, rfl, ?_, ?_, fun _ _ => rfl⟩
    · rw [if_pos]; rfl
      intro i h1 h2; omega
    · intro i h1 h2; omega
  | succ n ih =>
    obtain ⟨h0, h2, h1, h3, h4, h5⟩ := ih (by omega)
    have hx : (Fin.ofNat 16 (n+1)).val = n + 1 := by simp; omega
    simp only [storeBlock]
    have wr : (storeBlock ea n s).writable (ea + BitVec.ofNat 32 n) = true ↔ ((ea + BitVec.ofNat 32 n).toNat < s.params.memSize ∧ (ea + BitVec.ofNat 32 n).toNat ≥ s.rMemProt.toNat) := by
      rw [State.writable, State.validAddr, h2, h1, Bool.and_eq_true, decide_eq_true_eq, decide_eq_true_eq]
    rcases memWrite_cases (storeBlock ea n s) (ea + BitVec.ofNat 32 n) (s.reg (Fin.ofNat 16 (n+1))) with ⟨hv, h⟩ | ⟨hv, h⟩ <;> rw [h]
    · have hv' := wr.1 hv
      refine ⟨Memory.write_wf h0, h2, h1, ?_, ?_, ?_⟩
      · show (storeBlock ea n s).pend = _
        rw [h3]
        refine if_congr ⟨?_, ?_⟩ rfl rfl
        · intro h i hi1 hi2
          by_cases hi : i.val = n + 1
          · rw [hi]; exact hv'
          · exact h i hi1 (by omega)
        · intro h i hi1 hi2; exact h i hi1 (by omega)
      · intro i hi1 hi2 hi3 hi4
        show (Memory.write _ _ _).read _ = _
        rw [Memory.read_write h0]
        by_cases hi : i.val = n + 1
        · rw [hi, Nat.add_sub_cancel, if_pos rfl]; congr 2; apply Fin.ext; rw [hx, hi]
        · rw [if_neg]; exact h4 i hi1 (by omega) hi3 hi4
          intro e
          have := BitVec.eq_of_toNat_eq e
          have := (BitVec.add_right_inj ea).1 this
          have := congrArg BitVec.toNat this
          simp at this
          omega
      · intro x hx'
        show (Memory.write _ _ _).read _ = _
        rw [Memory.read_write h0, if_neg]
        · exact h5 x (fun i a b c d => hx' i a (by omega) c d)
        · have := hx' (Fin.ofNat 16 (n+1)) (by rw [hx]; omega) (by rw [hx])
          rw [hx, Nat.add_sub_cancel] at this
          exact this hv'.1 hv'.2
    · have hv' : ¬ ((ea + BitVec.ofNat 32 n).toNat < s.params.memSize ∧ (ea + BitVec.ofNat 32 n).toNat ≥ s.rMemProt.toNat) := by rw [← wr, hv]; simp
      refine ⟨h0, h2, h1, ?_, ?_, ?_⟩
      · show Bank.set (storeBlock ea n s).pend 14 true = _
        rw [h3, if_neg (c := ∀ i : Nib, 1 ≤ i.val → i.val ≤ n + 1 → _)]
        · split
          · rfl
          · apply Bank.ext_get (z := false); intro i; simp only [Bank.get_set]; split <;> rfl
        · intro h; apply hv'
          have := h (Fin.ofNat 16 (n+1)) (by rw [hx]; omega) (by rw [hx])
          rw [hx] at this; exact this
      · intro i hi1 hi2 hi3 hi4
        by_cases hi : i.val = n + 1
        · rw [hi] at hi3 hi4; exact absurd ⟨hi3, hi4⟩ hv'
        · exact h4 i hi1 (by omega) hi3 hi4
      · intro x hx'
        exact h5 x (fun i a b c d => hx' i a (by omega) c d)

/-- A block write records exactly the words it stores into code. -/
theorem storeBlock_codeStores (s : State) (ea : Word) (n : Nat) (hn : n ≤ 15) (a : Word) :
    a ∈ (storeBlock ea n s).codeStores ↔ a ∈ s.codeStores ∨
      ∃ i : Nib, 1 ≤ i.val ∧ i.val ≤ n ∧ blockAddr ea i < s.params.memSize ∧ blockAddr ea i ≥ s.rMemProt.toNat ∧
        (s.prog.read (blockAddr ea i)).isSome = true ∧ a = ea + BitVec.ofNat 32 (i.val - 1) := by
  simp only [blockAddr]
  induction n with
  | zero =>
    refine ⟨.inl, ?_⟩
    rintro (h | ⟨i, h1, h2, -⟩)
    · exact h
    · omega
  | succ n ih =>
    have ih := ih (by omega)
    obtain ⟨m, p, c, hf⟩ := storeBlock_frame s ea n
    have hp : (storeBlock ea n s).prog = s.prog := by rw [hf]
    have hx : (Fin.ofNat 16 (n + 1)).val = n + 1 := by simp; omega
    have wr : (storeBlock ea n s).writable (ea + BitVec.ofNat 32 n) = true ↔
        ((ea + BitVec.ofNat 32 n).toNat < s.params.memSize ∧ (ea + BitVec.ofNat 32 n).toNat ≥ s.rMemProt.toNat) := by
      rw [hf, State.writable, State.validAddr, Bool.and_eq_true, decide_eq_true_eq, decide_eq_true_eq]
    have last : ∀ i : Nib, i.val ≤ n + 1 → ¬ i.val ≤ n → i.val = n + 1 := fun i _ _ => by omega
    simp only [storeBlock]
    rcases memWrite_cases (storeBlock ea n s) (ea + BitVec.ofNat 32 n) (s.reg (Fin.ofNat 16 (n + 1)))
      with ⟨hv, h⟩ | ⟨hv, h⟩ <;> rw [h]
    · have hv' := wr.1 hv
      rw [State.setCodeStores_codeStores, State.mem_codeStoresWith, hp, ih]
      constructor
      · rintro ((h | ⟨i, h1, h2, h3⟩) | ⟨h1, rfl⟩)
        · exact .inl h
        · exact .inr ⟨i, h1, by omega, h3⟩
        · refine .inr ⟨Fin.ofNat 16 (n + 1), ?_⟩
          rw [hx, Nat.add_sub_cancel]
          exact ⟨by omega, Nat.le_refl _, hv'.1, hv'.2, h1, rfl⟩
      · rintro (h | ⟨i, h1, h2, h3, h4, h5, h6⟩)
        · exact .inl (.inl h)
        · by_cases hi : i.val ≤ n
          · exact .inl (.inr ⟨i, h1, hi, h3, h4, h5, h6⟩)
          · rw [last i h2 hi, Nat.add_sub_cancel] at h5 h6
            exact .inr ⟨h5, h6⟩
    · show a ∈ (storeBlock ea n s).codeStores ↔ _
      rw [ih]
      constructor
      · rintro (h | ⟨i, h1, h2, h3⟩)
        · exact .inl h
        · exact .inr ⟨i, h1, by omega, h3⟩
      · rintro (h | ⟨i, h1, h2, h3, h4, h5⟩)
        · exact .inl h
        · by_cases hi : i.val ≤ n
          · exact .inr ⟨i, h1, hi, h3, h4, h5⟩
          · rw [last i h2 hi, Nat.add_sub_cancel] at h3 h4
            rw [wr.2 ⟨h3, h4⟩] at hv
            cases hv

/-- A block read changes no register outside 1..n. -/
theorem loadBlock_reg (s : State) (ea : Word) (n : Nat) (hn : n ≤ 15) (r : Nib) (hr : ¬(1 ≤ r.val ∧ r.val ≤ n)) :
    (loadBlock ea n s).reg r = s.reg r := by
  rcases Nat.eq_zero_or_pos r.val with h | h
  · have : r = 0 := Fin.ext h
    rw [this]
    rfl
  · exact (loadBlock_spec s ea n hn).2.2.2.2 r (by omega)

/-- A block read makes at most the request MEMADDR. -/
theorem loadBlock_pend (s : State) (ea : Word) (n : Nat) (hn : n ≤ 15) :
    (loadBlock ea n s).pend = s.pend ∨ (loadBlock ea n s).pend = Bank.set s.pend 14 true := by
  rw [(loadBlock_spec s ea n hn).2.2.1]
  split
  · exact .inl rfl
  · exact .inr rfl

/-- A block write makes at most the request MEMADDR. -/
theorem storeBlock_pend (s : State) (ea : Word) (n : Nat) (hn : n ≤ 15) (hw : s.mem.wf = true) :
    (storeBlock ea n s).pend = s.pend ∨ (storeBlock ea n s).pend = Bank.set s.pend 14 true := by
  rw [(storeBlock_spec s ea n hn hw).2.2.2.1]
  split
  · exact .inl rfl
  · exact .inr rfl

end Sys2Proof.Machine
end

