-- ==== Sys2Proof/Laws/Encoding.lean ====
section
/-! SUPPORT. The fields of SRE-32 words: what each field reads from a packed word, and that the fields make the word. -/

namespace Sys2Proof

@[simp] theorem bitsNib_nibBits (r : Nib) : bitsNib (nibBits r) = r := by
  apply Fin.ext
  simp only [bitsNib, nibBits, BitVec.toNat_ofNat]
  omega

@[simp] theorem nibBits_bitsNib (b : BitVec 4) : nibBits (bitsNib b) = b := by
  apply BitVec.eq_of_toNat_eq
  simp only [bitsNib, nibBits, BitVec.toNat_ofNat]
  omega

@[simp] theorem bitsNib_zero : bitsNib 0#4 = 0 := rfl

@[simp] theorem nibBits_zero : nibBits 0 = 0#4 := rfl

variable (op : BitVec 8) (w a b : Nib) (k : Const)

/-- The bits of a word by field (R105). -/
theorem getLsbD_packWord (i : Nat) : (packWord op w a k).getLsbD i =
    if i < 16 then k.getLsbD i else if i < 20 then (nibBits a).getLsbD (i - 16)
    else if i < 24 then (nibBits w).getLsbD (i - 20) else op.getLsbD (i - 24) := by
  have h : (packWord op w a k).getLsbD i = (op ++ nibBits w ++ nibBits a ++ k : BitVec (8 + 4 + 4 + 16)).getLsbD i := rfl
  rw [h, BitVec.getLsbD_append, BitVec.getLsbD_append, BitVec.getLsbD_append]
  by_cases h1 : i < 16
  · simp [h1]
  · by_cases h2 : i < 20
    · have : i - 16 < 4 := by omega
      simp [h1, h2, this]
    · have h2' : ¬ (i - 16 < 4) := by omega
      by_cases h3 : i < 24
      · have h3' : i - 16 - 4 < 4 := by omega
        have h4 : i - 16 - 4 = i - 20 := by omega
        simp [h1, h2, h3, h2', h4 ▸ h3', h4]
      · have h3' : ¬ (i - 16 - 4 < 4) := by omega
        have h4 : i - 16 - 4 - 4 = i - 24 := by omega
        simp only [h1, h2, h3, h2', h3', h4, if_false]

@[simp] theorem opOf_packWord : opOf (packWord op w a k) = op := by
  apply BitVec.eq_of_getLsbD_eq
  intro i hi
  have h1 : ¬ (24 + i < 16) := by omega
  have h2 : ¬ (24 + i < 20) := by omega
  simp [opOf, getLsbD_packWord, hi, h1, h2]

@[simp] theorem wOf_packWord : wOf (packWord op w a k) = w := by
  have h : (packWord op w a k).extractLsb' 20 4 = nibBits w := by
    apply BitVec.eq_of_getLsbD_eq
    intro i hi
    have h1 : ¬ (20 + i < 16) := by omega
    have h2 : 20 + i < 24 := by omega
    simp [getLsbD_packWord, hi, h1, h2]
  simp [wOf, h]

@[simp] theorem aOf_packWord : aOf (packWord op w a k) = a := by
  have h : (packWord op w a k).extractLsb' 16 4 = nibBits a := by
    apply BitVec.eq_of_getLsbD_eq
    intro i hi
    have h2 : 16 + i < 20 := by omega
    simp [getLsbD_packWord, hi, h2]
  simp [aOf, h]

@[simp] theorem kOf_packWord : kOf (packWord op w a k) = k := by
  apply BitVec.eq_of_getLsbD_eq
  intro i hi
  simp [kOf, getLsbD_packWord, hi]

theorem getLsbD_regK (i : Nat) : (regK b).getLsbD i = if i < 12 then false else (nibBits b).getLsbD (i - 12) := by
  have h : (regK b).getLsbD i = (nibBits b ++ 0#12 : BitVec (4 + 12)).getLsbD i := rfl
  rw [h, BitVec.getLsbD_append]
  split <;> simp

@[simp] theorem lowOf_packWord_regK : lowOf (packWord op w a (regK b)) = 0#12 := by
  apply BitVec.eq_of_getLsbD_eq
  intro i hi
  simp [lowOf, getLsbD_regK, hi]

@[simp] theorem bOf_packWord_regK : bOf (packWord op w a (regK b)) = b := by
  have h : (regK b).extractLsb' 12 4 = nibBits b := by
    apply BitVec.eq_of_getLsbD_eq
    intro i hi
    simp [getLsbD_regK, hi]
  simp [bOf, h]

/-- A word is made of its fields. -/
theorem packWord_fields (x : Word) : packWord (opOf x) (wOf x) (aOf x) (kOf x) = x := by
  apply BitVec.eq_of_getLsbD_eq
  intro i hi
  rw [getLsbD_packWord]
  simp only [wOf, aOf, nibBits_bitsNib, opOf, kOf, BitVec.getLsbD_extractLsb']
  split
  · simp [*]
  · split
    · have h1 : i - 16 < 4 := by omega
      have h2 : 16 + (i - 16) = i := by omega
      simp [h1, h2]
    · split
      · have h1 : i - 20 < 4 := by omega
        have h2 : 20 + (i - 20) = i := by omega
        simp [h1, h2]
      · have h1 : i - 24 < 8 := by omega
        have h2 : 24 + (i - 24) = i := by omega
        simp [h1, h2]

/-- Bits 15:0 whose bits 11:0 are 0 hold just the register of field B. -/
theorem regK_bOf {x : Word} (h : lowOf x = 0#12) : regK (bOf x) = kOf x := by
  apply BitVec.eq_of_getLsbD_eq
  intro i hi
  rw [getLsbD_regK]
  simp only [bOf, nibBits_bitsNib, BitVec.getLsbD_extractLsb']
  split
  · rename_i h1
    have h2 := congrArg (fun y => y.getLsbD i) h
    simp only [lowOf, BitVec.getLsbD_extractLsb', h1, decide_true, Bool.true_and, Nat.zero_add] at h2
    simp [h2]
  · have h3 : 12 + (i - 12) = i := by omega
    have h4 : i - 12 < 4 := by omega
    simp [h3, h4]

/-- The bytes of a word make the word. -/
theorem bytesWord_wordBytes (x : Word) :
    bytesWord (x.extractLsb' 24 8) (x.extractLsb' 16 8) (x.extractLsb' 8 8) (x.extractLsb' 0 8) = x := by
  apply BitVec.eq_of_getLsbD_eq
  intro i hi
  have h : (bytesWord (x.extractLsb' 24 8) (x.extractLsb' 16 8) (x.extractLsb' 8 8) (x.extractLsb' 0 8)).getLsbD i =
    (x.extractLsb' 24 8 ++ x.extractLsb' 16 8 ++ x.extractLsb' 8 8 ++ x.extractLsb' 0 8 : BitVec (8 + 8 + 8 + 8)).getLsbD i :=
    rfl
  rw [h, BitVec.getLsbD_append, BitVec.getLsbD_append, BitVec.getLsbD_append]
  simp only [BitVec.getLsbD_extractLsb']
  split
  · simp [*]
  · split
    · have h1 : 8 + (i - 8) = i := by omega
      simp [*]
    · split
      · have h1 : 16 + (i - 8 - 8) = i := by omega
        simp [*]
      · have h1 : 24 + (i - 8 - 8 - 8) = i := by omega
        have h2 : i - 8 - 8 - 8 < 8 := by omega
        simp [h1, h2]

/-- A word as a number, by its fields. -/
theorem packWord_eq_ofNat : packWord op w a k =
    BitVec.ofNat 32 (op.toNat * 2 ^ 24 + w.val * 2 ^ 20 + a.val * 2 ^ 16 + k.toNat) := by
  apply BitVec.eq_of_toNat_eq
  have h : (packWord op w a k).toNat = (op ++ nibBits w ++ nibBits a ++ k : BitVec (8 + 4 + 4 + 16)).toNat := rfl
  rw [h]
  simp only [BitVec.toNat_append]
  have e (x y n : Nat) (h : y < 2 ^ n) : x <<< n ||| y = x * 2 ^ n + y := by
    rw [← Nat.shiftLeft_add_eq_or_of_lt h, Nat.shiftLeft_eq]
  rw [e _ _ 4 (nibBits w).isLt, e _ _ 4 (nibBits a).isLt, e _ _ 16 k.isLt]
  simp only [BitVec.toNat_ofNat, nibBits]
  have := op.isLt
  have := w.isLt
  have := a.isLt
  have := k.isLt
  omega

theorem packWord_regK_eq_ofNat : packWord op w a (regK b) =
    BitVec.ofNat 32 (op.toNat * 2 ^ 24 + w.val * 2 ^ 20 + a.val * 2 ^ 16 + b.val * 2 ^ 12) := by
  rw [packWord_eq_ofNat]
  have : (regK b).toNat = b.val * 2 ^ 12 := by revert b; decide
  rw [this]

end Sys2Proof
end

