-- ==== Sys2Proof/Laws/Meanings.lean ====
section
/-! SUPPORT. One lemma per operation that the meanings of a family share: every outcome it can have, the state written out. -/

namespace Sys2Proof.Machine

variable (w : RegNum) (a b : Word) (s : State)

/-! ### Arithmetic -/

theorem addOp_eq : addOp w a b s = .next
    { s with regs := Bank.set s.regs w (a + b), flags := { s.flags with ovUns := addUns a b, ovSgn := addSgn a b }
             pc := s.pc + 1, irqHold := false } := rfl

theorem subOp_eq : subOp w a b s = .next
    { s with regs := Bank.set s.regs w (a - b), flags := { s.flags with ovUns := subUns a b, ovSgn := subSgn a b }
             pc := s.pc + 1, irqHold := false } := rfl

theorem mulOp_eq : mulOp w a b s = .next
    { s with regs := Bank.set s.regs w ((product64 a b).extractLsb' 0 32)
             rMulHigh := (product64 a b).extractLsb' 32 32
             flags := { s.flags with ovMul := outsideSigned (a.toInt * b.toInt) }
             pc := s.pc + 1, irqHold := true } := rfl

/-- A division gives its quotient and remainder, or, where none are stated, free values. -/
theorem divOp_cases :
    (divUndefined s.params.divRound (s.dividend a) b.toInt = false ∧ divOp w a b s = .next
      { s with regs := Bank.set s.regs w (BitVec.ofInt 32 (quotient s.params.divRound (s.dividend a) b.toInt))
               rMod := BitVec.ofInt 32 (remainder s.params.divRound (s.dividend a) b.toInt)
               div64Prep := false, pc := s.pc + 1, irqHold := true }) ∨
    (divUndefined s.params.divRound (s.dividend a) b.toInt = true ∧ divOp w a b s = .next
      { s with regs := Bank.set s.regs w (Config.freeWord s.freeCount), rMod := Config.freeWord (s.freeCount + 1)
               div64Prep := false, pc := s.pc + 1, irqHold := true, freeCount := s.freeCount + 1 + 1 }) := by
  unfold divOp
  cases h : divUndefined s.params.divRound (s.dividend a) b.toInt
  · exact .inl ⟨rfl, by simp only [h, Bool.false_eq_true, if_false]; rfl⟩
  · exact .inr ⟨rfl, by simp only [h, if_true]; rfl⟩

theorem mulFpOp_eq : mulFpOp w a b s = .next
    { s with regs := Bank.set s.regs w ((product64 a b).extractLsb' 16 32), rMulHigh := Config.freeWord s.freeCount
             flags := { s.flags with ovMul := Config.freeBit (s.freeCount + 1) }
             pc := s.pc + 1, irqHold := true, freeCount := s.freeCount + 1 + 1 } := rfl

/-- A fixed-point division gives its quotient, or, where none is stated, a free value; rMod is free in both. -/
theorem divFpOp_cases :
    (divUndefined s.params.divRound (a.toInt * 2 ^ 16) b.toInt = false ∧ divFpOp w a b s = .next
      { s with regs := Bank.set s.regs w (BitVec.ofInt 32 (quotient s.params.divRound (a.toInt * 2 ^ 16) b.toInt))
               rMod := Config.freeWord s.freeCount, div64Prep := false, pc := s.pc + 1, irqHold := false
               freeCount := s.freeCount + 1 }) ∨
    (divUndefined s.params.divRound (a.toInt * 2 ^ 16) b.toInt = true ∧ divFpOp w a b s = .next
      { s with regs := Bank.set s.regs w (Config.freeWord (s.freeCount + 1)), rMod := Config.freeWord s.freeCount
               div64Prep := false, pc := s.pc + 1, irqHold := false, freeCount := s.freeCount + 1 + 1 }) := by
  unfold divFpOp
  cases h : divUndefined s.params.divRound (a.toInt * 2 ^ 16) b.toInt
  · exact .inl ⟨rfl, by simp only [h, Bool.false_eq_true, if_false]; rfl⟩
  · exact .inr ⟨rfl, by simp only [h, if_true]; rfl⟩

/-! ### Results, shifts, conditions -/

theorem writeResult_eq : writeResult w a s = .next
    { s with regs := Bank.set s.regs w a, pc := s.pc + 1, irqHold := false } := rfl

/-- A shift without a flag: its result, or a free value above 31. -/
theorem shiftOp_cases (f : Word → Nat → Word) :
    (b.toNat ≤ 31 ∧ shiftOp f w a b s = .next
      { s with regs := Bank.set s.regs w (f a b.toNat), pc := s.pc + 1, irqHold := false }) ∨
    (b.toNat > 31 ∧ shiftOp f w a b s = .next
      { s with regs := Bank.set s.regs w (Config.freeWord s.freeCount), pc := s.pc + 1, irqHold := false
               freeCount := s.freeCount + 1 }) := by
  unfold shiftOp
  by_cases h : b.toNat ≤ 31
  · exact .inl ⟨h, by rw [if_pos h]; rfl⟩
  · exact .inr ⟨by omega, by rw [if_neg h]; rfl⟩

/-- A left shift: its result and flag, or free values above 31. -/
theorem shlOp_cases :
    (b.toNat ≤ 31 ∧ shlOp w a b s = .next
      { s with regs := Bank.set s.regs w (a <<< b.toNat), flags := { s.flags with ovShift := shiftedOut a b.toNat }
               pc := s.pc + 1, irqHold := false }) ∨
    (b.toNat > 31 ∧ shlOp w a b s = .next
      { s with regs := Bank.set s.regs w (Config.freeWord s.freeCount)
               flags := { s.flags with ovShift := Config.freeBit (s.freeCount + 1) }
               pc := s.pc + 1, irqHold := false, freeCount := s.freeCount + 1 + 1 }) := by
  unfold shlOp
  by_cases h : b.toNat ≤ 31
  · exact .inl ⟨h, by rw [if_pos h]; rfl⟩
  · exact .inr ⟨by omega, by rw [if_neg h]; rfl⟩

theorem setOp_eq (c : Bool) : setOp w c s = .next
    { s with regs := Bank.set s.regs w (if c then 1 else 0), pc := s.pc + 1, irqHold := false } := rfl

/-! ### Jumps -/

theorem branchOp_eq (c : Bool) (k : Const) :
    branchOp c k s = .next (if c then jumpTo (sext32 k) s else s.advance) := by
  unfold branchOp done
  cases c <;> rfl

theorem linkOp_eq (t : Word) : linkOp w t s = .next
    { s with regs := Bank.set s.regs w (s.pc + 1), pend := if illegalTarget t then Bank.set s.pend 15 true else s.pend
             pc := t, irqHold := false } := by
  unfold linkOp done
  rw [jumpTo_eq]
  rfl

theorem startOp_eq (t : Word) : startOp t s = .next
    { s with bootActive := false, pend := if illegalTarget t then Bank.set s.pend 15 true else s.pend
             pc := t, irqHold := false } := by
  unfold startOp done
  rw [jumpTo_eq]
  rfl

/-! ### Memory -/

/-- LOAD gives the word at a valid address, or a free value and a request. -/
theorem execLoad_cases (r : RegNum) (k : Const) :
    (s.validAddr (effAddr r k s) = true ∧ execLoad w r k s = .next
      { s with regs := Bank.set s.regs w (s.memWord (effAddr r k s)), rLEA := effAddr r k s, pc := s.pc + 1
               irqHold := false }) ∨
    (s.validAddr (effAddr r k s) = false ∧ execLoad w r k s = .next
      { s with regs := Bank.set s.regs w (Config.freeWord s.freeCount), rLEA := effAddr r k s
               pend := Bank.set s.pend 14 true, pc := s.pc + 1, irqHold := false, freeCount := s.freeCount + 1 }) := by
  unfold execLoad done
  rcases memRead_cases (s.setRLEA (effAddr r k s)) (effAddr r k s) with ⟨h, e⟩ | ⟨h, e⟩
  · exact .inl ⟨h, by simp only [e]; rfl⟩
  · exact .inr ⟨h, by simp only [e]; rfl⟩

/-- STORE stores the word at a writable address, recording a store into code, or leaves memory and makes a request. -/
theorem execStore_cases (r : RegNum) (k : Const) :
    (s.writable (effAddr r k s) = true ∧ execStore w r k s = .next
      { s with mem := s.mem.write (effAddr r k s).toNat (s.reg w), codeStores := s.codeStoresWith (effAddr r k s)
               rLEA := effAddr r k s, pc := s.pc + 1, irqHold := false }) ∨
    (s.writable (effAddr r k s) = false ∧ execStore w r k s = .next
      { s with rLEA := effAddr r k s, pend := Bank.set s.pend 14 true, pc := s.pc + 1, irqHold := false }) := by
  unfold execStore done
  rcases memWrite_cases (s.setRLEA (effAddr r k s)) (effAddr r k s) (s.reg w) with ⟨h, e⟩ | ⟨h, e⟩
  · exact .inl ⟨h, by simp only [e]; rfl⟩
  · exact .inr ⟨h, by simp only [e]; rfl⟩

/-- LREGS is refused, or changes registers, rLEA, requests, pc, irqHold and the counter of free values only. -/
theorem execLregs_cases (n r : Nib) (k : Const) :
    (n = 0 ∧ execLregs n r k s = .refused .blockCountZero) ∨
    (n ≠ 0 ∧ 1 ≤ r.val ∧ r.val ≤ n.val ∧ execLregs n r k s = .refused .blockBaseLoaded) ∨
    (n ≠ 0 ∧ ¬(1 ≤ r.val ∧ r.val ≤ n.val) ∧
      execLregs n r k s = .next ((loadBlock (effAddr r k s) n.val (s.setRLEA (effAddr r k s))).advance)) := by
  unfold execLregs done
  by_cases h : n = 0
  · exact .inl ⟨h, by simp [h]⟩
  · by_cases h2 : 1 ≤ r.val ∧ r.val ≤ n.val
    · exact .inr (.inl ⟨h, h2.1, h2.2, by simp [h, h2]⟩)
    · exact .inr (.inr ⟨h, h2, by simp only [h, h2, if_false]⟩)

/-- SREGS is refused, or changes memory, the record of stores into code, rLEA, requests, pc and irqHold only. -/
theorem execSregs_cases (n r : Nib) (k : Const) :
    (n = 0 ∧ execSregs n r k s = .refused .blockCountZero) ∨
    (n ≠ 0 ∧ execSregs n r k s = .next ((storeBlock (effAddr r k s) n.val (s.setRLEA (effAddr r k s))).advance)) := by
  unfold execSregs done
  by_cases h : n = 0
  · exact .inl ⟨h, by simp [h]⟩
  · exact .inr ⟨h, by simp only [h, if_false]⟩

/-! ### Ports -/

/-- A port input: the next listed answer, a free value where none is listed, or a free value and a request. -/
theorem inOp_cases (p : Word) :
    (s.portExists p = true ∧ ∃ v rest, s.portAnswers = v :: rest ∧ inOp w p s = .next
      { s with regs := Bank.set s.regs w v, portAnswers := rest, portTrace := .read p v :: s.portTrace, pc := s.pc + 1
               irqHold := false }) ∨
    (s.portExists p = true ∧ s.portAnswers = [] ∧ inOp w p s = .next
      { s with regs := Bank.set s.regs w (Config.freeWord s.freeCount)
               portTrace := .read p (Config.freeWord s.freeCount) :: s.portTrace, pc := s.pc + 1, irqHold := false
               freeCount := s.freeCount + 1 }) ∨
    (s.portExists p = false ∧ inOp w p s = .next
      { s with regs := Bank.set s.regs w (Config.freeWord s.freeCount), pend := Bank.set s.pend 13 true, pc := s.pc + 1
               irqHold := false, freeCount := s.freeCount + 1 }) := by
  unfold inOp done
  rcases portRead_cases s p with ⟨h, v, rest, h2, e⟩ | ⟨h, h2, e⟩ | ⟨h, e⟩
  · exact .inl ⟨h, v, rest, h2, by simp only [e]; rfl⟩
  · exact .inr (.inl ⟨h, h2, by simp only [e]; rfl⟩)
  · exact .inr (.inr ⟨h, by simp only [e]; rfl⟩)

/-- A port output: the value is handed over, or a request is made. -/
theorem outOp_cases (p v : Word) :
    (s.portExists p = true ∧ outOp p v s = .next
      { s with portTrace := .write p v :: s.portTrace, pc := s.pc + 1, irqHold := false }) ∨
    (s.portExists p = false ∧ outOp p v s = .next
      { s with pend := Bank.set s.pend 13 true, pc := s.pc + 1, irqHold := false }) := by
  unfold outOp done
  rcases portWrite_cases s p v with ⟨h, e⟩ | ⟨h, e⟩
  · exact .inl ⟨h, by rw [e]; rfl⟩
  · exact .inr ⟨h, by rw [e]; rfl⟩

/-! ### Interrupt control, sleeping -/

/-- SISA sets one routine address, or is refused. -/
theorem sisaOp_cases (i v : Word) :
    (∃ n : Nib, irqOfWord i = some n ∧ sisaOp i v s = .next
      { s with isa := Bank.set s.isa n v, pc := s.pc + 1, irqHold := false }) ∨
    (irqOfWord i = none ∧ sisaOp i v s = .refused .noSuchInterrupt) := by
  unfold sisaOp
  cases h : irqOfWord i with
  | some n => exact .inl ⟨n, rfl, rfl⟩
  | none => exact .inr ⟨rfl, rfl⟩

/-- LIRA copies the innermost return address, or is refused. -/
theorem execLira_cases :
    (s.istack = [] ∧ execLira w s = .refused .returnAddressOutsideRoutine) ∨
    (∃ f rest, s.istack = f :: rest ∧ execLira w s = .next
      { s with regs := Bank.set s.regs w f.ret, pc := s.pc + 1, irqHold := false }) := by
  unfold execLira
  cases h : s.istack with
  | nil => exact .inl ⟨rfl, rfl⟩
  | cons f rest => exact .inr ⟨f, rest, rfl, by simp only [done]; exact congrArg Host.Outcome.next (by cases s; simp_all; rfl)⟩

/-- SLEEP puts the core to sleep, or advances. -/
theorem execSleep_cases :
    (execSleep s = .next { s with pc := s.pc + 1, irqHold := false }) ∨
    (execSleep s = .next { s with asleep := true, irqHold := false }) := by
  unfold execSleep done
  split
  · exact .inl rfl
  · exact .inr rfl

end Sys2Proof.Machine
end

