-- ==== Sys2Proof/Laws/Numbers.lean ====
section
/-! SUPPORT. What the arithmetic, the shifts and the flag computations are as numbers. -/

namespace Sys2Proof.Machine

/-! ### Overflow tests -/

theorem outsideSigned_eq (v : Int) : outsideSigned v = decide (v < -2 ^ 31 ∨ v > 2 ^ 31 - 1) := by
  simp [outsideSigned, Bool.decide_or]

theorem outsideSigned_eq_not (v : Int) : outsideSigned v = decide ¬(-2 ^ 31 ≤ v ∧ v ≤ 2 ^ 31 - 1) := by
  rw [outsideSigned, ← Bool.decide_or]
  congr 1
  apply propext
  constructor <;> intro h <;> omega

/-! ### Products and quotients -/

/-- Bits n+31..n of an exact value are the value divided by 2^n, rounded down, modulo 2^32. -/
theorem extract_ofInt (p : Int) (n : Nat) (h : n = 0 ∨ n = 16 ∨ n = 32) :
    (BitVec.ofInt 64 p).extractLsb' n 32 = BitVec.ofInt 32 (p / 2 ^ n) := by
  apply BitVec.eq_of_toNat_eq
  rw [BitVec.extractLsb'_toNat, BitVec.toNat_ofInt, BitVec.toNat_ofInt, Nat.shiftRight_eq_div_pow]
  apply Int.ofNat.inj
  show ((_ : Nat) : Int) = ((_ : Nat) : Int)
  push_cast
  rw [Int.toNat_of_nonneg (by omega), Int.toNat_of_nonneg (by omega)]
  rcases h with rfl | rfl | rfl <;> norm_num <;> omega

/-- The dividend as a number. -/
theorem dividend_eq (s : State) (a : Word) : s.dividend a =
    if s.div64Prep then
      let u : Int := s.rDiv64.toNat * 2 ^ 32 + a.toNat
      if u < 2 ^ 63 then u else u - 2 ^ 64
    else a.toInt := by
  unfold State.dividend
  split
  · have : (s.rDiv64 ++ a : BitVec 64).toNat = s.rDiv64.toNat * 2 ^ 32 + a.toNat := by
      have := BitVec.toNat_append s.rDiv64 a
      rw [← Nat.shiftLeft_add_eq_or_of_lt a.isLt, Nat.shiftLeft_eq] at this
      exact this
    have h1 := s.rDiv64.isLt
    have h2 := a.isLt
    rw [BitVec.toInt_eq_toNat_cond, this]
    simp only
    split <;> split <;> push_cast <;> omega
  · rfl

/-- A pair q, r with T = q * D + r, |r| < |D| and the sign that the rounding asks of r is the quotient and the remainder. -/
theorem quotient_unique (rd : Config.DivRound) (T D q r : Int) (h1 : T = q * D + r) (h2 : r.natAbs < D.natAbs)
    (h3 : match rd with
      | .towardZero => r = 0 ∨ (r < 0 ↔ T < 0)
      | .towardMinusInfinity => r = 0 ∨ (r < 0 ↔ D < 0)) :
    quotient rd T D = q ∧ remainder rd T D = r ∧ D ≠ 0 := by
  have hD : D ≠ 0 := by rintro rfl; simp at h2
  have hq : quotient rd T D = q := by
    cases rd
    · simp only [quotient]
      have : T.tdiv D = q ∧ T.tmod D = r := by
        have h4 := Int.mul_tdiv_add_tmod T D
        have h5 : (T.tmod D).natAbs < D.natAbs := by rw [Int.natAbs_tmod]; exact Nat.mod_lt _ (by omega)
        have h6 : 0 ≤ T → 0 ≤ T.tmod D := fun h => Int.tmod_nonneg D h
        have h7 : T ≤ 0 → T.tmod D ≤ 0 := fun h => by
          have := Int.tmod_nonneg D (show 0 ≤ -T by omega)
          rw [Int.neg_tmod] at this; omega
        have h8 : D * (T.tdiv D - q) = r - T.tmod D := by rw [Int.mul_sub, Int.mul_comm D q]; omega
        have h9 : T.tdiv D - q = 0 := by
          by_contra hne
          have : D.natAbs ≤ (r - T.tmod D).natAbs := by
            rw [← h8, Int.natAbs_mul]; exact Nat.le_mul_of_pos_right _ (by omega)
          have h3' : r = 0 ∨ (r < 0 ↔ T < 0) := h3
          omega
        constructor
        · omega
        · rw [h9] at h8; simp at h8; omega
      exact this.1
    · simp only [quotient]
      have h4 := Int.mul_fdiv_add_fmod T D
      have h5 : D > 0 → 0 ≤ T.fmod D ∧ T.fmod D < D := fun h => ⟨Int.fmod_nonneg_of_pos T h, Int.fmod_lt_of_pos T h⟩
      have h6 : D < 0 → T.fmod D ≤ 0 ∧ D < T.fmod D := fun h => by
        have h1 := Int.fmod_nonneg_of_pos (-T) (show 0 < -D by omega)
        have h2 := Int.fmod_lt_of_pos (-T) (show 0 < -D by omega)
        have h3 : (-T).fmod (-D) = - T.fmod D := by rw [Int.neg_fmod_neg]
        omega
      have h8 : D * (T.fdiv D - q) = r - T.fmod D := by rw [Int.mul_sub, Int.mul_comm D q]; omega
      have h9 : T.fdiv D - q = 0 := by
        by_contra hne
        have : D.natAbs ≤ (r - T.fmod D).natAbs := by
          rw [← h8, Int.natAbs_mul]; exact Nat.le_mul_of_pos_right _ (by omega)
        have h3' : r = 0 ∨ (r < 0 ↔ D < 0) := h3
        omega
      omega
  refine ⟨hq, ?_, hD⟩
  rw [remainder, hq]; omega

/-! ### Rotations -/

theorem rotl_eq (A : Word) (n : Nat) (h : n ≤ 31) :
    rotl A n = BitVec.ofNat 32 (A.toNat * 2 ^ n % 2 ^ 32 + A.toNat / 2 ^ (32 - n)) := by
  apply BitVec.eq_of_toNat_eq
  unfold rotl
  rw [BitVec.toNat_or, BitVec.toNat_shiftLeft, BitVec.toNat_ushiftRight, Nat.shiftRight_eq_div_pow]
  have hl : A.toNat / 2 ^ (32 - n) < 2 ^ n := by
    rw [Nat.div_lt_iff_lt_mul (by positivity), ← pow_add]
    have : n + (32 - n) = 32 := by omega
    rw [this]; exact A.isLt
  have e : A.toNat <<< n % 2 ^ 32 = (A.toNat % 2 ^ (32 - n)) <<< n := by
    rw [Nat.shiftLeft_eq, Nat.shiftLeft_eq]
    have : (2:Nat)^32 = 2 ^ (32 - n) * 2 ^ n := by rw [← pow_add]; congr 1; omega
    rw [this, Nat.mul_mod_mul_right]
  rw [← Nat.shiftLeft_eq A.toNat n, BitVec.toNat_ofNat, e, ← Nat.shiftLeft_add_eq_or_of_lt hl]
  have : (A.toNat % 2 ^ (32 - n)) <<< n + A.toNat / 2 ^ (32 - n) < 2 ^ 32 := by
    rw [Nat.shiftLeft_add_eq_or_of_lt hl]
    apply Nat.or_lt_two_pow
    · rw [← e]; exact Nat.mod_lt _ (by norm_num)
    · have := A.isLt; have := Nat.div_le_self A.toNat (2 ^ (32 - n)); omega
  exact (Nat.mod_eq_of_lt this).symm

theorem rotr_eq (A : Word) (n : Nat) (h : n ≤ 31) :
    rotr A n = BitVec.ofNat 32 (A.toNat / 2 ^ n + A.toNat * 2 ^ (32 - n) % 2 ^ 32) := by
  rcases Nat.eq_zero_or_pos n with rfl | hp
  · unfold rotr; simp
  have h2 := rotl_eq A (32 - n) (by omega)
  have : 32 - (32 - n) = n := by omega
  rw [this, Nat.add_comm] at h2
  rw [← h2]
  unfold rotr rotl
  rw [this]
  apply BitVec.eq_of_toNat_eq
  rw [BitVec.toNat_or, BitVec.toNat_or, Nat.or_comm]

/-! ### Flags -/

/-- The value with one flag's bit has that bit and no other. -/
theorem flagBit_getLsbD (p q : Fin 32) (f : Bool) : (flagBit p f).getLsbD q.val = (decide (q = p) && f) := by
  unfold flagBit
  cases f
  · simp
  · revert p q
    decide

end Sys2Proof.Machine
end

