-- ==== Sys2Proof/Laws/PerInstr.lean ====
section
/-! SUPPORT. Per instruction: the word of a well-formed instruction decodes to the instruction (30_encoding.md R105 to R108), in
the spelling the decoder reports (R111). -/

-- One proof at a time: many at once take more threads than the check gives.
set_option Elab.async false

namespace Sys2Proof.Laws.RoundTrip

/-- The instruction's word decodes to it. -/
def Statement (i : Instr) : Prop := i.wellFormed = true → decodeWord (encode i) = .ok (canonical i)

theorem add (w a b : RegNum) : Statement (.add w a b) := by
  intro _
  simp [encode, decodeWord, fmtWAB, accept, canonical]

theorem addi (w a : RegNum) (k : Const) : Statement (.addi w a k) := by
  intro _
  simp [encode, decodeWord, fmtWAK, accept, canonical]

theorem sub (w a b : RegNum) : Statement (.sub w a b) := by
  intro _
  simp [encode, decodeWord, fmtWAB, accept, canonical]

theorem subi (w a : RegNum) (k : Const) : Statement (.subi w a k) := by
  intro _
  simp [encode, decodeWord, fmtWAK, accept, canonical]

theorem mul (w a b : RegNum) : Statement (.mul w a b) := by
  intro _
  simp [encode, decodeWord, fmtWAB, accept, canonical]

theorem muli (w a : RegNum) (k : Const) : Statement (.muli w a k) := by
  intro _
  simp [encode, decodeWord, fmtWAK, accept, canonical]

theorem prod (w : RegNum) : Statement (.prod w) := by
  intro _
  simp [encode, decodeWord, fmtW, accept, canonical]

theorem div (w a b : RegNum) : Statement (.div w a b) := by
  intro _
  simp [encode, decodeWord, fmtWAB, accept, canonical]

theorem divi (w a : RegNum) (k : Const) : Statement (.divi w a k) := by
  intro _
  simp [encode, decodeWord, fmtWAK, accept, canonical]

theorem div64p (a : RegNum) : Statement (.div64p a) := by
  intro _
  simp [encode, decodeWord, fmtA, accept, canonical]

theorem mod (w : RegNum) : Statement (.mod w) := by
  intro _
  simp [encode, decodeWord, fmtW, accept, canonical]

theorem mulfp (w a b : RegNum) : Statement (.mulfp w a b) := by
  intro _
  simp [encode, decodeWord, fmtWAB, accept, canonical]

theorem mulfpi (w a : RegNum) (k : Const) : Statement (.mulfpi w a k) := by
  intro _
  simp [encode, decodeWord, fmtWAK, accept, canonical]

theorem divfp (w a b : RegNum) : Statement (.divfp w a b) := by
  intro _
  simp [encode, decodeWord, fmtWAB, accept, canonical]

theorem divfpi (w a : RegNum) (k : Const) : Statement (.divfpi w a k) := by
  intro _
  simp [encode, decodeWord, fmtWAK, accept, canonical]

theorem and (w a b : RegNum) : Statement (.and w a b) := by
  intro _
  simp [encode, decodeWord, fmtWAB, accept, canonical]

theorem andi (w a : RegNum) (k : Const) : Statement (.andi w a k) := by
  intro _
  simp [encode, decodeWord, fmtWAK, accept, canonical]

theorem or (w a b : RegNum) : Statement (.or w a b) := by
  intro _
  simp [encode, decodeWord, fmtWAB, accept, canonical]

theorem ori (w a : RegNum) (k : Const) : Statement (.ori w a k) := by
  intro _
  simp [encode, decodeWord, fmtWAK, accept, canonical]

theorem xor (w a b : RegNum) : Statement (.xor w a b) := by
  intro _
  simp [encode, decodeWord, fmtWAB, accept, canonical]

theorem xori (w a : RegNum) (k : Const) : Statement (.xori w a k) := by
  intro _
  simp [encode, decodeWord, fmtWAK, accept, canonical]

theorem xnor (w a b : RegNum) : Statement (.xnor w a b) := by
  intro _
  simp [encode, decodeWord, fmtWAB, accept, canonical]

theorem xnori (w a : RegNum) (k : Const) : Statement (.xnori w a k) := by
  intro _
  simp [encode, decodeWord, fmtWAK, accept, canonical]

theorem shl (w a b : RegNum) : Statement (.shl w a b) := by
  intro _
  simp [encode, decodeWord, fmtWAB, accept, canonical]

theorem shli (w a : RegNum) (k : Const) : Statement (.shli w a k) := by
  intro _
  simp [encode, decodeWord, fmtWAK, accept, canonical]

theorem cshl (w a b : RegNum) : Statement (.cshl w a b) := by
  intro _
  simp [encode, decodeWord, fmtWAB, accept, canonical]

theorem cshli (w a : RegNum) (k : Const) : Statement (.cshli w a k) := by
  intro _
  simp [encode, decodeWord, fmtWAK, accept, canonical]

theorem shr (w a b : RegNum) : Statement (.shr w a b) := by
  intro _
  simp [encode, decodeWord, fmtWAB, accept, canonical]

theorem shri (w a : RegNum) (k : Const) : Statement (.shri w a k) := by
  intro _
  simp [encode, decodeWord, fmtWAK, accept, canonical]

theorem cshr (w a b : RegNum) : Statement (.cshr w a b) := by
  intro _
  simp [encode, decodeWord, fmtWAB, accept, canonical]

theorem cshri (w a : RegNum) (k : Const) : Statement (.cshri w a k) := by
  intro _
  simp [encode, decodeWord, fmtWAK, accept, canonical]

theorem shar (w a b : RegNum) : Statement (.shar w a b) := by
  intro _
  simp [encode, decodeWord, fmtWAB, accept, canonical]

theorem shari (w a : RegNum) (k : Const) : Statement (.shari w a k) := by
  intro _
  simp [encode, decodeWord, fmtWAK, accept, canonical]

theorem seq (w a b : RegNum) : Statement (.seq w a b) := by
  intro _
  simp [encode, decodeWord, fmtWAB, accept, canonical]

theorem seqi (w a : RegNum) (k : Const) : Statement (.seqi w a k) := by
  intro _
  simp [encode, decodeWord, fmtWAK, accept, canonical]

theorem sne (w a b : RegNum) : Statement (.sne w a b) := by
  intro _
  simp [encode, decodeWord, fmtWAB, accept, canonical]

theorem snei (w a : RegNum) (k : Const) : Statement (.snei w a k) := by
  intro _
  simp [encode, decodeWord, fmtWAK, accept, canonical]

theorem slt (w a b : RegNum) : Statement (.slt w a b) := by
  intro _
  simp [encode, decodeWord, fmtWAB, accept, canonical]

theorem slti (w a : RegNum) (k : Const) : Statement (.slti w a k) := by
  intro _
  simp [encode, decodeWord, fmtWAK, accept, canonical]

theorem sgt (w a b : RegNum) : Statement (.sgt w a b) := by
  intro _
  simp [encode, decodeWord, fmtWAB, accept, canonical]

theorem sgti (w a : RegNum) (k : Const) : Statement (.sgti w a k) := by
  intro _
  simp [encode, decodeWord, fmtWAK, accept, canonical]

theorem sle (w a b : RegNum) : Statement (.sle w a b) := by
  intro _
  simp [encode, decodeWord, fmtWAB, accept, canonical]

theorem slei (w a : RegNum) (k : Const) : Statement (.slei w a k) := by
  intro _
  simp [encode, decodeWord, fmtWAK, accept, canonical]

theorem sge (w a b : RegNum) : Statement (.sge w a b) := by
  intro _
  simp [encode, decodeWord, fmtWAB, accept, canonical]

theorem sgei (w a : RegNum) (k : Const) : Statement (.sgei w a k) := by
  intro _
  simp [encode, decodeWord, fmtWAK, accept, canonical]

theorem beqz (a : RegNum) (k : Const) : Statement (.beqz a k) := by
  intro _
  simp [encode, decodeWord, fmtAK, accept, canonical]

theorem bnez (a : RegNum) (k : Const) : Statement (.bnez a k) := by
  intro _
  simp [encode, decodeWord, fmtAK, accept, canonical]

theorem jmp (k : Const) : Statement (.jmp k) := by
  intro _
  simp [encode, decodeWord, fmtAK, accept, canonical]

theorem ret (b : RegNum) : Statement (.ret b) := by
  intro _
  simp [encode, decodeWord, fmtB, accept, canonical]

theorem jmpr (b : RegNum) : Statement (.jmpr b) := by
  intro _
  simp [encode, decodeWord, fmtB, accept, canonical]

theorem jal (w : RegNum) (k : Const) : Statement (.jal w k) := by
  intro _
  simp [encode, decodeWord, fmtWK, accept, canonical]

theorem jalr (w b : RegNum) : Statement (.jalr w b) := by
  intro _
  simp [encode, decodeWord, fmtWB, accept, canonical]

theorem start (k : Const) : Statement (.start k) := by
  intro _
  simp [encode, decodeWord, fmtK, accept, canonical]

theorem startr (b : RegNum) : Statement (.startr b) := by
  intro _
  simp [encode, decodeWord, fmtB, accept, canonical]

theorem load (w a : RegNum) (k : Const) : Statement (.load w a k) := by
  intro _
  simp [encode, decodeWord, fmtWAK, accept, canonical]

theorem store (b a : RegNum) (k : Const) : Statement (.store b a k) := by
  intro _
  simp [encode, decodeWord, fmtWAK, accept, canonical]

theorem lregs (n : Nib) (a : RegNum) (k : Const) : Statement (.lregs n a k) := by
  intro h
  simp only [Instr.wellFormed, bne_iff_ne, ne_eq] at h
  simp [encode, decodeWord, fmtNAK, canonical, h]

theorem sregs (n : Nib) (a : RegNum) (k : Const) : Statement (.sregs n a k) := by
  intro h
  simp only [Instr.wellFormed, bne_iff_ne, ne_eq] at h
  simp [encode, decodeWord, fmtNAK, canonical, h]

theorem smp (b : RegNum) : Statement (.smp b) := by
  intro _
  simp [encode, decodeWord, fmtB, accept, canonical]

theorem smpi (k : Const) : Statement (.smpi k) := by
  intro _
  simp [encode, decodeWord, fmtK, accept, canonical]

theorem inp (w : RegNum) (k : Const) : Statement (.inp w k) := by
  intro _
  simp [encode, decodeWord, fmtWK, accept, canonical]

theorem inr (w b : RegNum) : Statement (.inr w b) := by
  intro _
  simp [encode, decodeWord, fmtWB, accept, canonical]

theorem out (a : RegNum) (k : Const) : Statement (.out a k) := by
  intro _
  simp [encode, decodeWord, fmtAK, accept, canonical]

theorem outr (a b : RegNum) : Statement (.outr a b) := by
  intro _
  simp [encode, decodeWord, fmtAB, accept, canonical]

theorem eni : Statement .eni := by
  intro _
  simp [encode, decodeWord, fmtNone, accept, canonical]

theorem dei : Statement .dei := by
  intro _
  simp [encode, decodeWord, fmtNone, accept, canonical]

theorem sisa (a b : RegNum) : Statement (.sisa a b) := by
  intro _
  simp [encode, decodeWord, fmtAB, accept, canonical]

theorem sisai (a : RegNum) (k : Const) : Statement (.sisai a k) := by
  intro _
  simp [encode, decodeWord, fmtAK, accept, canonical]

theorem reti : Statement .reti := by
  intro _
  simp [encode, decodeWord, fmtNone, accept, canonical]

theorem llea (w : RegNum) : Statement (.llea w) := by
  intro _
  simp [encode, decodeWord, fmtW, accept, canonical]

theorem lira (w : RegNum) : Statement (.lira w) := by
  intro _
  simp [encode, decodeWord, fmtW, accept, canonical]

theorem lflags (w : RegNum) : Statement (.lflags w) := by
  intro _
  simp [encode, decodeWord, fmtW, accept, canonical]

theorem sflags (b : RegNum) : Statement (.sflags b) := by
  intro _
  simp [encode, decodeWord, fmtB, accept, canonical]

theorem sflagsi (k : Const) : Statement (.sflagsi k) := by
  intro _
  simp [encode, decodeWord, fmtK, accept, canonical]

theorem sleep : Statement .sleep := by
  intro _
  simp [encode, decodeWord, fmtNone, accept, canonical]

theorem ldsi (w : RegNum) (k : Const) : Statement (.ldsi w k) := by
  intro _
  simp [encode, decodeWord, fmtWK, accept, canonical]

theorem ldui (w : RegNum) (k : Const) : Statement (.ldui w k) := by
  intro _
  simp [encode, decodeWord, fmtWK, accept, canonical]

theorem ld (w a : RegNum) : Statement (.ld w a) := by
  intro _
  simp [encode, decodeWord, fmtWA, accept, canonical]

end Sys2Proof.Laws.RoundTrip
end

