-- ==== Sys2Proof/Laws/Run.lean ====
section
/-! SUPPORT. What a run to its end is, said once: the first state END_OF_RUN accepts on the machine's own run. -/

namespace Sys2Proof.Machine

/-- A run that has ended already. -/
theorem runToEnd_of_ended {ended : EndOfRun} {s : State} (n : Nat) (h : ended s = true) : runToEnd ended n s = some s := by
  cases n <;> simp [runToEnd, h]

/-- A run that goes on runs from the next state. -/
theorem runToEnd_succ {ended : EndOfRun} {s t : State} (n : Nat) (h : ended s = false) (ht : step s = .next t) :
    runToEnd ended (n + 1) s = runToEnd ended n t := by
  simp [runToEnd, h, ht]

/-- A run of k + 1 steps is a step and a run of k steps, on any machine. -/
theorem core_run_succ (M : Host.Core) {s u : M.State} {k : Nat} :
    M.run (k + 1) s = .next u ↔ ∃ t, M.step s = .next t ∧ M.run k t = .next u := by
  rw [Host.Core.run]
  cases M.step s <;> simp

/-- The machine's run makes its first step by step. -/
theorem run_succ {s u : State} {k : Nat} :
    Sys2Proof.core.run (k + 1) s = .next u ↔ ∃ t, step s = .next t ∧ Sys2Proof.core.run k t = .next u :=
  core_run_succ Sys2Proof.core

/-- A run ends in t exactly if the machine comes to t after some m of the n steps, t is an end, and no state before it is
one. -/
theorem runToEnd_eq_some_iff {ended : EndOfRun} {n : Nat} {s t : State} :
    runToEnd ended n s = some t ↔
      ∃ m, m ≤ n ∧ Sys2Proof.core.run m s = .next t ∧ ended t = true ∧
        ∀ k u, k < m → Sys2Proof.core.run k s = .next u → ended u = false := by
  induction n generalizing s with
  | zero =>
    constructor
    · intro h
      cases he : ended s <;> simp [runToEnd, he] at h
      subst h
      exact ⟨0, Nat.le_refl 0, rfl, he, fun k u hk => absurd hk (Nat.not_lt_zero k)⟩
    · rintro ⟨m, hm, hr, he, -⟩
      obtain rfl : m = 0 := by omega
      cases hr
      exact runToEnd_of_ended 0 he
  | succ n ih =>
    cases he : ended s with
    | true =>
      rw [runToEnd_of_ended _ he]
      constructor
      · intro h
        cases h
        exact ⟨0, Nat.zero_le _, rfl, he, fun k u hk => absurd hk (Nat.not_lt_zero k)⟩
      · rintro ⟨m, -, hr, -, hb⟩
        cases m with
        | zero => cases hr; rfl
        | succ m => exact absurd (hb 0 s (Nat.succ_pos m) rfl) (by simp [he])
    | false =>
      constructor
      · intro h
        cases hs : step s with
        | next u =>
          rw [runToEnd_succ n he hs] at h
          obtain ⟨m, hm, hr, hend, hb⟩ := ih.mp h
          refine ⟨m + 1, Nat.succ_le_succ hm, run_succ.mpr ⟨u, hs, hr⟩, hend, ?_⟩
          intro k v hk hv
          cases k with
          | zero => cases hv; exact he
          | succ k =>
            obtain ⟨u', hu, hv⟩ := run_succ.mp hv
            obtain rfl : u = u' := by rw [hs] at hu; injection hu
            exact hb k v (Nat.lt_of_succ_lt_succ hk) hv
        | fault r => simp [runToEnd, he, hs] at h
        | refused r => simp [runToEnd, he, hs] at h
      · rintro ⟨m, hm, hr, hend, hb⟩
        cases m with
        | zero => cases hr; rw [he] at hend; cases hend
        | succ m =>
          obtain ⟨u, hs, hr⟩ := run_succ.mp hr
          rw [runToEnd_succ n he hs]
          exact ih.mpr ⟨m, Nat.le_of_succ_le_succ hm, hr, hend,
            fun k v hk hv => hb (k + 1) v (Nat.succ_lt_succ hk) (run_succ.mpr ⟨u, hs, hv⟩)⟩

end Sys2Proof.Machine

namespace Sys2Proof.Safety

open Sys2Proof.Machine

/-- What the record of a good state names. -/
theorem recordsOnlyCode_iff {s : State} :
    recordsOnlyCode s = true ↔ ∀ a ∈ s.codeStores, (s.prog.read a.toNat).isSome = true := by
  simp [recordsOnlyCode]

/-- A program has spared its code exactly if no store is on record. -/
theorem sparesCode_iff {s : State} : sparesCode s = true ↔ s.codeStores = [] := by
  simp [sparesCode]

/-- A good run of n steps comes to a state with no store into code on record. -/
theorem runsFor_iff {n : Nat} {s : State} :
    runsFor n s = true ↔ ∃ t, Sys2Proof.core.run n s = .next t ∧ t.codeStores = [] := by
  unfold runsFor
  cases Sys2Proof.core.run n s with
  | next t => exact sparesCode_iff.trans ⟨fun h => ⟨t, rfl, h⟩, fun ⟨_, e, h⟩ => by cases e; exact h⟩
  | fault r => exact ⟨fun h => (nomatch h), fun ⟨_, e, _⟩ => (nomatch e)⟩
  | refused r => exact ⟨fun h => (nomatch h), fun ⟨_, e, _⟩ => (nomatch e)⟩

/-- A run that ends well ends in a state with no store into code on record. -/
theorem endsWithin_iff {ended : EndOfRun} {n : Nat} {s : State} :
    endsWithin ended n s = true ↔ ∃ t, runToEnd ended n s = some t ∧ t.codeStores = [] := by
  unfold endsWithin
  cases runToEnd ended n s <;> simp [sparesCode_iff]

end Sys2Proof.Safety
end

