-- ==== Sys2Proof/Laws/Step.lean ====
section
/-! SUPPORT. What a step can do, said once: an environment step, waiting, taking an interrupt, running an instruction, or
stopping at the fetch. -/

namespace Sys2Proof.Machine

/-- The state whose schedule has moved on by one slot. -/
def State.nextSlot (s : State) : State := s.setSchedule s.schedule.tail

/-- No component makes a request at this step. -/
abbrev State.noRequest (s : State) : Prop := ∀ p rest, s.schedule ≠ .request p :: rest

/-- Where no component makes a request, the core steps, the schedule moving on. -/
theorem nextAction_of_noRequest {s : State} (h : s.noRequest) : nextAction s = coreAction s.nextSlot := by
  unfold nextAction State.nextSlot
  split
  · rename_i p rest hs; exact absurd hs (h p rest)
  · rename_i rest hs; rw [hs]; rfl
  · rename_i hs
    have : s.setSchedule s.schedule.tail = s := by cases s; simp_all [State.setSchedule]
    rw [this]

/-- Everything a core step can do (60_exceptions.md R300). -/
theorem coreAction_cases (s : State) :
    (s.asleep = true ∧ coreAction s = .over (.next s)) ∨
    (∃ i, s.asleep = false ∧ s.interruptToTake = some i ∧ coreAction s = .over (.next (takeInterrupt i s))) ∨
    (s.asleep = false ∧ s.interruptToTake = none ∧ s.fetch = none ∧ coreAction s = .over (.fault .fetchOutsideProgram)) ∨
    (∃ x, s.asleep = false ∧ s.interruptToTake = none ∧ s.fetch = some x ∧ s.pc ∈ s.codeStores ∧
      coreAction s = .over (.refused .ownCodeStored)) ∨
    (∃ x i, s.asleep = false ∧ s.interruptToTake = none ∧ s.fetch = some x ∧ s.pc ∉ s.codeStores ∧ decodeWord x = .ok i ∧
      coreAction s = .run i s) ∨
    (∃ x e, s.asleep = false ∧ s.interruptToTake = none ∧ s.fetch = some x ∧ s.pc ∉ s.codeStores ∧
      decodeWord x = .error e ∧ coreAction s = .over (.refused (.invalidWord e))) := by
  unfold coreAction done
  cases ha : s.asleep
  · cases hi : s.interruptToTake with
    | some i => exact .inr (.inl ⟨i, rfl, rfl, by simp⟩)
    | none =>
      cases hf : s.fetch with
      | none => exact .inr (.inr (.inl ⟨rfl, rfl, rfl, by simp⟩))
      | some x =>
        by_cases hc : s.pc ∈ s.codeStores
        · exact .inr (.inr (.inr (.inl ⟨x, rfl, rfl, rfl, hc, by simp [hc]⟩)))
        · cases hd : decodeWord x with
          | ok i => exact .inr (.inr (.inr (.inr (.inl ⟨x, i, rfl, rfl, rfl, hc, hd, by simp [hc, hd]⟩))))
          | error e => exact .inr (.inr (.inr (.inr (.inr ⟨x, e, rfl, rfl, rfl, hc, hd, by simp [hc, hd]⟩))))
  · exact .inl ⟨rfl, by simp⟩

/-- If a step answers next t, it was one of these four. -/
theorem step_cases {s t : State} (h : step s = .next t) :
    (∃ p rest, s.schedule = .request p :: rest ∧ t = envRequest p (s.setSchedule rest)) ∨
    (s.noRequest ∧ s.asleep = true ∧ t = s.nextSlot) ∨
    (∃ i, s.noRequest ∧ s.asleep = false ∧ s.nextSlot.interruptToTake = some i ∧ t = takeInterrupt i s.nextSlot) ∨
    (∃ x i, s.noRequest ∧ s.asleep = false ∧ s.nextSlot.interruptToTake = none ∧ s.nextSlot.fetch = some x ∧
      s.pc ∉ s.codeStores ∧ decodeWord x = .ok i ∧ exec i s.nextSlot = .next t) := by
  by_cases hr : s.noRequest
  · right
    unfold step at h
    rw [nextAction_of_noRequest hr] at h
    rcases coreAction_cases s.nextSlot with ⟨ha, hc⟩ | ⟨i, ha, hi, hc⟩ | ⟨_, _, _, hc⟩ |
      ⟨x, _, _, _, _, hc⟩ | ⟨x, i, ha, hi, hf, hn, hd, hc⟩ | ⟨x, e, _, _, _, _, _, hc⟩ <;> rw [hc] at h
    · cases h; exact .inl ⟨hr, ha, rfl⟩
    · cases h; exact .inr (.inl ⟨i, hr, ha, hi, rfl⟩)
    · cases h
    · cases h
    · exact .inr (.inr ⟨x, i, hr, ha, hi, hf, hn, hd, h⟩)
    · cases h
  · left
    have : ∃ p rest, s.schedule = .request p :: rest := by
      by_contra hn
      exact hr (fun p rest e => hn ⟨p, rest, e⟩)
    obtain ⟨p, rest, hs⟩ := this
    refine ⟨p, rest, hs, ?_⟩
    simp only [step, nextAction, hs, done] at h
    cases h; rfl

end Sys2Proof.Machine
end

