-- ==== Sys2Proof/Tests/Slice0.lean ====
section
/-! SUPPORT. Tests: ill-formed terms are refused; every instruction's word, written out from 30_encoding.md R107 and R108,
decodes; single steps on the values of 95_test_vectors.md; a state and operands that meet the hypotheses of each statement. -/

-- One proof at a time: many at once take more threads than the check gives.
set_option Elab.async false

namespace Sys2Proof.Tests

open Sys2Proof Sys2Proof.Machine Sys2Proof.Safety

/-! ### Ill-formed instructions (R104, R107) -/

theorem test_lregs_count_zero_is_ill_formed : (Instr.lregs 0 4 0#16).wellFormed = false := by decide

theorem test_sregs_count_zero_is_ill_formed : (Instr.sregs 0 4 0#16).wellFormed = false := by decide

theorem test_block_counts_one_and_fifteen_are_well_formed :
    (Instr.lregs 1 4 0#16).wellFormed = true ∧ (Instr.sregs 15 4 0#16).wellFormed = true := by decide

/-! ### Words: OP from R108, w = 3 (count 3), a = 1, b = 2, k = 0x8001, fields placed as R105 and R107 say -/

theorem test_decode_add : decodeWord 0x01312000#32 = .ok (.add 3 1 2) := by decide

theorem test_decode_addi : decodeWord 0x81318001#32 = .ok (.addi 3 1 0x8001#16) := by decide

theorem test_decode_sub : decodeWord 0x02312000#32 = .ok (.sub 3 1 2) := by decide

theorem test_decode_subi : decodeWord 0x82318001#32 = .ok (.subi 3 1 0x8001#16) := by decide

theorem test_decode_mul : decodeWord 0x03312000#32 = .ok (.mul 3 1 2) := by decide

theorem test_decode_muli : decodeWord 0x83318001#32 = .ok (.muli 3 1 0x8001#16) := by decide

theorem test_decode_prod : decodeWord 0x20300000#32 = .ok (.prod 3) := by decide

theorem test_decode_div : decodeWord 0x04312000#32 = .ok (.div 3 1 2) := by decide

theorem test_decode_divi : decodeWord 0x84318001#32 = .ok (.divi 3 1 0x8001#16) := by decide

theorem test_decode_div64p : decodeWord 0x22010000#32 = .ok (.div64p 1) := by decide

theorem test_decode_mod : decodeWord 0x21300000#32 = .ok (.mod 3) := by decide

theorem test_decode_mulfp : decodeWord 0x05312000#32 = .ok (.mulfp 3 1 2) := by decide

theorem test_decode_mulfpi : decodeWord 0x85318001#32 = .ok (.mulfpi 3 1 0x8001#16) := by decide

theorem test_decode_divfp : decodeWord 0x06312000#32 = .ok (.divfp 3 1 2) := by decide

theorem test_decode_divfpi : decodeWord 0x86318001#32 = .ok (.divfpi 3 1 0x8001#16) := by decide

theorem test_decode_and : decodeWord 0x07312000#32 = .ok (.and 3 1 2) := by decide

theorem test_decode_andi : decodeWord 0x87318001#32 = .ok (.andi 3 1 0x8001#16) := by decide

theorem test_decode_or : decodeWord 0x08312000#32 = .ok (.or 3 1 2) := by decide

theorem test_decode_ori : decodeWord 0x88318001#32 = .ok (.ori 3 1 0x8001#16) := by decide

theorem test_decode_xor : decodeWord 0x09312000#32 = .ok (.xor 3 1 2) := by decide

theorem test_decode_xori : decodeWord 0x89318001#32 = .ok (.xori 3 1 0x8001#16) := by decide

theorem test_decode_xnor : decodeWord 0x0A312000#32 = .ok (.xnor 3 1 2) := by decide

theorem test_decode_xnori : decodeWord 0x8A318001#32 = .ok (.xnori 3 1 0x8001#16) := by decide

theorem test_decode_shl : decodeWord 0x0B312000#32 = .ok (.shl 3 1 2) := by decide

theorem test_decode_shli : decodeWord 0x8B318001#32 = .ok (.shli 3 1 0x8001#16) := by decide

theorem test_decode_cshl : decodeWord 0x0C312000#32 = .ok (.cshl 3 1 2) := by decide

theorem test_decode_cshli : decodeWord 0x8C318001#32 = .ok (.cshli 3 1 0x8001#16) := by decide

theorem test_decode_shr : decodeWord 0x0D312000#32 = .ok (.shr 3 1 2) := by decide

theorem test_decode_shri : decodeWord 0x8D318001#32 = .ok (.shri 3 1 0x8001#16) := by decide

theorem test_decode_cshr : decodeWord 0x0E312000#32 = .ok (.cshr 3 1 2) := by decide

theorem test_decode_cshri : decodeWord 0x8E318001#32 = .ok (.cshri 3 1 0x8001#16) := by decide

theorem test_decode_shar : decodeWord 0x0F312000#32 = .ok (.shar 3 1 2) := by decide

theorem test_decode_shari : decodeWord 0x8F318001#32 = .ok (.shari 3 1 0x8001#16) := by decide

theorem test_decode_seq : decodeWord 0x10312000#32 = .ok (.seq 3 1 2) := by decide

theorem test_decode_seqi : decodeWord 0x90318001#32 = .ok (.seqi 3 1 0x8001#16) := by decide

theorem test_decode_sne : decodeWord 0x11312000#32 = .ok (.sne 3 1 2) := by decide

theorem test_decode_snei : decodeWord 0x91318001#32 = .ok (.snei 3 1 0x8001#16) := by decide

theorem test_decode_slt : decodeWord 0x12312000#32 = .ok (.slt 3 1 2) := by decide

theorem test_decode_slti : decodeWord 0x92318001#32 = .ok (.slti 3 1 0x8001#16) := by decide

theorem test_decode_sgt : decodeWord 0x13312000#32 = .ok (.sgt 3 1 2) := by decide

theorem test_decode_sgti : decodeWord 0x93318001#32 = .ok (.sgti 3 1 0x8001#16) := by decide

theorem test_decode_sle : decodeWord 0x14312000#32 = .ok (.sle 3 1 2) := by decide

theorem test_decode_slei : decodeWord 0x94318001#32 = .ok (.slei 3 1 0x8001#16) := by decide

theorem test_decode_sge : decodeWord 0x15312000#32 = .ok (.sge 3 1 2) := by decide

theorem test_decode_sgei : decodeWord 0x95318001#32 = .ok (.sgei 3 1 0x8001#16) := by decide

theorem test_decode_beqz : decodeWord 0xB0018001#32 = .ok (.beqz 1 0x8001#16) := by decide

theorem test_decode_bnez : decodeWord 0xB1018001#32 = .ok (.bnez 1 0x8001#16) := by decide

theorem test_decode_jmpr : decodeWord 0x32002000#32 = .ok (.jmpr 2) := by decide

theorem test_decode_jal : decodeWord 0xB3308001#32 = .ok (.jal 3 0x8001#16) := by decide

theorem test_decode_jalr : decodeWord 0x33302000#32 = .ok (.jalr 3 2) := by decide

theorem test_decode_start : decodeWord 0xB4008001#32 = .ok (.start 0x8001#16) := by decide

theorem test_decode_startr : decodeWord 0x34002000#32 = .ok (.startr 2) := by decide

theorem test_decode_load : decodeWord 0xC0318001#32 = .ok (.load 3 1 0x8001#16) := by decide

theorem test_decode_store : decodeWord 0xC1218001#32 = .ok (.store 2 1 0x8001#16) := by decide

theorem test_decode_lregs : decodeWord 0xC2318001#32 = .ok (.lregs 3 1 0x8001#16) := by decide

theorem test_decode_sregs : decodeWord 0xC3318001#32 = .ok (.sregs 3 1 0x8001#16) := by decide

theorem test_decode_smp : decodeWord 0x27002000#32 = .ok (.smp 2) := by decide

theorem test_decode_smpi : decodeWord 0xA7008001#32 = .ok (.smpi 0x8001#16) := by decide

theorem test_decode_inp : decodeWord 0xD0308001#32 = .ok (.inp 3 0x8001#16) := by decide

theorem test_decode_inr : decodeWord 0x50302000#32 = .ok (.inr 3 2) := by decide

theorem test_decode_out : decodeWord 0xD1018001#32 = .ok (.out 1 0x8001#16) := by decide

theorem test_decode_outr : decodeWord 0x51012000#32 = .ok (.outr 1 2) := by decide

theorem test_decode_eni : decodeWord 0x60000000#32 = .ok .eni := by decide

theorem test_decode_dei : decodeWord 0x61000000#32 = .ok .dei := by decide

theorem test_decode_sisa : decodeWord 0x63012000#32 = .ok (.sisa 1 2) := by decide

theorem test_decode_sisai : decodeWord 0xE3018001#32 = .ok (.sisai 1 0x8001#16) := by decide

theorem test_decode_reti : decodeWord 0x62000000#32 = .ok .reti := by decide

theorem test_decode_llea : decodeWord 0x23300000#32 = .ok (.llea 3) := by decide

theorem test_decode_lira : decodeWord 0x24300000#32 = .ok (.lira 3) := by decide

theorem test_decode_lflags : decodeWord 0x25300000#32 = .ok (.lflags 3) := by decide

theorem test_decode_sflags : decodeWord 0x26002000#32 = .ok (.sflags 2) := by decide

theorem test_decode_sflagsi : decodeWord 0xA6008001#32 = .ok (.sflagsi 0x8001#16) := by decide

theorem test_decode_sleep : decodeWord 0x64000000#32 = .ok .sleep := by decide

theorem test_decode_ldsi : decodeWord 0xF0308001#32 = .ok (.ldsi 3 0x8001#16) := by decide

theorem test_decode_ldui : decodeWord 0xF1308001#32 = .ok (.ldui 3 0x8001#16) := by decide

theorem test_decode_ld : decodeWord 0x70310000#32 = .ok (.ld 3 1) := by decide

/-- JMP #7 has the word of BEQZ r0,#7, RET b that of JMPR b; the decoder reports JMP and JMPR (R111, log 12). -/
theorem test_decode_jmp : decodeWord 0xB0000007#32 = .ok (.jmp 7#16) ∧ encode (.beqz 0 7#16) = 0xB0000007#32 := by decide

theorem test_decode_ret : decodeWord 0x32001000#32 = .ok (.jmpr 1) ∧ encode (.ret 1) = 0x32001000#32 := by decide

/-- The invalid words of 95_test_vectors.md section 4. -/
theorem test_decode_invalid :
    decodeWord 0x00000000#32 = .error .unassignedOp ∧ decodeWord 0xFFFFFFFF#32 = .error .unassignedOp ∧
    decodeWord 0x01312001#32 = .error .nonzeroUnusedField ∧ decodeWord 0x16312000#32 = .error .unassignedOp ∧
    decodeWord 0xC20F0000#32 = .error .countZero ∧ decodeWord 0x60000001#32 = .error .nonzeroUnusedField ∧
    decodeWord 0x20410000#32 = .error .nonzeroUnusedField ∧ decodeWord 0xB0100007#32 = .error .nonzeroUnusedField ∧
    decodeWord 0x32101000#32 = .error .nonzeroUnusedField ∧ decodeWord 0x70540001#32 = .error .nonzeroUnusedField := by
  decide

theorem test_decode_block_of_fifteen : decodeWord 0xC2FF0000#32 = .ok (.lregs 15 15 0#16) := by decide

/-- A byte file holds bits 31:24 first; three bytes are no instruction (R106). -/
theorem test_decode_bytes :
    decodeBytes [0x01#8, 0x31#8, 0x20#8, 0x00#8, 0x60#8] = .ok (.add 3 1 2, [0x60#8]) ∧
    decodeBytes [0x01#8, 0x31#8, 0x20#8] = .error .truncated := by decide

/-! ### Helpers -/

/-- The state after reset with registers set. -/
def regs (l : List (RegNum × Word)) : State := l.foldl (fun s e => s.setReg e.1 e.2) State.reset

/-- A view of the next state, if there is one. -/
def see {α : Type} (o : Host.Outcome State Fault Refusal) (f : State → α) : Option α :=
  match o with
  | .next t => some (f t)
  | .fault _ => none
  | .refused _ => none

/-- The refusal, if there is one. -/
def why (o : Host.Outcome State Fault Refusal) : Option Refusal :=
  match o with
  | .next _ => none
  | .fault _ => none
  | .refused r => some r

/-- The state after reset with words in memory. -/
def mems (l : List (Nat × Word)) (s : State) : State := l.foldl (fun s e => s.setMem (s.mem.write e.1 e.2)) s

/-- A program word at pc. -/
def prog (x : Word) (s : State) : State := s.setProg (s.prog.write s.pc.toNat x)

/-! ### Arithmetic (95_test_vectors.md 2.1 to 2.4) -/

theorem test_add_overflows_signed :
    see (exec (.add 3 1 2) (regs [(1, 0x7FFFFFFF#32), (2, 1#32)])) (fun t => (t.reg 3, t.flags.ovUns, t.flags.ovSgn, t.pc)) =
      some (0x80000000#32, false, true, 1#32) := by decide

/-- A write to r0 is dropped, the flags are written (10_state.md R31, D2). -/
theorem test_add_to_r0_writes_flags :
    see (exec (.add 0 1 2) (regs [(1, 0x80000000#32), (2, 0xFFFFFFFF#32)])) (fun t => (t.regs, t.flags.ovUns, t.flags.ovSgn)) =
      some ((regs [(1, 0x80000000#32), (2, 0xFFFFFFFF#32)]).regs, true, true) := by decide

theorem test_addi_sign_extends :
    see (exec (.addi 3 1 0x8000#16) (regs [(1, 0x10000#32)])) (fun t => (t.reg 3, t.flags.ovUns, t.flags.ovSgn)) =
      some (0x8000#32, true, false) := by decide

theorem test_sub_borrows :
    see (exec (.sub 3 1 2) (regs [(1, 3#32), (2, 5#32)])) (fun t => (t.reg 3, t.flags.ovUns, t.flags.ovSgn)) =
      some (0xFFFFFFFE#32, true, false) := by decide

theorem test_sub_overflows_signed :
    see (exec (.sub 1 1 2) (regs [(1, 0x80000000#32), (2, 1#32)])) (fun t => (t.reg 1, t.flags.ovUns, t.flags.ovSgn)) =
      some (0x7FFFFFFF#32, false, true) := by decide

theorem test_subi_minus_one :
    see (exec (.subi 3 1 0xFFFF#16) (regs [(1, 0x7FFFFFFF#32)])) (fun t => (t.reg 3, t.flags.ovUns, t.flags.ovSgn)) =
      some (0x80000000#32, true, true) := by decide

theorem test_mul_fits_exactly :
    see (exec (.mul 3 1 2) (regs [(1, 0xFFFF8000#32), (2, 0x10000#32)])) (fun t => (t.reg 3, t.rMulHigh, t.flags.ovMul, t.irqHold)) =
      some (0x80000000#32, 0xFFFFFFFF#32, false, true) := by decide

theorem test_mul_fits_unsigned_only :
    see (exec (.mul 3 1 2) (regs [(1, 0x8000#32), (2, 0x10000#32)])) (fun t => (t.reg 3, t.rMulHigh, t.flags.ovMul)) =
      some (0x80000000#32, 0#32, true) := by decide

theorem test_muli_negative :
    see (exec (.muli 3 1 0xFFFE#16) (regs [(1, 3#32)])) (fun t => (t.reg 3, t.rMulHigh, t.flags.ovMul)) =
      some (0xFFFFFFFA#32, 0xFFFFFFFF#32, false) := by decide

theorem test_prod :
    see (exec (.prod 4) ((regs []).setRMulHigh 0x40000000#32)) (fun t => (t.reg 4, t.rMulHigh)) =
      some (0x40000000#32, 0x40000000#32) := by decide

/-- Toward zero, and the remainder has the dividend's sign (D7). -/
theorem test_div_rounds_toward_zero :
    see (exec (.div 5 3 1) (regs [(3, 0xFFFFFFF9#32), (1, 2#32)])) (fun t => (t.reg 5, t.rMod, t.irqHold)) =
      some (0xFFFFFFFD#32, 0xFFFFFFFF#32, true) := by decide

/-- 10^10 / 10^5 with a prepared dividend; the preparation ends. -/
theorem test_div_of_a_prepared_dividend :
    see (exec (.div 5 3 1) (((regs [(3, 0x540BE400#32), (1, 0x186A0#32)]).setRDiv64 2#32).setDiv64Prep true))
      (fun t => (t.reg 5, t.rMod, t.div64Prep)) = some (0x186A0#32, 0#32, false) := by decide

theorem test_divi_negative_divisor :
    see (exec (.divi 3 1 0xFFFE#16) (regs [(1, 7#32)])) (fun t => (t.reg 3, t.rMod)) = some (0xFFFFFFFD#32, 1#32) := by decide

/-- Division by zero completes and requests nothing (D8). -/
theorem test_divi_by_zero_completes :
    see (exec (.divi 3 1 0#16) ((regs [(1, 5#32)]).setDiv64Prep true)) (fun t => (t.div64Prep, t.pendAt 12, t.pc, t.irqHold)) =
      some (false, false, 1#32, true) := by decide

theorem test_div64p :
    see (exec (.div64p 4) (regs [(4, 2#32)])) (fun t => (t.rDiv64, t.div64Prep, t.irqHold)) = some (2#32, true, true) := by
  decide

theorem test_mod :
    see (exec (.mod 6) ((regs []).setRMod 2#32)) (fun t => (t.reg 6, t.rMod)) = some (2#32, 2#32) := by decide

theorem test_mulfp_rounds_down :
    see (exec (.mulfp 3 1 2) (regs [(1, 0xFFFFFFFF#32), (2, 1#32)])) (fun t => (t.reg 3, t.irqHold)) =
      some (0xFFFFFFFF#32, true) := by decide

theorem test_mulfp_wraps :
    see (exec (.mulfp 3 1 2) (regs [(1, 0x7FFF0000#32), (2, 0x20000#32)])) (fun t => t.reg 3) = some 0xFFFE0000#32 := by decide

theorem test_mulfpi_constant_is_a_fraction :
    see (exec (.mulfpi 3 1 2#16) (regs [(1, 0x18000#32)])) (fun t => t.reg 3) = some 3#32 := by decide

theorem test_divfp_rounds_toward_zero :
    see (exec (.divfp 3 1 2) ((regs [(1, 0xFFFF0000#32), (2, 0x30000#32)]).setDiv64Prep true))
      (fun t => (t.reg 3, t.div64Prep, t.irqHold)) = some (0xFFFFAAAB#32, false, false) := by decide

theorem test_divfpi :
    see (exec (.divfpi 3 1 0x4000#16) (regs [(1, 0x10000#32)])) (fun t => t.reg 3) = some 0x40000#32 := by decide

/-- 3.0 / (2/65536) does not fit: the instruction completes. -/
theorem test_divfpi_without_result_completes :
    see (exec (.divfpi 3 1 2#16) (regs [(1, 0x30000#32)])) (fun t => (t.pc, t.irqHold)) = some (1#32, false) := by decide

/-! ### Logic and shifts (2.5, 2.6) -/

def bits : State := regs [(1, 0xF0F0F0F0#32), (2, 0x0FF00FF0#32)]

theorem test_and : see (exec (.and 3 1 2) bits) (fun t => t.reg 3) = some 0x00F000F0#32 := by decide

theorem test_or : see (exec (.or 3 1 2) bits) (fun t => t.reg 3) = some 0xFFF0FFF0#32 := by decide

theorem test_xor : see (exec (.xor 3 1 2) bits) (fun t => t.reg 3) = some 0xFF00FF00#32 := by decide

theorem test_xnor : see (exec (.xnor 3 1 2) bits) (fun t => t.reg 3) = some 0x00FF00FF#32 := by decide

theorem test_andi_zero_extends :
    see (exec (.andi 3 1 0x8000#16) (regs [(1, 0xFFFF8000#32)])) (fun t => t.reg 3) = some 0x8000#32 := by decide

theorem test_ori_zero_extends : see (exec (.ori 3 1 0x8000#16) (regs [])) (fun t => t.reg 3) = some 0x8000#32 := by decide

theorem test_xori :
    see (exec (.xori 3 1 0xFFFF#16) (regs [(1, 0xFFFFFFFF#32)])) (fun t => t.reg 3) = some 0xFFFF0000#32 := by decide

theorem test_xnori :
    see (exec (.xnori 3 1 0xFFFF#16) (regs [(1, 0x12345678#32)])) (fun t => t.reg 3) = some 0xEDCB5678#32 := by decide

theorem test_shl_out_of_the_top :
    see (exec (.shl 3 1 2) (regs [(1, 0x12345678#32), (2, 4#32)])) (fun t => (t.reg 3, t.flags.ovShift)) =
      some (0x23456780#32, true) := by decide

/-- The flag is about bits shifted out, not about the sign (C5). -/
theorem test_shl_sign_change_is_no_overflow :
    see (exec (.shl 3 1 2) (regs [(1, 0x40000000#32), (2, 1#32)])) (fun t => (t.reg 3, t.flags.ovShift)) =
      some (0x80000000#32, false) := by decide

theorem test_shli_by_zero_clears_flag :
    see (exec (.shli 3 1 0#16) ((regs [(1, 0xFFFFFFFF#32)]).setFlags { ovMul := true, ovShift := true, ovUns := true, ovSgn := true }))
      (fun t => (t.reg 3, t.flags)) = some (0xFFFFFFFF#32, { ovMul := true, ovShift := false, ovUns := true, ovSgn := true }) := by
  decide

theorem test_shli_by_32_completes :
    see (exec (.shli 3 1 32#16) (regs [(1, 1#32)])) (fun t => (t.pc, t.reg 1)) = some (1#32, 1#32) := by decide

def rotated : State := regs [(1, 0x80000001#32), (2, 1#32)]

theorem test_cshl : see (exec (.cshl 3 1 2) rotated) (fun t => (t.reg 3, t.flags.ovShift)) = some (3#32, false) := by decide

theorem test_cshr : see (exec (.cshr 3 1 2) rotated) (fun t => t.reg 3) = some 0xC0000000#32 := by decide

theorem test_shr : see (exec (.shr 3 1 2) rotated) (fun t => t.reg 3) = some 0x40000000#32 := by decide

theorem test_shar : see (exec (.shar 3 1 2) rotated) (fun t => t.reg 3) = some 0xC0000000#32 := by decide

theorem test_cshli_by_zero :
    see (exec (.cshli 3 1 0#16) (regs [(1, 0x12345678#32)])) (fun t => t.reg 3) = some 0x12345678#32 := by decide

theorem test_cshri :
    see (exec (.cshri 3 1 4#16) (regs [(1, 0x12345678#32)])) (fun t => t.reg 3) = some 0x81234567#32 := by decide

theorem test_shri :
    see (exec (.shri 3 1 31#16) (regs [(1, 0x80000000#32)])) (fun t => t.reg 3) = some 1#32 := by decide

theorem test_shari :
    see (exec (.shari 3 1 31#16) (regs [(1, 0x80000000#32)])) (fun t => t.reg 3) = some 0xFFFFFFFF#32 := by decide

/-! ### Set-condition (2.7) -/

/-- The two results of a register form for -1 against 1, and for 5 against 5. -/
def two (i : Instr) : Option Word × Option Word :=
  (see (exec i (regs [(1, 0xFFFFFFFF#32), (2, 1#32)])) (fun t => t.reg 3),
   see (exec i (regs [(1, 5#32), (2, 5#32)])) (fun t => t.reg 3))

theorem test_seq : two (.seq 3 1 2) = (some 0, some 1) := by decide

theorem test_sne : two (.sne 3 1 2) = (some 1, some 0) := by decide

theorem test_slt : two (.slt 3 1 2) = (some 1, some 0) := by decide

theorem test_sgt : two (.sgt 3 1 2) = (some 0, some 0) := by decide

theorem test_sle : two (.sle 3 1 2) = (some 1, some 1) := by decide

theorem test_sge : two (.sge 3 1 2) = (some 0, some 1) := by decide

theorem test_seqi_sign_extends :
    see (exec (.seqi 3 1 0xFFFF#16) (regs [(1, 0xFFFFFFFF#32)])) (fun t => t.reg 3) = some 1#32 ∧
    see (exec (.seqi 3 1 0xFFFF#16) (regs [(1, 0xFFFF#32)])) (fun t => t.reg 3) = some 0#32 := by decide

theorem test_snei : see (exec (.snei 3 1 0#16) (regs [])) (fun t => t.reg 3) = some 0#32 := by decide

theorem test_slti :
    see (exec (.slti 3 1 0xFFFF#16) (regs [(1, 0xFFFFFFFE#32)])) (fun t => t.reg 3) = some 1#32 := by decide

theorem test_sgti : see (exec (.sgti 3 1 0x8000#16) (regs [])) (fun t => t.reg 3) = some 1#32 := by decide

theorem test_slei :
    see (exec (.slei 3 1 5#16) (regs [(1, 5#32)])) (fun t => t.reg 3) = some 1#32 ∧
    see (exec (.slei 3 1 5#16) (regs [(1, 6#32)])) (fun t => t.reg 3) = some 0#32 := by decide

theorem test_sgei :
    see (exec (.sgei 3 1 0x8000#16) (regs [(1, 0xFFFF8000#32)])) (fun t => t.reg 3) = some 1#32 := by decide

/-! ### Jumps (2.8) -/

theorem test_beqz_taken_to_illegal_target :
    see (exec (.beqz 1 0x8000#16) (regs [])) (fun t => (t.pc, t.pendAt 15)) = some (0xFFFF8000#32, true) := by decide

theorem test_beqz_not_taken :
    see (exec (.beqz 1 0x8000#16) ((regs [(1, 1#32)]).setPc 10#32)) (fun t => (t.pc, t.pendAt 15)) = some (11#32, false) := by
  decide

theorem test_bnez_taken :
    see (exec (.bnez 1 2#16) ((regs [(1, 0x80000000#32)]).setPc 4#32)) (fun t => t.pc) = some 2#32 := by decide

theorem test_bnez_r0_is_never_taken : see (exec (.bnez 0 2#16) ((regs []).setPc 4#32)) (fun t => t.pc) = some 5#32 := by decide

theorem test_jmp : see (exec (.jmp 0x7FFF#16) (regs [])) (fun t => (t.pc, t.pendAt 15)) = some (0x7FFF#32, false) := by decide

theorem test_jmpr_at_the_limit :
    see (exec (.jmpr 2) (regs [(2, 0xFFFF#32)])) (fun t => (t.pc, t.pendAt 15)) = some (0xFFFF#32, false) ∧
    see (exec (.jmpr 2) (regs [(2, 0x10000#32)])) (fun t => (t.pc, t.pendAt 15)) = some (0x10000#32, true) := by decide

theorem test_ret : see (exec (.ret 1) (regs [(1, 6#32)])) (fun t => t.pc) = some 6#32 := by decide

theorem test_jal_links_past_the_end :
    see (exec (.jal 1 2#16) ((regs []).setPc 0xFFFF#32)) (fun t => (t.reg 1, t.pc)) = some (0x10000#32, 2#32) := by decide

/-- The target is the old register, also when it is the link (D4). -/
theorem test_jalr_same_register :
    see (exec (.jalr 2 2) ((regs [(2, 0x40#32)]).setPc 8#32)) (fun t => (t.reg 2, t.pc)) = some (9#32, 0x40#32) := by decide

theorem test_start :
    see (exec (.start 0#16) ((regs []).setPc 0x300#32)) (fun t => (t.pc, t.bootActive)) = some (0#32, false) := by decide

theorem test_startr_to_illegal_target :
    see (exec (.startr 3) (regs [(3, 0x19000#32)])) (fun t => (t.pc, t.bootActive, t.pendAt 15)) =
      some (0x19000#32, false, true) := by decide

/-! ### Loads and stores (2.9) -/

theorem test_load_same_register :
    see (exec (.load 2 2 1#16) (mems [(0x11, 0x77#32)] (regs [(2, 0x10#32)]))) (fun t => (t.reg 2, t.rLEA, t.pendAt 14)) =
      some (0x77#32, 0x11#32, false) := by decide

theorem test_load_outside_memory :
    see (exec (.load 3 2 0#16) (regs [(2, 0x1000#32)])) (fun t => (t.rLEA, t.pendAt 14, t.pc)) =
      some (0x1000#32, true, 1#32) := by decide

theorem test_store_at_the_bound :
    see (exec (.store 4 15 2#16) ((regs [(4, 7#32), (15, 0x200#32)]).setRMemProt 0x202#32))
      (fun t => (t.mem, t.rLEA, t.pendAt 14)) = some ([(0x202, 7#32)], 0x202#32, false) := by decide

theorem test_store_below_the_bound :
    see (exec (.store 4 15 2#16) ((regs [(4, 7#32), (15, 0x200#32)]).setRMemProt 0x203#32))
      (fun t => (t.mem, t.rLEA, t.pendAt 14)) = some ([], 0x202#32, true) := by decide

theorem test_lregs :
    see (exec (.lregs 3 15 0#16) (mems [(0x200, 11#32), (0x201, 22#32), (0x202, 33#32)] (regs [(15, 0x200#32)])))
      (fun t => (t.reg 1, t.reg 2, t.reg 3, t.reg 4, t.rLEA)) = some (11#32, 22#32, 33#32, 0#32, 0x200#32) := by decide

theorem test_lregs_over_the_end :
    see (exec (.lregs 3 15 0#16) (mems [(0xFFE, 11#32), (0xFFF, 22#32)] (regs [(15, 0xFFE#32)])))
      (fun t => (t.reg 1, t.reg 2, t.pendAt 14)) = some (11#32, 22#32, true) := by decide

theorem test_sregs_base_among_the_stored :
    see (exec (.sregs 2 2 0#16) (regs [(1, 5#32), (2, 0x300#32)])) (fun t => t.mem) =
      some [(0x300, 5#32), (0x301, 0x300#32)] := by decide

theorem test_sregs_partly_protected :
    see (exec (.sregs 3 4 0#16) ((regs [(1, 5#32), (2, 6#32), (3, 7#32), (4, 0x100#32)]).setRMemProt 0x101#32))
      (fun t => (t.mem, t.rLEA, t.pendAt 14)) = some ([(0x101, 6#32), (0x102, 7#32)], 0x100#32, true) := by decide

theorem test_smp : see (exec (.smp 2) (regs [(2, 0x1000#32)])) (fun t => t.rMemProt) = some 0x1000#32 := by decide

theorem test_smpi : see (exec (.smpi 0x8000#16) (regs [])) (fun t => t.rMemProt) = some 0xFFFF8000#32 := by decide

/-! ### Ports (2.10) -/

theorem test_in :
    see (exec (.inp 3 0x40#16) ((regs []).setAnswers [0x1234#32])) (fun t => (t.reg 3, t.portAnswers, t.portTrace, t.pendAt 13)) =
      some (0x1234#32, [], [.read 0x40#32 0x1234#32], false) := by decide

theorem test_inr_uses_all_bits :
    see (exec (.inr 3 2) ((regs [(2, 0x10040#32)]).setAnswers [0x1234#32])) (fun t => (t.portAnswers, t.portTrace, t.pendAt 13)) =
      some ([0x1234#32], [], true) := by decide

theorem test_out :
    see (exec (.out 1 0x40#16) (regs [(1, 0xAB#32)])) (fun t => (t.portTrace, t.pendAt 13)) =
      some ([.write 0x40#32 0xAB#32], false) := by decide

theorem test_out_to_missing_port :
    see (exec (.out 1 0x41#16) (regs [(1, 0xAB#32)])) (fun t => (t.portTrace, t.pendAt 13)) = some ([], true) := by decide

theorem test_outr :
    see (exec (.outr 1 2) (regs [(1, 0xAB#32), (2, 0x40#32)])) (fun t => t.portTrace) =
      some [.write 0x40#32 0xAB#32] := by decide

/-! ### Interrupts (2.11) -/

theorem test_eni : see (exec .eni (regs [])) (fun t => (t.ie, t.pc)) = some (true, 1#32) := by decide

theorem test_dei_keeps_requests :
    see (exec .dei (((regs []).setIe true).setPend 14 true)) (fun t => (t.ie, t.pendAt 14)) = some (false, true) := by decide

theorem test_sisa :
    see (exec (.sisa 1 2) (regs [(1, 5#32), (2, 0x100#32)])) (fun t => (t.isaAt 5, t.isaAt 4)) = some (0x100#32, 0#32) := by
  decide

theorem test_sisai :
    see (exec (.sisai 1 0x8000#16) (regs [(1, 3#32)])) (fun t => t.isaAt 3) = some 0xFFFF8000#32 := by decide

theorem test_sisai_without_interrupt_is_refused :
    why (exec (.sisai 1 1#16) (regs [])) = some .noSuchInterrupt ∧
    why (exec (.sisai 1 1#16) (regs [(1, 16#32)])) = some .noSuchInterrupt := by decide

/-- In service at level 14, entered from level 5, which was entered from the main program. -/
def nested : State := (regs []).setService 14 [{ ret := 0x41#32, level := 5 }, { ret := 8#32, level := 0 }]

theorem test_reti :
    see (exec .reti nested) (fun t => (t.pc, t.ilevel, t.istack)) = some (0x41#32, 5, [{ ret := 8#32, level := 0 }]) := by decide

theorem test_reti_outside_routine_is_refused : why (exec .reti (regs [])) = some .returnOutsideRoutine := by decide

theorem test_lira : see (exec (.lira 5) nested) (fun t => (t.reg 5, t.istack.length)) = some (0x41#32, 2) := by decide

theorem test_lira_outside_routine_is_refused : why (exec (.lira 5) (regs [])) = some .returnAddressOutsideRoutine := by decide

/-- Taking MEMADDR inside a level-13 routine. -/
def inRoutine : State :=
  ((((((regs []).setIe true).setPend 14 true).setIsa 14 0x30#32).setPc 0x42#32).setService 13 [{ ret := 12#32, level := 0 }])

theorem test_step_takes_nested_interrupt :
    see (step inRoutine) (fun t => (t.pc, t.ilevel, t.istack, t.pendAt 14, t.ie)) =
      some (0x30#32, 14, [{ ret := 0x42#32, level := 13 }, { ret := 12#32, level := 0 }], false, true) := by decide

/-- A request that is not above the level waits: the instruction at pc runs. -/
theorem test_step_does_not_take_equal_level :
    see (step (prog 0x60000000#32 (inRoutine.setService 14 []))) (fun t => (t.pc, t.pendAt 14)) = some (0x43#32, true) := by decide

/-- irqHold holds back 5 but not 14; without 14 the instruction runs first (D36). -/
def held : State :=
  prog 0x60000000#32 ((((((regs []).setIe true).setPend 5 true).setIsa 5 0x10#32).setIsa 14 0x20#32).setIrqHold true)

theorem test_step_with_hold :
    see (step held) (fun t => (t.pc, t.pendAt 5, t.irqHold)) = some (1#32, true, false) ∧
    see (step (held.setPend 14 true)) (fun t => (t.pc, t.pendAt 5, t.pendAt 14)) = some (0x20#32, true, false) ∧
    see (step (held.setIrqHold false)) (fun t => (t.pc, t.ilevel)) = some (0x10#32, 5) := by decide

/-- A sleeping core waits; a component's request wakes it at the instruction after the SLEEP (D24). -/
theorem test_step_of_a_sleeping_core :
    see (step ((regs []).setAsleep true)) (fun t => (t.asleep, t.pc)) = some (true, 0#32) ∧
    see (step ((((regs []).setAsleep true).setPc 12#32).setSchedule [.request .xtimer]))
      (fun t => (t.asleep, t.pc, t.pendAt 5, t.schedule)) = some (false, 13#32, true, []) := by decide

/-! ### Others and register load (2.12, 2.13) -/

theorem test_llea : see (exec (.llea 4) ((regs []).setRLEA 0xFE#32)) (fun t => t.reg 4) = some 0xFE#32 := by decide

theorem test_lflags :
    see (exec (.lflags 1) ((regs []).setFlags { ovMul := true, ovShift := false, ovUns := true, ovSgn := false }))
      (fun t => t.reg 1) = some 0xA#32 := by decide

theorem test_sflags_ignores_other_bits :
    see (exec (.sflags 2) (regs [(2, 0xFFFFFFF5#32)])) (fun t => t.flags) =
      some { ovMul := false, ovShift := true, ovUns := false, ovSgn := true } := by decide

theorem test_sflagsi :
    see (exec (.sflagsi 0xFFFF#16) (regs [])) (fun t => t.flags) =
      some { ovMul := true, ovShift := true, ovUns := true, ovSgn := true } := by decide

theorem test_sleep :
    see (exec .sleep ((regs []).setPc 12#32)) (fun t => (t.asleep, t.pc)) = some (true, 12#32) := by decide

theorem test_ldsi : see (exec (.ldsi 1 0x8000#16) (regs [])) (fun t => t.reg 1) = some 0xFFFF8000#32 := by decide

theorem test_ldui : see (exec (.ldui 1 0x8000#16) (regs [])) (fun t => t.reg 1) = some 0x8000#32 := by decide

theorem test_ld : see (exec (.ld 5 4) (regs [(4, 0xDEADBEEF#32)])) (fun t => t.reg 5) = some 0xDEADBEEF#32 := by decide

/-! ### Fetching and placing (log 9, log 10) -/

theorem test_reset_decode_and_run :
    decodeTableWord 32 0xF1100005 = some (.ldui 1 5#16) ∧
    see (step (State.reset.withFetchWord 32 0xF1100005)) (fun t => (t.reg 1, t.pc)) = some (5#32, 1#32) := by decide

theorem test_step_of_an_invalid_word :
    why (step (State.reset.withFetchWord 32 0)) = some (.invalidWord .unassignedOp) := by decide

/-! ### Reset and the end of a run (00_scope.md R6, 70_reset_and_hazards.md R330, R331, R333 item 6) -/

/-- RESET_PC 5 and RESET_DIV64PREP 1: the launched program runs from address 5, and its first DIV takes the 64-bit dividend
(rDiv64, x[0]) = 0 and clears div64Prep. -/
theorem test_launch_at_reset_pc :
    see (step (State.launch { Config.defaultParams with resetPc := 5, resetDiv64Prep := true } [(5, 0x84100001#32)] [(9, 3#32)]))
      (fun t => (t.pc, t.div64Prep, t.mem.read 9)) = some (6#32, false, some 3#32) := by decide

/-- The last words of 95_test_vectors.md P1: a jump to itself at E = 6 ends the run, by its address or as a self jump. -/
theorem test_run_ends_at_self_jump :
    let s := State.launch { Config.defaultParams with resetPc := 5 } [(5, 0xC1200100#32), (6, 0xB0000006#32)] []
    (runToEnd (endAtAddress 6) 1 s).map (fun t => t.pc) = some 6#32 ∧
    (runToEnd endAtSelfJump 1 s).map (fun t => (t.pc, t.rLEA)) = some (6#32, 0x100#32) ∧
    endsWithin endAtSelfJump 0 s = false := by decide

/-- SLEEP with nothing left to wake the core ends a run under that END_OF_RUN alone (V14). -/
theorem test_run_ends_asleep :
    let s := State.launch Config.defaultParams [(0, 0x64000000#32)] []
    endsWithin endAsleep 1 s = true ∧ endsWithin endAtSelfJump 2 s = false ∧
    endsWithin endAsleep 1 (s.setSchedule [.quiet, .request .xtimer]) = false := by decide

/-! ### Programs that store into their own code (20_memory.md R80, R88, V12) -/

/-- STORE r4,r0,#1 at 0, with an instruction at 1: the STORE has its effect, and the instruction at 1 is refused, whatever
was stored. -/
theorem test_stored_over_instruction_is_refused :
    let s := (State.launch Config.defaultParams [(0, 0xC1400001#32), (1, 0x60000000#32)] []).setReg 4 0x60000000#32
    see (step s) (fun t => (t.mem.read 1, t.codeStores, why (step t))) =
      some (some 0x60000000#32, [1#32], some .ownCodeStored) := by decide

/-- STORE r4,r0,#9 at 0 with JMP #5 at 1 and an instruction at 9: the run reaches 5, but no good run stores into code; with
nothing at 9 it is one. -/
theorem test_no_good_run_stores_into_code :
    let s (p : Memory) := State.launch Config.defaultParams ([(0, 0xC1400009#32), (1, 0xB0000005#32)] ++ p) []
    (runToEnd (endAtAddress 5) 2 (s [(9, 0x60000000#32)])).isSome = true ∧
    endsWithin (endAtAddress 5) 2 (s [(9, 0x60000000#32)]) = false ∧ runsFor 2 (s [(9, 0x60000000#32)]) = false ∧
    endsWithin (endAtAddress 5) 2 (s []) = true ∧ runsFor 2 (s []) = true := by decide

/-- A protected word is not stored, so nothing is on record. -/
theorem test_failed_store_is_not_on_record :
    see (exec (.sregs 2 0 0#16) (prog 0x60000000#32 ((regs [(1, 5#32)]).setRMemProt 1#32))) (fun t => (t.codeStores, t.mem.read 1)) =
      some ([], some 0#32) := by decide

/-! ### Witnesses: states and operands that meet the hypotheses of a statement, each clause at the ends of its range -/

/-- The machine has a next state. -/
theorem next_of_see {o : Host.Outcome State Fault Refusal} (h : (see o (fun _ => ())).isSome = true) : ∃ t, o = .next t := by
  cases o with
  | next t => exact ⟨t, rfl⟩
  | fault r => cases h
  | refused r => cases h

theorem quiet_of_nil {s : State} (h : s.schedule = []) : ∀ p rest, s.schedule ≠ .request p :: rest := by
  intro p rest h2
  rw [h] at h2
  cases h2

theorem witness_DecodeOfEncodeGivesInstruction :
    (Instr.lregs 1 15 0xFFFF#16).wellFormed = true ∧ (Instr.sregs 15 0 0#16).wellFormed = true ∧
    (Instr.beqz 0 7#16).wellFormed = true ∧ (Instr.ret 15).wellFormed = true := by decide

theorem witness_EncodeOfDecodeGivesWord :
    decodeWord 0xC2FF0000#32 = .ok (.lregs 15 15 0#16) ∧ decodeWord 0xB0000007#32 = .ok (.jmp 7#16) := by decide

/-- At the first and at the last legal address, with no store on record and with one to the neighbouring address. -/
theorem witness_StepRunsDecodedInstruction :
    ∀ e ∈ [(0#32, []), (0xFFFF#32, [0xFFFE#32])], let s := prog 0x01312000#32 (((regs []).setPc e.1).setCodeStores e.2)
    (∀ p rest, s.schedule ≠ .request p :: rest) ∧ s.asleep = false ∧ s.interruptToTake = none ∧ s.pc.toNat ≤ 0xFFFF ∧
      s.prog.read s.pc.toNat = some 0x01312000#32 ∧ s.pc ∉ s.codeStores ∧
      decodeWord 0x01312000#32 = .ok (.add 3 1 2) := by
  intro e he s
  simp only [List.mem_cons, List.not_mem_nil, or_false] at he
  rcases he with rfl | rfl <;> exact ⟨quiet_of_nil (by decide), by decide⟩

theorem witness_FetchWithoutInstructionStops :
    let s := (regs []).setPc 0x10000#32
    let u := (regs []).setPc 0xFFFF#32
    let v := prog 0#32 u
    let w := v.setCodeStores [0xFFFF#32]
    (∀ p rest, s.schedule ≠ .request p :: rest) ∧ (∀ p rest, u.schedule ≠ .request p :: rest) ∧
      (∀ p rest, v.schedule ≠ .request p :: rest) ∧ (∀ p rest, w.schedule ≠ .request p :: rest) ∧
      (s.asleep = false ∧ s.interruptToTake = none ∧ s.pc.toNat > 0xFFFF) ∧
      (u.asleep = false ∧ u.interruptToTake = none ∧ u.pc.toNat ≤ 0xFFFF ∧ u.prog.read u.pc.toNat = none) ∧
      (v.asleep = false ∧ v.interruptToTake = none ∧ v.pc.toNat ≤ 0xFFFF ∧ v.prog.read v.pc.toNat = some 0#32 ∧
        v.pc ∉ v.codeStores ∧ decodeWord 0#32 = .error .unassignedOp) ∧
      (w.asleep = false ∧ w.interruptToTake = none ∧ w.pc.toNat ≤ 0xFFFF ∧ w.prog.read w.pc.toNat = some 0#32 ∧
        w.pc ∈ w.codeStores) := by
  intro s u v w
  exact ⟨quiet_of_nil (by decide), quiet_of_nil (by decide), quiet_of_nil (by decide), quiet_of_nil (by decide), by decide⟩

theorem witness_SleepingCoreWaits :
    let s := (regs []).setAsleep true
    s.asleep = true ∧ ∀ p rest, s.schedule ≠ .request p :: rest := ⟨by decide, quiet_of_nil (by decide)⟩

/-- A sleeping and a running core. -/
theorem witness_ComponentRequestIsStored :
    ((regs []).setSchedule [.request .xsound, .quiet]).schedule = .request .xsound :: [.quiet] ∧
    (((regs []).setAsleep true).setSchedule [.request .xjtag]).schedule = .request .xjtag :: [] := by decide

/-- 15 above all; 14 just above 13; 9 and 2, which irqHold does not hold back, above a held 8. -/
theorem witness_HighestCandidateIsTaken :
    ∀ e ∈ [(15, 14, false), (14, 13, false), (9, 8, true), (2, 1, true)],
      let s := (((((regs []).setIe true).setPend 8 true).setPend e.1 true).setIrqHold e.2.2).setService e.2.1 []
      s.asleep = false ∧ s.ie = true ∧
        (s.pendAt e.1 = true ∧ e.1.val > s.ilevel.val ∧ ¬(s.irqHold = true ∧ 3 ≤ e.1.val ∧ e.1.val ≤ 8)) ∧
        (∀ j : Nib, (s.pendAt j = true ∧ j.val > s.ilevel.val ∧ ¬(s.irqHold = true ∧ 3 ≤ j.val ∧ j.val ≤ 8)) → j ≤ e.1) ∧
        ∀ p rest, s.schedule ≠ .request p :: rest := by
  intro e he s
  simp only [List.mem_cons, List.not_mem_nil, or_false] at he
  rcases he with rfl | rfl | rfl | rfl <;>
    exact ⟨by decide, by decide, by decide, by decide, quiet_of_nil (by decide)⟩

/-- Disabled; at the level; held back, at both ends of the peripheral range. -/
theorem witness_HeldRequestsWait :
    ((regs []).setPend 15 true).ie = false ∧
    (let s := ((((regs []).setIe true).setPend 3 true).setPend 8 true).setIrqHold true
     ∀ j : Nib, s.pendAt j = true → j.val ≤ s.ilevel.val ∨ (s.irqHold = true ∧ 3 ≤ j.val ∧ j.val ≤ 8)) ∧
    (let s := (((regs []).setIe true).setPend 14 true).setService 14 []
     ∀ j : Nib, s.pendAt j = true → j.val ≤ s.ilevel.val ∨ (s.irqHold = true ∧ 3 ≤ j.val ∧ j.val ≤ 8)) := by
  decide

theorem witness_EveryStepKeepsGood : Good inRoutine ∧ ∃ t, step inRoutine = .next t :=
  ⟨by decide, next_of_see (by decide)⟩

/-- A launch at the last legal address with a one-word memory, and one that supplies nothing. -/
theorem witness_ResetIsGood :
    (∀ p ∈ [{ Config.defaultParams with memSize := 1 }, { Config.defaultParams with memSize := 2 ^ 32 }], p.valid ∧
      Memory.wf [(0, 7#32)] = true ∧ Memory.below p.memSize [(0, 7#32)] = true ∧
      Memory.below p.memSize [] = true) ∧
    Memory.wf [(0xFFFF, 0x64000000#32)] = true ∧ Memory.below 0x10000 [(0xFFFF, 0x64000000#32)] = true ∧
    Memory.wf [] = true := by decide

theorem witness_GoodStackIsAtMostFifteenDeep : Good nested ∧ Good State.reset ∧ nested.istack.length = 2 := by decide

/-- A step with a store on record; and a STORE to its own address, whose data word it changes. -/
theorem witness_StepsNeverChangeTheProgram :
    (∃ t, step (held.setCodeStores [7#32]) = .next t) ∧ 7#32 ∈ (held.setCodeStores [7#32]).codeStores ∧
    (let s := prog 0xC1400000#32 (regs [(4, 7#32)])
     s.mem.wf = true ∧ (s.prog.read (0#32).toNat).isSome = true ∧ s.mem.read (0#32).toNat = none ∧
       see (step s) (fun t => t.mem.read (0#32).toNat) = some (some 7#32)) :=
  ⟨next_of_see (by decide), by decide, by decide⟩

/-- A STORE just below the bound, and one at it. -/
theorem witness_ProtectedMemoryIsUnchanged :
    let s (x : Word) := (prog x ((regs [(4, 7#32)]).setRMemProt 0x100#32))
    ((s 0xC14000FF#32).mem.wf = true ∧ 0xFF < (s 0xC14000FF#32).rMemProt.toNat ∧ ∃ t, step (s 0xC14000FF#32) = .next t) ∧
    ((s 0xC1400100#32).mem.wf = true ∧ ∃ t, step (s 0xC1400100#32) = .next t) := by
  intro s
  exact ⟨⟨by decide, by decide, next_of_see (by decide)⟩, by decide, next_of_see (by decide)⟩

theorem witness_OnlyDestinationRegistersChange :
    (∃ t, exec (.lregs 3 15 0#16) (regs []) = .next t) ∧ 4 ∉ destinations (.lregs 3 15 0#16) ∧
    3 ∈ destinations (.lregs 3 15 0#16) ∧ (0 : RegNum) ∉ destinations (.lregs 3 15 0#16) :=
  ⟨next_of_see (by decide), by decide⟩

theorem witness_OnlyNamedPlacesChange :
    (∃ t, exec (.shl 3 1 2) bits = .next t) ∧ Place.ovMul ∉ writes (.shl 3 1 2) ∧ Place.mem ∉ writes (.shl 3 1 2) ∧
    Place.service ∉ writes (.shl 3 1 2) ∧ Place.ovShift ∈ writes (.shl 3 1 2) := ⟨next_of_see (by decide), by decide⟩

theorem witness_InstructionsOnlyAddTheirRequest :
    ((regs []).setPend 5 true).pendAt 5 = true ∧ ∃ t, exec (.jmp 0xFFFF#16) ((regs []).setPend 5 true) = .next t :=
  ⟨by decide, next_of_see (by decide)⟩

/-- After a MUL with 14 pending, 14 is the next to be taken; and an instruction that clears the hold. -/
theorem witness_HoldFollowsMultiplyAndDivide :
    holdsPeripherals (.mul 3 1 2) = true ∧ holdsPeripherals .eni = false ∧
    see (exec (.mul 3 1 2) (((regs []).setIe true).setPend 14 true)) (fun t => t.interruptToTake) = some (some 14) ∧
    ∃ t, exec .eni held = .next t :=
  ⟨by decide, by decide, by decide, next_of_see (by decide)⟩

theorem witness_OtherInstructionsAdvance :
    (∃ t, exec (.load 3 0 0x2000#16) (regs []) = .next t) ∧ transfersControl (.load 3 0 0x2000#16) = false ∧
    Instr.load 3 0 0x2000#16 ≠ .sleep := ⟨next_of_see (by decide), by decide⟩

theorem witness_GeneralRegistersReadBack : (15 : RegNum) ≠ 0 ∧ (0 : RegNum) ≠ 15 ∧ (1 : RegNum) ≠ 0 := by decide

/-- The dividend as the division statements write it. -/
abbrev top (s : State) (a : RegNum) : Int :=
  if s.div64Prep then
    let u : Int := s.rDiv64.toNat * 2 ^ 32 + (s.reg a).toNat
    if u < 2 ^ 63 then u else u - 2 ^ 64
  else (s.reg a).toInt

/-- The premises on q and r for a division of T by D, the remainder having the sign of T or of D. -/
abbrev divides (T D q r : Int) (floors : Bool) : Prop :=
  T = q * D + r ∧ r.natAbs < D.natAbs ∧ (r = 0 ∨ (r < 0 ↔ (if floors then D else T) < 0))

abbrev fits (q : Int) : Prop := -2 ^ 31 ≤ q ∧ q ≤ 2 ^ 31 - 1

/-- Divisors other than 0 whose quotient fits: 7 / -2; -7 / 2 by a constant; the smallest quotient; 10^10 / 10^5 and -7 / 2
with a prepared dividend. -/
theorem witness_DivisionResult :
    (let s := regs [(3, 7#32), (1, 0xFFFFFFFE#32)]
     s.params.divRound = .towardZero ∧ s.reg 1 ≠ 0 ∧ divides (top s 3) (s.reg 1).toInt (-3) 1 false ∧ fits (-3)) ∧
    (let s := regs [(3, 0xFFFFFFF9#32)]
     s.params.divRound = .towardZero ∧ divides (top s 3) (BitVec.signExtend 32 2#16).toInt (-3) (-1) false ∧
       BitVec.signExtend 32 2#16 ≠ 0#32) ∧
    (let s := regs [(3, 0x80000000#32), (1, 1#32)]
     divides (top s 3) (s.reg 1).toInt (-2 ^ 31) 0 false ∧ fits (-2 ^ 31)) ∧
    (let s := ((regs [(3, 0x540BE400#32), (1, 0x186A0#32)]).setRDiv64 2#32).setDiv64Prep true
     divides (top s 3) (s.reg 1).toInt 100000 0 false ∧ fits 100000) ∧
    (let s := ((regs [(3, 0xFFFFFFF9#32), (1, 2#32)]).setRDiv64 0xFFFFFFFF#32).setDiv64Prep true
     divides (top s 3) (s.reg 1).toInt (-3) (-1) false ∧ fits (-3)) := by decide

/-- -7 / 2 with the flooring parameter. -/
theorem witness_DivisionResult_floor :
    let s := { regs [(3, 0xFFFFFFF9#32), (1, 2#32)] with params := { Config.defaultParams with divRound := .towardMinusInfinity } }
    s.params.divRound = .towardMinusInfinity ∧ divides (top s 3) (s.reg 1).toInt (-4) 1 true ∧ fits (-4) := by decide

/-- By the constant 0, and -2^31 / -1, whose quotient 2^31 does not fit, under both roundings. -/
theorem witness_DivisionWithoutResult :
    (BitVec.signExtend 32 0#16).toInt = 0 ∧
    (let s := regs [(3, 0x80000000#32), (1, 0xFFFFFFFF#32)]
     s.params.divRound = .towardZero ∧ divides (top s 3) (s.reg 1).toInt (2 ^ 31) 0 false ∧
       divides (top s 3) (s.reg 1).toInt (2 ^ 31) 0 true ∧ ¬fits (2 ^ 31)) := by decide

/-- -1.0 / 3.0 toward zero, and by the constant 0x4000. -/
theorem witness_FixedPointQuotientResult :
    let s := regs [(1, 0xFFFF0000#32), (2, 0x30000#32)]
    s.params.divRound = .towardZero ∧
    divides ((s.reg 1).toInt * 2 ^ 16) (s.reg 2).toInt (-21845) (-65536) false ∧ fits (-21845) ∧
    divides ((s.reg 1).toInt * 2 ^ 16) (BitVec.signExtend 32 0x4000#16).toInt (-262144) 0 false ∧ fits (-262144) := by decide

/-- Amounts 0 and 31, in a register and as a constant (also for OtherShiftResults). -/
theorem witness_LeftShiftResult :
    (0#32).toNat ≤ 31 ∧ (0#32) = (regs []).reg 2 ∧ (31#32).toNat ≤ 31 ∧ (31#32) = (regs [(2, 31#32)]).reg 2 ∧
    (31#32) = BitVec.signExtend 32 31#16 := by decide

theorem witness_OtherShiftResults :
    (0#32).toNat ≤ 31 ∧ (0#32) = BitVec.signExtend 32 0#16 ∧ (31#32).toNat ≤ 31 ∧ (31#32) = (regs [(2, 31#32)]).reg 2 := by decide

/-- The amount 32, and the constant -1. -/
theorem witness_ShiftsAboveThirtyOne :
    (32#32).toNat > 31 ∧ (32#32) = (regs [(2, 32#32)]).reg 2 ∧ (0xFFFFFFFF#32).toNat > 31 ∧
    (0xFFFFFFFF#32) = BitVec.signExtend 32 0xFFFF#16 := by decide

/-- The last address, written and not written, and the first missing one. -/
theorem witness_LoadResult :
    let s := mems [(0xFFF, 9#32)] (regs [])
    let EA (k : Const) : Word := BitVec.ofNat 32 ((s.reg 0).toNat + (k.signExtend 32).toNat)
    ((EA 0xFFF#16).toNat < s.params.memSize ∧ s.mem.read (EA 0xFFF#16).toNat = some 9#32) ∧
    ((EA 0#16).toNat < s.params.memSize ∧ s.mem.read (EA 0#16).toNat = none) ∧
    (EA 0x1000#16).toNat ≥ s.params.memSize := by decide

/-- At the bound, one below it, at the last address and at the first missing one. -/
theorem witness_StoreResult :
    let s := (regs []).setRMemProt 0x100#32
    let EA (k : Const) : Word := BitVec.ofNat 32 ((s.reg 0).toNat + (k.signExtend 32).toNat)
    s.mem.wf = true ∧ ((EA 0x100#16).toNat < s.params.memSize ∧ (EA 0x100#16).toNat ≥ s.rMemProt.toNat) ∧
    ((EA 0xFFF#16).toNat < s.params.memSize ∧ (EA 0xFFF#16).toNat ≥ s.rMemProt.toNat) ∧
    (EA 0xFF#16).toNat < s.rMemProt.toNat ∧ (EA 0x1000#16).toNat ≥ s.params.memSize := by decide

theorem witness_LoadReadsWhatStoreWrote :
    let s := regs [(4, 7#32), (15, 0x200#32), (14, 0x203#32)]
    s.mem.wf = true ∧ s.writable (effAddr 15 2#16 s) = true ∧
    s.reg 14 + (0xFFFF#16).signExtend 32 = effAddr 15 2#16 s ∧ (3 : RegNum) ≠ 0 ∧
    ∃ t, exec (.store 4 15 2#16) s = .next t := by
  intro s
  exact ⟨by decide, by decide, by decide, by decide, next_of_see (by decide)⟩

/-- Counts 1 and 15, the base r0 or just above the loaded registers; word addresses that exist, listed and not, and none. -/
theorem witness_BlockLoadResult :
    (1 : Nib) ≠ 0 ∧ ¬(1 ≤ (2 : Nib).val ∧ (2 : Nib).val ≤ (1 : Nib).val) ∧
    (15 : Nib) ≠ 0 ∧ ¬(1 ≤ (0 : Nib).val ∧ (0 : Nib).val ≤ (15 : Nib).val) ∧
    (let s := mems [(0xFFE, 11#32)] (regs [(15, 0xFFE#32)])
     let addr (i : Nib) : Nat := (s.reg 15 + (0#16).signExtend 32 + BitVec.ofNat 32 (i.val - 1)).toNat
     (addr 1 < s.params.memSize ∧ s.mem.read (addr 1) = some 11#32) ∧
     (addr 2 < s.params.memSize ∧ s.mem.read (addr 2) = none) ∧ ¬addr 3 < s.params.memSize) := by decide

theorem witness_BlockFormsRefused :
    1 ≤ (1 : Nib).val ∧ (1 : Nib).val ≤ (1 : Nib).val ∧ 1 ≤ (15 : Nib).val ∧ (15 : Nib).val ≤ (15 : Nib).val := by decide

/-- The first word protected, the second stored; the last word stored, one past it missing. -/
theorem witness_BlockStoreResult :
    (1 : Nib) ≠ 0 ∧ (15 : Nib) ≠ 0 ∧
    (let s := (regs [(4, 0x100#32), (5, 0xFFF#32)]).setRMemProt 0x101#32
     let addr (r i : Nib) : Nat := (s.reg r + (0#16).signExtend 32 + BitVec.ofNat 32 (i.val - 1)).toNat
     s.mem.wf = true ∧ ¬addr 4 1 ≥ s.rMemProt.toNat ∧ (addr 4 2 < s.params.memSize ∧ addr 4 2 ≥ s.rMemProt.toNat) ∧
     (addr 5 1 < s.params.memSize ∧ addr 5 1 ≥ s.rMemProt.toNat) ∧ ¬addr 5 2 < s.params.memSize) := by decide

/-- A listed answer, no answer, a missing port. -/
theorem witness_PortInputResult :
    (0x40#32 ∈ ((regs []).setAnswers [5#32]).params.ports ∧ ((regs []).setAnswers [5#32]).portAnswers = 5#32 :: [] ∧
      0x40#32 = (0x40#16).signExtend 32) ∧
    (0x40#32 ∈ (regs []).params.ports ∧ (regs []).portAnswers = [] ∧ 0x40#32 = (regs [(2, 0x40#32)]).reg 2) ∧
    (0xFFFF8000#32 ∉ (regs []).params.ports ∧ 0xFFFF8000#32 = (0x8000#16).signExtend 32) := by decide

theorem witness_PortOutputResult :
    (0x40#32 ∈ (regs []).params.ports ∧ 0x40#32 = (0x40#16).signExtend 32) ∧
    (0x41#32 ∉ (regs []).params.ports ∧ 0x41#32 = (regs [(2, 0x41#32)]).reg 2) := by decide

theorem witness_InterruptsEnabledAndDisabled : ∃ t, exec .dei ((regs []).setIe true) = .next t := next_of_see (by decide)

/-- The numbers 1 and 15, and 0 and 16. -/
theorem witness_RoutineAddressIsSet :
    (1 ≤ (1 : Nib).val ∧ ((regs [(1, 1#32)]).reg 1).toNat = (1 : Nib).val) ∧
    (1 ≤ (15 : Nib).val ∧ ((regs [(1, 15#32)]).reg 1).toNat = (15 : Nib).val) ∧
    ((regs []).reg 1).toNat = 0 ∧ ((regs [(1, 16#32)]).reg 1).toNat > 15 := by decide

theorem witness_ReturnFromRoutine :
    nested.istack = { ret := 0x41#32, level := 5 } :: [{ ret := 8#32, level := 0 }] ∧ (regs []).istack = [] := by decide

theorem witness_LastAddressIsRead :
    (∃ t, exec (.load 3 0 0x1000#16) (regs []) = .next t) ∧ (∃ t, exec (.store 3 0 0x1000#16) (regs []) = .next t) ∧
    (∃ t, exec (.lregs 1 0 0#16) (regs []) = .next t) ∧ ∃ t, exec (.sregs 15 0 0#16) (regs []) = .next t :=
  ⟨next_of_see (by decide), next_of_see (by decide), next_of_see (by decide), next_of_see (by decide)⟩

/-- The default layout, and one with the flags at the ends of the word. -/
theorem witness_FlagsAreReadAndWritten :
    (regs []).params.flagsLayout.distinct ∧
    ({ ovMul := 31, ovShift := 0, ovUns := 30, ovSgn := 1 } : Config.FlagsLayout).distinct := by decide

theorem witness_FlagsSaveAndRestore :
    let f : Flags := { ovMul := true, ovShift := true, ovUns := false, ovSgn := true }
    (regs []).params.flagsLayout.distinct ∧ (15 : RegNum) ≠ 0 ∧
    ∃ t, exec (.lflags 15) (regs []) = .next t ∧ ∃ u, exec (.sflags 15) { t with flags := f } = .next u :=
  ⟨by decide, by decide, _, rfl, _, rfl⟩

/-- The parameter off, on without a peripheral request, on with one at each end of the range. -/
theorem witness_SleepResult :
    let on (s : State) : State := { s with params := { Config.defaultParams with sleepWakesOnPending := true } }
    let due (s : State) : Prop :=
      s.params.sleepWakesOnPending = true ∧ ∃ i : Nib, 3 ≤ i.val ∧ i.val ≤ 8 ∧ s.pendAt i = true
    due (on ((regs []).setPend 3 true)) ∧ due (on ((regs []).setPend 8 true)) ∧ ¬due (on ((regs []).setPend 9 true)) ∧
    ¬due ((regs []).setPend 3 true) := by
  intro on due
  refine ⟨⟨by decide, 3, by decide⟩, ⟨by decide, 8, by decide⟩, ?_, ?_⟩
  · rintro ⟨_, h⟩
    exact absurd h (by decide)
  · rintro ⟨h, _⟩
    exact absurd h (by decide)

end Sys2Proof.Tests
end

section
/-! PROOF. PROD and MOD (40_arithmetic.md R138, R143): both are a plain write of a special register to x[w]. -/

namespace Sys2Proof.Machine

variable (w : RegNum) (s : State)

theorem exec_prod_eq_writeResult : exec (.prod w) s = writeResult w s.rMulHigh s := rfl

theorem exec_mod_eq_writeResult : exec (.mod w) s = writeResult w s.rMod s := rfl

end Sys2Proof.Machine

namespace Sys2Proof

/-- A form with field W alone (format W): the fields A and K are 0. -/
theorem packWord_onlyW_eq_ofNat (op : BitVec 8) (w : Nib) :
    packWord op w 0 0 = BitVec.ofNat 32 (op.toNat * 2 ^ 24 + w.val * 2 ^ 20) := by
  rw [packWord_eq_ofNat]
  simp

end Sys2Proof

namespace Sys2Proof.Machine

/-- Settles O26: both outcomes are `writeResult` of the special register, both words are of format W. -/
theorem highProductAndRemainderAreRead : Obligations.HighProductAndRemainderAreRead := by
  intro s w
  refine ⟨?prod, ?mod, ?prodWord, ?modWord⟩
  case prod => rw [exec_prod_eq_writeResult, writeResult_eq]
  case mod => rw [exec_mod_eq_writeResult, writeResult_eq]
  case prodWord => exact packWord_onlyW_eq_ofNat 0x20 w
  case modWord => exact packWord_onlyW_eq_ofNat 0x21 w

end Sys2Proof.Machine
end

section
/-! PROOF. Logic (41_logic_shift.md R160 to R168): every form is a plain write of a word to x[w], and each bit of that word
is the operation on the operands' bits; a constant is an operand whose bits 31..16 are 0. -/

namespace Sys2Proof.Machine

/-! ### Bits of words -/

/-- The zero-extended constant bit by bit (00_scope.md R9). -/
theorem getLsbD_zext32 (k : Const) (j : Nat) : (zext32 k).getLsbD j = (decide (j < 16) && k.getLsbD j) := by
  rw [zext32_eq, BitVec.getLsbD_setWidth]
  by_cases hj : j < 16
  · have hj32 : j < 32 := by omega
    simp [hj, hj32]
  · simp [hj, BitVec.getLsbD_of_ge k j (by omega)]

/-- A bit of the complement of the exclusive or says whether the operands' bits are equal (R167). -/
theorem getLsbD_not_xor {n j : Nat} (x y : BitVec n) (hj : j < n) :
    (~~~(x ^^^ y)).getLsbD j = (x.getLsbD j == y.getLsbD j) := by
  rw [BitVec.getLsbD_not, BitVec.getLsbD_xor]
  cases x.getLsbD j <;> simp [hj]

/-! ### The instructions as writes of a result (R160) -/

section
variable (w a b : RegNum) (k : Const) (s : State)

theorem exec_and_eq_writeResult : exec (.and w a b) s = writeResult w (s.reg a &&& s.reg b) s := rfl

theorem exec_andi_eq_writeResult : exec (.andi w a k) s = writeResult w (s.reg a &&& zext32 k) s := rfl

theorem exec_or_eq_writeResult : exec (.or w a b) s = writeResult w (s.reg a ||| s.reg b) s := rfl

theorem exec_ori_eq_writeResult : exec (.ori w a k) s = writeResult w (s.reg a ||| zext32 k) s := rfl

theorem exec_xor_eq_writeResult : exec (.xor w a b) s = writeResult w (s.reg a ^^^ s.reg b) s := rfl

theorem exec_xori_eq_writeResult : exec (.xori w a k) s = writeResult w (s.reg a ^^^ zext32 k) s := rfl

theorem exec_xnor_eq_writeResult : exec (.xnor w a b) s = writeResult w (~~~(s.reg a ^^^ s.reg b)) s := rfl

theorem exec_xnori_eq_writeResult : exec (.xnori w a k) s = writeResult w (~~~(s.reg a ^^^ zext32 k)) s := rfl

/-- A written result is fixed by its 32 bits, and the frame is that of `writeResult`. -/
theorem writeResult_gives_bits {v : Word} {bit : Nat → Bool} (hbit : ∀ j, j < 32 → v.getLsbD j = bit j) :
    ∃ r : Word, (∀ j, j < 32 → r.getLsbD j = bit j) ∧
      writeResult w v s = .next { s with regs := Bank.set s.regs w r, pc := s.pc + 1, irqHold := false } :=
  ⟨v, hbit, by rw [writeResult_eq]⟩

end

/-! ### The obligations -/

/-- Settles O32: each outcome is a write of a word whose bits are known, each word is of format WAB. -/
theorem logicOnRegisters : Obligations.LogicOnRegisters := by
  intro s w a b A B gives word
  refine ⟨?and, ?or, ?xor, ?xnor, ?andWord, ?orWord, ?xorWord, ?xnorWord⟩
  case and =>
    rw [exec_and_eq_writeResult]
    exact writeResult_gives_bits w s fun j _ => BitVec.getLsbD_and
  case or =>
    rw [exec_or_eq_writeResult]
    exact writeResult_gives_bits w s fun j _ => BitVec.getLsbD_or
  case xor =>
    rw [exec_xor_eq_writeResult]
    exact writeResult_gives_bits w s fun j _ => BitVec.getLsbD_xor
  case xnor =>
    rw [exec_xnor_eq_writeResult]
    exact writeResult_gives_bits w s fun j hj => getLsbD_not_xor _ _ hj
  case andWord => exact packWord_regK_eq_ofNat 0x07 w a b
  case orWord => exact packWord_regK_eq_ofNat 0x08 w a b
  case xorWord => exact packWord_regK_eq_ofNat 0x09 w a b
  case xnorWord => exact packWord_regK_eq_ofNat 0x0A w a b

/-- Settles O33: as O32 with the zero-extended constant for the second operand; each word is of format WAK. -/
theorem logicWithConstants : Obligations.LogicWithConstants := by
  intro s w a k A K gives word
  refine ⟨?andi, ?ori, ?xori, ?xnori, ?andiWord, ?oriWord, ?xoriWord, ?xnoriWord⟩
  case andi =>
    rw [exec_andi_eq_writeResult]
    exact writeResult_gives_bits w s fun j _ => by rw [BitVec.getLsbD_and, getLsbD_zext32]
  case ori =>
    rw [exec_ori_eq_writeResult]
    exact writeResult_gives_bits w s fun j _ => by rw [BitVec.getLsbD_or, getLsbD_zext32]
  case xori =>
    rw [exec_xori_eq_writeResult]
    exact writeResult_gives_bits w s fun j _ => by rw [BitVec.getLsbD_xor, getLsbD_zext32]
  case xnori =>
    rw [exec_xnori_eq_writeResult]
    exact writeResult_gives_bits w s fun j hj => by rw [getLsbD_not_xor _ _ hj, getLsbD_zext32]
  case andiWord => exact packWord_eq_ofNat 0x87 w a k
  case oriWord => exact packWord_eq_ofNat 0x88 w a k
  case xoriWord => exact packWord_eq_ofNat 0x89 w a k
  case xnoriWord => exact packWord_eq_ofNat 0x8A w a k

end Sys2Proof.Machine
end

section
/-! PROOF. Equality tests (42_set_condition.md R191 to R194): each is `setOp` of a comparison of two words, and two words are
equal exactly if their unsigned values are; a constant is an operand after its sign extension. -/

namespace Sys2Proof.Machine

/-! ### The instructions as conditions (R190) -/

section
variable (w a b : RegNum) (k : Const) (s : State)

theorem exec_seq_eq_setOp : exec (.seq w a b) s = setOp w (decide (s.reg a = s.reg b)) s := rfl

theorem exec_sne_eq_setOp : exec (.sne w a b) s = setOp w (decide (s.reg a ≠ s.reg b)) s := rfl

theorem exec_seqi_eq_setOp : exec (.seqi w a k) s = setOp w (decide (s.reg a = k.signExtend 32)) s := by
  rw [← sext32_eq]
  rfl

theorem exec_snei_eq_setOp : exec (.snei w a k) s = setOp w (decide (s.reg a ≠ k.signExtend 32)) s := by
  rw [← sext32_eq]
  rfl

/-- `setOp` of a decided condition, in the terms of any proposition p the condition is equivalent to. -/
theorem setOp_decide_of_iff {c p : Prop} [Decidable c] [Decidable p] (hcp : c ↔ p) :
    setOp w (decide c) s = .next
      { s with regs := Bank.set s.regs w (if p then 1 else 0), pc := s.pc + 1, irqHold := false } := by
  have hdecide : decide c = decide p := decide_eq_decide.mpr hcp
  rw [setOp_eq, hdecide]
  simp only [decide_eq_true_eq]

end

/-! ### The obligation -/

/-- Settles O37: equality of words is equality of their unsigned values (`BitVec.toNat_inj`, `BitVec.toNat_ne_iff_ne`); the
register forms are words of format WAB, the others of format WAK. -/
theorem equalityTests : Obligations.EqualityTests := by
  intro s w a b k t A regWord constWord
  refine ⟨?seq, ?sne, ?seqi, ?snei, ?seqWord, ?sneWord, ?seqiWord, ?sneiWord⟩
  case seq =>
    rw [exec_seq_eq_setOp]
    exact setOp_decide_of_iff w s BitVec.toNat_inj.symm
  case sne =>
    rw [exec_sne_eq_setOp]
    exact setOp_decide_of_iff w s BitVec.toNat_ne_iff_ne.symm
  case seqi =>
    rw [exec_seqi_eq_setOp]
    exact setOp_decide_of_iff w s BitVec.toNat_inj.symm
  case snei =>
    rw [exec_snei_eq_setOp]
    exact setOp_decide_of_iff w s BitVec.toNat_ne_iff_ne.symm
  case seqWord => exact packWord_regK_eq_ofNat 0x10 w a b
  case sneWord => exact packWord_regK_eq_ofNat 0x11 w a b
  case seqiWord => exact packWord_eq_ofNat 0x90 w a k
  case sneiWord => exact packWord_eq_ofNat 0x91 w a k

end Sys2Proof.Machine
end

section
/-! PROOF. SMP (44_load_store.md R235): a plain write of a word to the protection bound rMemProt. -/

namespace Sys2Proof

/-- A form with field B alone (format B): the fields W and A are 0. -/
theorem packWord_onlyB_eq_ofNat (op : BitVec 8) (b : Nib) :
    packWord op 0 0 (regK b) = BitVec.ofNat 32 (op.toNat * 2 ^ 24 + b.val * 2 ^ 12) := by
  rw [packWord_regK_eq_ofNat]
  simp

end Sys2Proof

namespace Sys2Proof.Machine

/-- What SMP does: the bound is x[b], then pc and irqHold advance; the rest of the state stays. -/
theorem exec_smp_eq_next (b : RegNum) (s : State) :
    exec (.smp b) s = .next { s with rMemProt := s.reg b, pc := s.pc + 1, irqHold := false } := rfl

/-- Settles O49: the outcome is SMP's equation, the word is of format B. -/
theorem protectionBoundIsSet : Obligations.ProtectionBoundIsSet := by
  intro s b
  exact ⟨exec_smp_eq_next b s, packWord_onlyB_eq_ofNat 0x27 b⟩

end Sys2Proof.Machine
end

section
/-! PROOF. The two round trips of SRE-32 (30_encoding.md R105 to R111): the instructions' round trips give the byte file's; a
word that one of the formats accepts is made of the fields that format names. -/

namespace Sys2Proof

/-! ### From instruction to word and back -/

/-- The word of a well-formed instruction decodes to it: the per-instruction round trips, by constructor. -/
theorem decodeWord_encode : ∀ i : Instr, Laws.RoundTrip.Statement i
  | .add w a b => Laws.RoundTrip.add w a b
  | .addi w a k => Laws.RoundTrip.addi w a k
  | .sub w a b => Laws.RoundTrip.sub w a b
  | .subi w a k => Laws.RoundTrip.subi w a k
  | .mul w a b => Laws.RoundTrip.mul w a b
  | .muli w a k => Laws.RoundTrip.muli w a k
  | .prod w => Laws.RoundTrip.prod w
  | .div w a b => Laws.RoundTrip.div w a b
  | .divi w a k => Laws.RoundTrip.divi w a k
  | .div64p a => Laws.RoundTrip.div64p a
  | .mod w => Laws.RoundTrip.mod w
  | .mulfp w a b => Laws.RoundTrip.mulfp w a b
  | .mulfpi w a k => Laws.RoundTrip.mulfpi w a k
  | .divfp w a b => Laws.RoundTrip.divfp w a b
  | .divfpi w a k => Laws.RoundTrip.divfpi w a k
  | .and w a b => Laws.RoundTrip.and w a b
  | .andi w a k => Laws.RoundTrip.andi w a k
  | .or w a b => Laws.RoundTrip.or w a b
  | .ori w a k => Laws.RoundTrip.ori w a k
  | .xor w a b => Laws.RoundTrip.xor w a b
  | .xori w a k => Laws.RoundTrip.xori w a k
  | .xnor w a b => Laws.RoundTrip.xnor w a b
  | .xnori w a k => Laws.RoundTrip.xnori w a k
  | .shl w a b => Laws.RoundTrip.shl w a b
  | .shli w a k => Laws.RoundTrip.shli w a k
  | .cshl w a b => Laws.RoundTrip.cshl w a b
  | .cshli w a k => Laws.RoundTrip.cshli w a k
  | .shr w a b => Laws.RoundTrip.shr w a b
  | .shri w a k => Laws.RoundTrip.shri w a k
  | .cshr w a b => Laws.RoundTrip.cshr w a b
  | .cshri w a k => Laws.RoundTrip.cshri w a k
  | .shar w a b => Laws.RoundTrip.shar w a b
  | .shari w a k => Laws.RoundTrip.shari w a k
  | .seq w a b => Laws.RoundTrip.seq w a b
  | .seqi w a k => Laws.RoundTrip.seqi w a k
  | .sne w a b => Laws.RoundTrip.sne w a b
  | .snei w a k => Laws.RoundTrip.snei w a k
  | .slt w a b => Laws.RoundTrip.slt w a b
  | .slti w a k => Laws.RoundTrip.slti w a k
  | .sgt w a b => Laws.RoundTrip.sgt w a b
  | .sgti w a k => Laws.RoundTrip.sgti w a k
  | .sle w a b => Laws.RoundTrip.sle w a b
  | .slei w a k => Laws.RoundTrip.slei w a k
  | .sge w a b => Laws.RoundTrip.sge w a b
  | .sgei w a k => Laws.RoundTrip.sgei w a k
  | .beqz a k => Laws.RoundTrip.beqz a k
  | .bnez a k => Laws.RoundTrip.bnez a k
  | .jmp k => Laws.RoundTrip.jmp k
  | .ret b => Laws.RoundTrip.ret b
  | .jmpr b => Laws.RoundTrip.jmpr b
  | .jal w k => Laws.RoundTrip.jal w k
  | .jalr w b => Laws.RoundTrip.jalr w b
  | .start k => Laws.RoundTrip.start k
  | .startr b => Laws.RoundTrip.startr b
  | .load w a k => Laws.RoundTrip.load w a k
  | .store b a k => Laws.RoundTrip.store b a k
  | .lregs n a k => Laws.RoundTrip.lregs n a k
  | .sregs n a k => Laws.RoundTrip.sregs n a k
  | .smp b => Laws.RoundTrip.smp b
  | .smpi k => Laws.RoundTrip.smpi k
  | .inp w k => Laws.RoundTrip.inp w k
  | .inr w b => Laws.RoundTrip.inr w b
  | .out a k => Laws.RoundTrip.out a k
  | .outr a b => Laws.RoundTrip.outr a b
  | .eni => Laws.RoundTrip.eni
  | .dei => Laws.RoundTrip.dei
  | .sisa a b => Laws.RoundTrip.sisa a b
  | .sisai a k => Laws.RoundTrip.sisai a k
  | .reti => Laws.RoundTrip.reti
  | .llea w => Laws.RoundTrip.llea w
  | .lira w => Laws.RoundTrip.lira w
  | .lflags w => Laws.RoundTrip.lflags w
  | .sflags b => Laws.RoundTrip.sflags b
  | .sflagsi k => Laws.RoundTrip.sflagsi k
  | .sleep => Laws.RoundTrip.sleep
  | .ldsi w k => Laws.RoundTrip.ldsi w k
  | .ldui w k => Laws.RoundTrip.ldui w k
  | .ld w a => Laws.RoundTrip.ld w a

/-- The four bytes of a word decode as the word does, whatever comes after them (R106). -/
theorem decodeBytes_wordBytes_append {x : Word} {i : Instr} (rest : List Byte) (h : decodeWord x = .ok i) :
    decodeBytes (wordBytes x ++ rest) = .ok (i, rest) := by
  simp only [wordBytes, List.cons_append, List.nil_append, decodeBytes, bytesWord_wordBytes, h]

/-- Settles O1: each constructor's round trip, carried from the word to its four bytes. -/
theorem decodeOfEncodeGivesInstruction : Obligations.DecodeOfEncodeGivesInstruction := by
  intro i rest hwf
  exact decodeBytes_wordBytes_append rest (decodeWord_encode i hwf)

/-! ### From word to instruction and back -/

/-- The instruction is well-formed, in the reported spelling, and its word is x. -/
def IsWordOf (x : Word) (i : Instr) : Prop := encode i = x ∧ i.wellFormed = true ∧ canonical i = i

/-- What `accept` accepts: the unused fields are 0 (R106). -/
theorem accept_eq_ok {c : Bool} {i j : Instr} (h : accept c j = .ok i) : c = true ∧ j = i := by
  cases c with
  | true => exact ⟨rfl, Except.ok.inj h⟩
  | false => exact nomatch h

section
variable {x : Word} {i : Instr} {op : Nat} (hop : (opOf x).toNat = op)
include hop

/-- A word is made of its OP value and its other fields. -/
theorem packWord_of_op : packWord (BitVec.ofNat 8 op) (wOf x) (aOf x) (kOf x) = x := by
  rw [← hop, BitVec.ofNat_toNat, BitVec.setWidth_eq, packWord_fields]

/-- An accepted instruction whose word has the fields of x is the instruction of x. -/
theorem accept_reads {c : Bool} {j : Instr} {w a : Nib} {k : Const}
    (hj : IsWordOf (packWord (BitVec.ofNat 8 op) w a k) j)
    (hfields : c = true → w = wOf x ∧ a = aOf x ∧ k = kOf x) (h : accept c j = .ok i) : IsWordOf x i := by
  obtain ⟨hc, rfl⟩ := accept_eq_ok h
  obtain ⟨rfl, rfl, rfl⟩ := hfields hc
  rwa [packWord_of_op hop] at hj

/-! One lemma per format (R107): which fields of the word it reads, the others being 0. -/

theorem fmtWAB_reads {f : Nib → Nib → Nib → Instr}
    (hf : ∀ w a b, IsWordOf (packWord (BitVec.ofNat 8 op) w a (regK b)) (f w a b)) (h : fmtWAB x f = .ok i) :
    IsWordOf x i :=
  accept_reads hop (hf _ _ _) (fun hc => ⟨rfl, rfl, regK_bOf (beq_iff_eq.mp hc)⟩) h

theorem fmtWAK_reads {f : Nib → Nib → Const → Instr}
    (hf : ∀ w a k, IsWordOf (packWord (BitVec.ofNat 8 op) w a k) (f w a k)) (h : fmtWAK x f = .ok i) :
    IsWordOf x i :=
  accept_reads hop (hf _ _ _) (fun _ => ⟨rfl, rfl, rfl⟩) h

/-- A count that is accepted is not 0. -/
theorem fmtNAK_reads {f : Nib → Nib → Const → Instr}
    (hf : ∀ n a k, n ≠ 0 → IsWordOf (packWord (BitVec.ofNat 8 op) n a k) (f n a k)) (h : fmtNAK x f = .ok i) :
    IsWordOf x i := by
  unfold fmtNAK at h
  split at h
  case isTrue => exact nomatch h
  case isFalse hn =>
    exact accept_reads hop (c := true) (hf _ _ _ hn) (fun _ => ⟨rfl, rfl, rfl⟩) h

theorem fmtW_reads {f : Nib → Instr} (hf : ∀ w, IsWordOf (packWord (BitVec.ofNat 8 op) w 0 0) (f w))
    (h : fmtW x f = .ok i) : IsWordOf x i :=
  accept_reads hop (hf _) (fun hc => by
    obtain ⟨ha, hk⟩ : aOf x = 0 ∧ kOf x = 0 := by simpa using hc
    exact ⟨rfl, ha.symm, hk.symm⟩) h

theorem fmtA_reads {f : Nib → Instr} (hf : ∀ a, IsWordOf (packWord (BitVec.ofNat 8 op) 0 a 0) (f a))
    (h : fmtA x f = .ok i) : IsWordOf x i :=
  accept_reads hop (hf _) (fun hc => by
    obtain ⟨hw, hk⟩ : wOf x = 0 ∧ kOf x = 0 := by simpa using hc
    exact ⟨hw.symm, rfl, hk.symm⟩) h

theorem fmtB_reads {f : Nib → Instr} (hf : ∀ b, IsWordOf (packWord (BitVec.ofNat 8 op) 0 0 (regK b)) (f b))
    (h : fmtB x f = .ok i) : IsWordOf x i :=
  accept_reads hop (hf _) (fun hc => by
    obtain ⟨⟨hw, ha⟩, hlow⟩ : (wOf x = 0 ∧ aOf x = 0) ∧ lowOf x = 0 := by simpa using hc
    exact ⟨hw.symm, ha.symm, regK_bOf hlow⟩) h

theorem fmtK_reads {f : Const → Instr} (hf : ∀ k, IsWordOf (packWord (BitVec.ofNat 8 op) 0 0 k) (f k))
    (h : fmtK x f = .ok i) : IsWordOf x i :=
  accept_reads hop (hf _) (fun hc => by
    obtain ⟨hw, ha⟩ : wOf x = 0 ∧ aOf x = 0 := by simpa using hc
    exact ⟨hw.symm, ha.symm, rfl⟩) h

theorem fmtAK_reads {f : Nib → Const → Instr} (hf : ∀ a k, IsWordOf (packWord (BitVec.ofNat 8 op) 0 a k) (f a k))
    (h : fmtAK x f = .ok i) : IsWordOf x i :=
  accept_reads hop (hf _ _) (fun hc => ⟨(beq_iff_eq.mp hc).symm, rfl, rfl⟩) h

theorem fmtWK_reads {f : Nib → Const → Instr} (hf : ∀ w k, IsWordOf (packWord (BitVec.ofNat 8 op) w 0 k) (f w k))
    (h : fmtWK x f = .ok i) : IsWordOf x i :=
  accept_reads hop (hf _ _) (fun hc => ⟨rfl, (beq_iff_eq.mp hc).symm, rfl⟩) h

theorem fmtWB_reads {f : Nib → Nib → Instr}
    (hf : ∀ w b, IsWordOf (packWord (BitVec.ofNat 8 op) w 0 (regK b)) (f w b)) (h : fmtWB x f = .ok i) :
    IsWordOf x i :=
  accept_reads hop (hf _ _) (fun hc => by
    obtain ⟨ha, hlow⟩ : aOf x = 0 ∧ lowOf x = 0 := by simpa using hc
    exact ⟨rfl, ha.symm, regK_bOf hlow⟩) h

theorem fmtAB_reads {f : Nib → Nib → Instr}
    (hf : ∀ a b, IsWordOf (packWord (BitVec.ofNat 8 op) 0 a (regK b)) (f a b)) (h : fmtAB x f = .ok i) :
    IsWordOf x i :=
  accept_reads hop (hf _ _) (fun hc => by
    obtain ⟨hw, hlow⟩ : wOf x = 0 ∧ lowOf x = 0 := by simpa using hc
    exact ⟨hw.symm, rfl, regK_bOf hlow⟩) h

theorem fmtWA_reads {f : Nib → Nib → Instr} (hf : ∀ w a, IsWordOf (packWord (BitVec.ofNat 8 op) w a 0) (f w a))
    (h : fmtWA x f = .ok i) : IsWordOf x i :=
  accept_reads hop (hf _ _) (fun hc => ⟨rfl, rfl, (beq_iff_eq.mp hc).symm⟩) h

theorem fmtNone_reads {j : Instr} (hj : IsWordOf (packWord (BitVec.ofNat 8 op) 0 0 0) j)
    (h : fmtNone x j = .ok i) : IsWordOf x i :=
  accept_reads hop hj (fun hc => by
    obtain ⟨⟨hw, ha⟩, hk⟩ : (wOf x = 0 ∧ aOf x = 0) ∧ kOf x = 0 := by simpa using hc
    exact ⟨hw.symm, ha.symm, hk.symm⟩) h

end

/-- A word of OP B0 is JMP's where field A names r0 and BEQZ's elsewhere (R111). -/
theorem isWordOf_jmp_or_beqz (a : Nib) (k : Const) :
    IsWordOf (packWord (BitVec.ofNat 8 0xB0) 0 a k) (if a = 0 then .jmp k else .beqz a k) := by
  by_cases ha : a = 0
  · subst ha
    exact ⟨rfl, rfl, rfl⟩
  · rw [if_neg ha]
    exact ⟨rfl, rfl, if_neg ha⟩

/-- The arms of `decodeWord`, in the order in which it lists the OP values of R108, gathered by format. -/
theorem isWordOf_of_decodeWord {x : Word} {i : Instr} (h : decodeWord x = .ok i) : IsWordOf x i := by
  unfold decodeWord at h
  split at h
  case h_1 hop | h_3 hop | h_5 hop | h_8 hop | h_12 hop | h_14 hop | h_16 hop | h_18 hop | h_20 hop | h_22 hop |
      h_24 hop | h_26 hop | h_28 hop | h_30 hop | h_32 hop | h_34 hop | h_36 hop | h_38 hop | h_40 hop |
      h_42 hop | h_44 hop =>
    exact fmtWAB_reads hop (fun _ _ _ => ⟨rfl, rfl, rfl⟩) h
  case h_2 hop | h_4 hop | h_6 hop | h_9 hop | h_13 hop | h_15 hop | h_17 hop | h_19 hop | h_21 hop | h_23 hop |
      h_25 hop | h_27 hop | h_29 hop | h_31 hop | h_33 hop | h_35 hop | h_37 hop | h_39 hop | h_41 hop |
      h_43 hop | h_45 hop | h_53 hop | h_54 hop =>
    exact fmtWAK_reads hop (fun _ _ _ => ⟨rfl, rfl, rfl⟩) h
  case h_7 hop | h_11 hop | h_68 hop | h_69 hop | h_70 hop =>
    exact fmtW_reads hop (fun _ => ⟨rfl, rfl, rfl⟩) h
  case h_10 hop =>
    exact fmtA_reads hop (fun _ => ⟨rfl, rfl, rfl⟩) h
  case h_47 hop | h_61 hop | h_66 hop =>
    exact fmtAK_reads hop (fun _ _ => ⟨rfl, rfl, rfl⟩) h
  case h_46 hop => exact fmtAK_reads hop isWordOf_jmp_or_beqz h
  case h_48 hop | h_52 hop | h_57 hop | h_71 hop =>
    exact fmtB_reads hop (fun _ => ⟨rfl, rfl, rfl⟩) h
  case h_49 hop | h_59 hop | h_74 hop | h_75 hop =>
    exact fmtWK_reads hop (fun _ _ => ⟨rfl, rfl, rfl⟩) h
  case h_50 hop | h_60 hop =>
    exact fmtWB_reads hop (fun _ _ => ⟨rfl, rfl, rfl⟩) h
  case h_51 hop | h_58 hop | h_72 hop =>
    exact fmtK_reads hop (fun _ => ⟨rfl, rfl, rfl⟩) h
  case h_55 hop | h_56 hop =>
    exact fmtNAK_reads hop (fun _ _ _ hn => ⟨rfl, by exact bne_iff_ne.mpr hn, rfl⟩) h
  case h_62 hop | h_65 hop =>
    exact fmtAB_reads hop (fun _ _ => ⟨rfl, rfl, rfl⟩) h
  case h_76 hop =>
    exact fmtWA_reads hop (fun _ _ => ⟨rfl, rfl, rfl⟩) h
  case h_63 hop | h_64 hop | h_67 hop | h_73 hop =>
    exact fmtNone_reads hop ⟨rfl, rfl, rfl⟩ h
  case h_77 => exact nomatch h

/-- Settles O2: the word is the one its format's fields make. -/
theorem encodeOfDecodeGivesWord : Obligations.EncodeOfDecodeGivesWord := by
  intro x i h
  exact isWordOf_of_decodeWord h

/-! ### Worked words and spellings -/

/-- Settles O3: eleven fixed words, each evaluated. -/
theorem workedWordsDecode : Obligations.WorkedWordsDecode :=
  ⟨rfl, rfl, rfl, rfl, rfl, rfl, rfl, rfl, rfl, rfl, rfl⟩

end Sys2Proof

namespace Sys2Proof.Machine

/-- BEQZ on r0 always jumps, since r0 reads as 0. -/
theorem exec_beqz_zero (k : Const) (s : State) : exec (.beqz 0 k) s = exec (.jmp k) s := rfl

/-- Settles O4: only BEQZ and RET have a second spelling. -/
theorem spellingsHaveOneEffect : Obligations.SpellingsHaveOneEffect := by
  intro i s
  cases i
  case beqz a k =>
    by_cases ha : a = 0
    · subst ha
      exact (exec_beqz_zero k s).symm
    · simp only [canonical, if_neg ha]
  all_goals rfl

end Sys2Proof.Machine
end

section
/-! PROOF. The step (60_exceptions.md R297, R300 to R306; 20_memory.md R80, R81): what it comes to in each of the cases that
`coreAction` tells apart, and which request is due. -/

namespace Sys2Proof.Machine

/-! ### From the core action to the step -/

section
variable {s : State}

theorem step_of_coreAction_over {o : Host.Outcome State Fault Refusal} (hquiet : s.noRequest)
    (h : coreAction s.nextSlot = .over o) : step s = o := by
  simp only [step, nextAction_of_noRequest hquiet, h]

theorem step_of_coreAction_run {i : Instr} {t : State} (hquiet : s.noRequest)
    (h : coreAction s.nextSlot = .run i t) : step s = exec i t := by
  simp only [step, nextAction_of_noRequest hquiet, h]

theorem step_of_request {p : Peripheral} {rest : List EnvSlot} (h : s.schedule = .request p :: rest) :
    step s = .next (envRequest p (s.setSchedule rest)) := by
  simp only [step, nextAction, h, done]

/-! ### The cases of the core action -/

theorem coreAction_of_asleep (hsleep : s.asleep = true) : coreAction s = .over (.next s) := by
  simp only [coreAction, hsleep, if_true, done]

theorem coreAction_of_due {i : Nib} (hawake : s.asleep = false) (hdue : s.interruptToTake = some i) :
    coreAction s = .over (.next (takeInterrupt i s)) := by
  simp only [coreAction, hawake, hdue, Bool.false_eq_true, if_false, done]

theorem coreAction_of_fetch_none (hawake : s.asleep = false) (hnone : s.interruptToTake = none)
    (hfetch : s.fetch = none) : coreAction s = .over (.fault .fetchOutsideProgram) := by
  simp only [coreAction, hawake, hnone, hfetch, Bool.false_eq_true, if_false]

theorem coreAction_of_stored {x : Word} (hawake : s.asleep = false) (hnone : s.interruptToTake = none)
    (hfetch : s.fetch = some x) (hstored : s.pc ∈ s.codeStores) :
    coreAction s = .over (.refused .ownCodeStored) := by
  simp [coreAction, hawake, hnone, hfetch, hstored]

theorem coreAction_of_decoded {x : Word} {i : Instr} (hawake : s.asleep = false) (hnone : s.interruptToTake = none)
    (hfetch : s.fetch = some x) (hspared : s.pc ∉ s.codeStores) (hdec : decodeWord x = .ok i) :
    coreAction s = .run i s := by
  simp [coreAction, hawake, hnone, hfetch, hspared, hdec]

theorem coreAction_of_invalid {x : Word} {e : DecodeError} (hawake : s.asleep = false)
    (hnone : s.interruptToTake = none) (hfetch : s.fetch = some x) (hspared : s.pc ∉ s.codeStores)
    (hdec : decodeWord x = .error e) : coreAction s = .over (.refused (.invalidWord e)) := by
  simp [coreAction, hawake, hnone, hfetch, hspared, hdec]

/-! ### Fetching -/

theorem fetch_of_legal (hpc : s.pc.toNat ≤ 0xFFFF) : s.fetch = s.prog.read s.pc.toNat := if_pos hpc

theorem fetch_eq_none (h : s.pc.toNat > 0xFFFF ∨ s.prog.read s.pc.toNat = none) : s.fetch = none := by
  by_cases hpc : s.pc.toNat ≤ 0xFFFF
  · rw [fetch_of_legal hpc]
    exact h.resolve_left (by omega)
  · exact if_neg hpc

end

/-- Settles O5: the core action is to run the decoded instruction. -/
theorem stepRunsDecodedInstruction : Obligations.StepRunsDecodedInstruction := by
  intro s x i hquiet hawake hnone hpc hread hspared hdec
  have hfetch : s.nextSlot.fetch = some x := (fetch_of_legal (s := s.nextSlot) hpc).trans hread
  exact step_of_coreAction_run hquiet (coreAction_of_decoded hawake hnone hfetch hspared hdec)

/-- Settles O6: the three ways in which a core step finds nothing to run. -/
theorem fetchWithoutInstructionStops : Obligations.FetchWithoutInstructionStops := by
  intro s hquiet hawake hnone
  refine ⟨?outside, ?stored, ?invalid⟩
  case outside =>
    intro hout
    have hfetch : s.nextSlot.fetch = none := fetch_eq_none (s := s.nextSlot) hout
    exact step_of_coreAction_over hquiet (coreAction_of_fetch_none hawake hnone hfetch)
  case stored =>
    intro x hpc hread hstored
    have hfetch : s.nextSlot.fetch = some x := (fetch_of_legal (s := s.nextSlot) hpc).trans hread
    exact step_of_coreAction_over hquiet (coreAction_of_stored hawake hnone hfetch hstored)
  case invalid =>
    intro x e hpc hread hspared hdec
    have hfetch : s.nextSlot.fetch = some x := (fetch_of_legal (s := s.nextSlot) hpc).trans hread
    exact step_of_coreAction_over hquiet (coreAction_of_invalid hawake hnone hfetch hspared hdec)

/-- Settles O7: asleep, the core action is over at once. -/
theorem sleepingCoreWaits : Obligations.SleepingCoreWaits := by
  intro s hsleep hquiet
  exact step_of_coreAction_over hquiet (coreAction_of_asleep (s := s.nextSlot) hsleep)

/-! ### Requests of the components -/

/-- A component's interrupt is one of 3..8 (60_exceptions.md R295). -/
theorem Peripheral.irq_range (p : Peripheral) : 3 ≤ p.irq.val ∧ p.irq.val ≤ 8 := by
  cases p <;> decide

/-- Settles O8: the environment's step, with the stored request read at every number. -/
theorem componentRequestIsStored : Obligations.ComponentRequestIsStored := by
  intro s p rest hsched
  refine ⟨envRequest p (s.setSchedule rest), step_of_request hsched, ?frame, ?pend⟩
  case frame =>
    rw [envRequest_eq]
    rfl
  case pend =>
    intro i
    have hne : p.irq ≠ 0 := by
      intro h0
      have hrange := p.irq_range
      simp [h0] at hrange
    have hset : (envRequest p (s.setSchedule rest)).pendAt i = (s.setPend p.irq true).pendAt i :=
      State.pendAt_of_pend (by rw [envRequest_eq]; rfl) i
    rw [hset, State.pendAt_setPend]
    by_cases hi : i = p.irq
    · simp [hi, hne]
    · simp [hi, Ne.symm hi]

/-! ### Which request is due -/

/-- There is no interrupt 0 (60_exceptions.md R291). -/
theorem State.candidate_zero (s : State) : s.candidate 0 = false := rfl

/-- Enabled, the highest candidate is due (R300, R303). -/
theorem interruptToTake_of_highest {s : State} {i : Nib} (hie : s.ie = true) (hi : s.candidate i = true)
    (hmax : ∀ j, s.candidate j = true → j ≤ i) : s.interruptToTake = some i := by
  rw [State.interruptToTake, hie, if_pos rfl]
  exact find?_irqsByPriority _ i s.candidate_zero hi hmax

/-- Nothing is due while interrupts are disabled or no request is a candidate (R300). -/
theorem interruptToTake_eq_none {s : State} (h : s.ie = false ∨ ∀ j, ¬ s.candidate j = true) :
    s.interruptToTake = none := by
  cases hdue : s.interruptToTake with
  | none => rfl
  | some j =>
    obtain ⟨hie, hcand⟩ := interruptToTake_candidate hdue
    rcases h with hdis | hno
    · exact nomatch hie.symm.trans hdis
    · exact absurd hcand (hno j)

/-- Settles O9: the highest candidate is the one found first in order of priority. -/
theorem highestCandidateIsTaken : Obligations.HighestCandidateIsTaken := by
  intro s i due hquiet hawake hie hdue hmax
  have htake : s.nextSlot.interruptToTake = some i :=
    interruptToTake_of_highest (s := s.nextSlot) hie ((State.candidate_iff s i).mpr hdue)
      (fun j hj => hmax j ((State.candidate_iff s j).mp hj))
  exact step_of_coreAction_over hquiet (coreAction_of_due hawake htake)

/-- Settles O10: a request that is outranked or held back is no candidate. -/
theorem heldRequestsWait : Obligations.HeldRequestsWait := by
  intro s h
  refine interruptToTake_eq_none (h.imp_right fun hwait j hj => ?_)
  obtain ⟨hpend, habove, hfree⟩ := (State.candidate_iff s j).mp hj
  rcases hwait j hpend with hle | hheld
  · omega
  · exact hfree hheld

end Sys2Proof.Machine
end

section
/-! PROOF. The frame of every instruction (10_state.md R32 to R55, 60_exceptions.md R294, R301), said once: from the state
before it an instruction comes to a state within its footprint. The whole-machine rules about instructions are parts of it. -/

namespace Sys2Proof.Safety

open Sys2Proof.Machine

/-- What an instruction may change: general registers, places, one request; whether peripheral interrupts are held back after
it, and whether pc may be other than pc + 1. -/
structure Footprint where
  regs : List Nib
  places : List Place
  request : Option Nib
  holds : Bool
  moves : Bool

/-- The instruction may leave pc elsewhere than at pc + 1: a transfer of control, or SLEEP, which waits in place. -/
def mayLeavePc : Instr → Bool
  | .sleep => true
  | i => transfersControl i

/-- The footprint that `destinations`, `writes`, `requestOf` and `holdsPeripherals` give an instruction. -/
def footprint (i : Instr) : Footprint :=
  { regs := destinations i, places := writes i, request := requestOf i, holds := holdsPeripherals i
    moves := mayLeavePc i }

/-- t differs from s at most as the footprint f allows. A field not named where a proof builds this holds as it stands. -/
structure Within (f : Footprint) (s t : State) : Prop where
  regs : ∀ r, r ∉ f.regs → t.reg r = s.reg r := by intros; rfl
  ovMul : .ovMul ∉ f.places → t.flags.ovMul = s.flags.ovMul := by intros; rfl
  ovShift : .ovShift ∉ f.places → t.flags.ovShift = s.flags.ovShift := by intros; rfl
  ovUns : .ovUns ∉ f.places → t.flags.ovUns = s.flags.ovUns := by intros; rfl
  ovSgn : .ovSgn ∉ f.places → t.flags.ovSgn = s.flags.ovSgn := by intros; rfl
  rMod : .rMod ∉ f.places → t.rMod = s.rMod := by intros; rfl
  rMulHigh : .rMulHigh ∉ f.places → t.rMulHigh = s.rMulHigh := by intros; rfl
  rDiv64 : .rDiv64 ∉ f.places → t.rDiv64 = s.rDiv64 := by intros; rfl
  div64Prep : .div64Prep ∉ f.places → t.div64Prep = s.div64Prep := by intros; rfl
  rMemProt : .rMemProt ∉ f.places → t.rMemProt = s.rMemProt := by intros; rfl
  rLEA : .rLEA ∉ f.places → t.rLEA = s.rLEA := by intros; rfl
  ie : .ie ∉ f.places → t.ie = s.ie := by intros; rfl
  isa : .isa ∉ f.places → t.isa = s.isa := by intros; rfl
  service : .service ∉ f.places → t.ilevel = s.ilevel ∧ t.istack = s.istack := by intros; exact ⟨rfl, rfl⟩
  bootActive : .bootActive ∉ f.places → t.bootActive = s.bootActive := by intros; rfl
  asleep : .asleep ∉ f.places → t.asleep = s.asleep := by intros; rfl
  mem : .mem ∉ f.places → t.mem = s.mem ∧ t.codeStores = s.codeStores := by intros; exact ⟨rfl, rfl⟩
  ports : .ports ∉ f.places → t.portAnswers = s.portAnswers ∧ t.portTrace = s.portTrace := by intros; exact ⟨rfl, rfl⟩
  pend : t.pend = s.pend ∨ ∃ j, f.request = some j ∧ t.pend = Bank.set s.pend j true := by exact .inl rfl
  irqHold : t.irqHold = f.holds := by rfl
  pc : f.moves = false → t.pc = s.pc + 1 := by intros; rfl
  params : t.params = s.params := by rfl
  prog : t.prog = s.prog := by rfl
  schedule : t.schedule = s.schedule := by rfl

/-! ### The footprints of the shared operations -/

section
variable {s t : State} {w : RegNum}

/-- A register bank written at w alone reads as before elsewhere. -/
theorem reg_of_not_mem_singleton {v : Word} (h : t.regs = Bank.set s.regs w v) (r : RegNum) (hr : r ∉ [w]) :
    t.reg r = s.reg r := by
  have hne : w ≠ r := fun e => hr (List.mem_singleton.mpr e.symm)
  rw [State.reg, h, Bank.get_set_ne _ _ _ _ _ hne]
  rfl

/-- A request made under a condition. -/
theorem pend_of_ite {c : Prop} [Decidable c] {p : Bank Bool} {j : Nib} :
    (if c then Bank.set p j true else p) = p ∨
      ∃ k, some j = some k ∧ (if c then Bank.set p j true else p) = Bank.set p k true := by
  split
  · exact .inr ⟨j, rfl, rfl⟩
  · exact .inl rfl

theorem addOp_within {a b : Word} (h : addOp w a b s = .next t) :
    Within ⟨[w], [.ovUns, .ovSgn], none, false, false⟩ s t := by
  rw [addOp_eq] at h
  cases h
  exact { regs := reg_of_not_mem_singleton rfl, ovUns := absurd (by simp), ovSgn := absurd (by simp) }

theorem subOp_within {a b : Word} (h : subOp w a b s = .next t) :
    Within ⟨[w], [.ovUns, .ovSgn], none, false, false⟩ s t := by
  rw [subOp_eq] at h
  cases h
  exact { regs := reg_of_not_mem_singleton rfl, ovUns := absurd (by simp), ovSgn := absurd (by simp) }

theorem mulOp_within {a b : Word} (h : mulOp w a b s = .next t) :
    Within ⟨[w], [.rMulHigh, .ovMul], none, true, false⟩ s t := by
  rw [mulOp_eq] at h
  cases h
  exact { regs := reg_of_not_mem_singleton rfl, rMulHigh := absurd (by simp), ovMul := absurd (by simp) }

theorem mulFpOp_within {a b : Word} (h : mulFpOp w a b s = .next t) :
    Within ⟨[w], [.rMulHigh, .ovMul], none, true, false⟩ s t := by
  rw [mulFpOp_eq] at h
  cases h
  exact { regs := reg_of_not_mem_singleton rfl, rMulHigh := absurd (by simp), ovMul := absurd (by simp) }

theorem divOp_within {a b : Word} (h : divOp w a b s = .next t) :
    Within ⟨[w], [.rMod, .div64Prep], none, true, false⟩ s t := by
  rcases divOp_cases w a b s with ⟨-, e⟩ | ⟨-, e⟩ <;> cases e.symm.trans h
  all_goals
    exact { regs := reg_of_not_mem_singleton rfl, rMod := absurd (by simp), div64Prep := absurd (by simp) }

theorem divFpOp_within {a b : Word} (h : divFpOp w a b s = .next t) :
    Within ⟨[w], [.rMod, .div64Prep], none, false, false⟩ s t := by
  rcases divFpOp_cases w a b s with ⟨-, e⟩ | ⟨-, e⟩ <;> cases e.symm.trans h
  all_goals
    exact { regs := reg_of_not_mem_singleton rfl, rMod := absurd (by simp), div64Prep := absurd (by simp) }

theorem div64p_within {a : RegNum} (h : execDiv64p a s = .next t) :
    Within ⟨[], [.rDiv64, .div64Prep], none, true, false⟩ s t := by
  cases h
  exact { rDiv64 := absurd (by simp), div64Prep := absurd (by simp) }

theorem writeResult_within {v : Word} (h : writeResult w v s = .next t) :
    Within ⟨[w], [], none, false, false⟩ s t := by
  rw [writeResult_eq] at h
  cases h
  exact { regs := reg_of_not_mem_singleton rfl }

theorem shiftOp_within {f : Word → Nat → Word} {a b : Word} (h : shiftOp f w a b s = .next t) :
    Within ⟨[w], [], none, false, false⟩ s t := by
  rcases shiftOp_cases w a b s f with ⟨-, e⟩ | ⟨-, e⟩ <;> cases e.symm.trans h
  all_goals exact { regs := reg_of_not_mem_singleton rfl }

theorem shlOp_within {a b : Word} (h : shlOp w a b s = .next t) :
    Within ⟨[w], [.ovShift], none, false, false⟩ s t := by
  rcases shlOp_cases w a b s with ⟨-, e⟩ | ⟨-, e⟩ <;> cases e.symm.trans h
  all_goals exact { regs := reg_of_not_mem_singleton rfl, ovShift := absurd (by simp) }

theorem jumpTo_within {x : Word} (h : done (jumpTo x s) = .next t) : Within ⟨[], [], some 15, false, true⟩ s t := by
  rw [jumpTo_eq] at h
  cases h
  exact { pend := pend_of_ite, pc := nofun }

theorem branchOp_within {c : Bool} {k : Const} (h : branchOp c k s = .next t) :
    Within ⟨[], [], some 15, false, true⟩ s t := by
  cases c with
  | true => exact jumpTo_within h
  | false =>
    cases h
    exact {}

theorem linkOp_within {x : Word} (h : linkOp w x s = .next t) : Within ⟨[w], [], some 15, false, true⟩ s t := by
  rw [linkOp_eq] at h
  cases h
  exact { regs := reg_of_not_mem_singleton rfl, pend := pend_of_ite, pc := nofun }

theorem startOp_within {x : Word} (h : startOp x s = .next t) :
    Within ⟨[], [.bootActive], some 15, false, true⟩ s t := by
  rw [startOp_eq] at h
  cases h
  exact { bootActive := absurd (by simp), pend := pend_of_ite, pc := nofun }

theorem load_within {a : RegNum} {k : Const} (h : execLoad w a k s = .next t) :
    Within ⟨[w], [.rLEA], some 14, false, false⟩ s t := by
  rcases execLoad_cases w s a k with ⟨-, e⟩ | ⟨-, e⟩ <;> cases e.symm.trans h
  · exact { regs := reg_of_not_mem_singleton rfl, rLEA := absurd (by simp) }
  · exact { regs := reg_of_not_mem_singleton rfl, rLEA := absurd (by simp), pend := .inr ⟨14, rfl, rfl⟩ }

theorem store_within {a : RegNum} {k : Const} (h : execStore w a k s = .next t) :
    Within ⟨[], [.rLEA, .mem], some 14, false, false⟩ s t := by
  rcases execStore_cases w s a k with ⟨-, e⟩ | ⟨-, e⟩ <;> cases e.symm.trans h
  · exact { rLEA := absurd (by simp), mem := absurd (by simp) }
  · exact { rLEA := absurd (by simp), mem := absurd (by simp), pend := .inr ⟨14, rfl, rfl⟩ }

theorem lregs_within {n a : Nib} {k : Const} (h : execLregs n a k s = .next t) :
    Within ⟨destinations (.lregs n a k), [.rLEA], some 14, false, false⟩ s t := by
  rcases execLregs_cases s n a k with ⟨-, e⟩ | ⟨-, -, -, e⟩ | ⟨-, -, e⟩ <;> cases e.symm.trans h
  have hn : n.val ≤ 15 := by omega
  have hreg := loadBlock_reg (s.setRLEA (effAddr a k s)) (effAddr a k s) n.val hn
  have hpend := loadBlock_pend (s.setRLEA (effAddr a k s)) (effAddr a k s) n.val hn
  obtain ⟨r, p, c, hblock⟩ := loadBlock_frame (s.setRLEA (effAddr a k s)) (effAddr a k s) n.val
  rw [hblock] at hreg hpend ⊢
  exact
    { regs := fun r hr => hreg r (by simpa [destinations] using hr)
      rLEA := absurd (by simp)
      pend := hpend.imp_right fun hset => ⟨14, rfl, hset⟩ }

/-- A block write makes at most the request MEMADDR, whatever form the memory has. -/
theorem storeBlock_pend_cases (ea : Word) (n : Nat) (u : State) :
    (storeBlock ea n u).pend = u.pend ∨ (storeBlock ea n u).pend = Bank.set u.pend 14 true := by
  induction n with
  | zero => exact .inl rfl
  | succ n ih =>
    simp only [storeBlock]
    rcases memWrite_cases (storeBlock ea n u) (ea + BitVec.ofNat 32 n) (u.reg (Fin.ofNat 16 (n + 1)))
      with ⟨-, e⟩ | ⟨-, e⟩ <;> rw [e]
    · exact ih
    · right
      show Bank.set (storeBlock ea n u).pend 14 true = _
      rcases ih with hkept | hset
      · rw [hkept]
      · rw [hset]
        exact Bank.ext_get false fun i => by simp only [Bank.get_set]; split <;> rfl

theorem sregs_within {n a : Nib} {k : Const} (h : execSregs n a k s = .next t) :
    Within ⟨[], [.rLEA, .mem], some 14, false, false⟩ s t := by
  rcases execSregs_cases s n a k with ⟨-, e⟩ | ⟨-, e⟩ <;> cases e.symm.trans h
  have hpend := storeBlock_pend_cases (effAddr a k s) n.val (s.setRLEA (effAddr a k s))
  obtain ⟨m, p, c, hblock⟩ := storeBlock_frame (s.setRLEA (effAddr a k s)) (effAddr a k s) n.val
  rw [hblock] at hpend ⊢
  exact
    { rLEA := absurd (by simp)
      mem := absurd (by simp)
      pend := hpend.imp_right fun hset => ⟨14, rfl, hset⟩ }

theorem setRMemProt_within {v : Word} (h : done ((s.setRMemProt v).advance) = .next t) :
    Within ⟨[], [.rMemProt], none, false, false⟩ s t := by
  cases h
  exact { rMemProt := absurd (by simp) }

theorem inOp_within {p : Word} (h : inOp w p s = .next t) : Within ⟨[w], [.ports], some 13, false, false⟩ s t := by
  rcases inOp_cases w s p with ⟨-, v, rest, -, e⟩ | ⟨-, -, e⟩ | ⟨-, e⟩ <;> cases e.symm.trans h
  · exact { regs := reg_of_not_mem_singleton rfl, ports := absurd (by simp) }
  · exact { regs := reg_of_not_mem_singleton rfl, ports := absurd (by simp) }
  · exact { regs := reg_of_not_mem_singleton rfl, ports := absurd (by simp), pend := .inr ⟨13, rfl, rfl⟩ }

theorem outOp_within {p v : Word} (h : outOp p v s = .next t) : Within ⟨[], [.ports], some 13, false, false⟩ s t := by
  rcases outOp_cases s p v with ⟨-, e⟩ | ⟨-, e⟩ <;> cases e.symm.trans h
  · exact { ports := absurd (by simp) }
  · exact { ports := absurd (by simp), pend := .inr ⟨13, rfl, rfl⟩ }

theorem setIe_within {b : Bool} (h : done ((s.setIe b).advance) = .next t) :
    Within ⟨[], [.ie], none, false, false⟩ s t := by
  cases h
  exact { ie := absurd (by simp) }

theorem sisaOp_within {i v : Word} (h : sisaOp i v s = .next t) : Within ⟨[], [.isa], none, false, false⟩ s t := by
  rcases sisaOp_cases s i v with ⟨n, -, e⟩ | ⟨-, e⟩ <;> cases e.symm.trans h
  exact { isa := absurd (by simp) }

theorem reti_within (h : returnFromInterrupt s = .next t) : Within ⟨[], [.service], none, false, true⟩ s t := by
  rcases returnFromInterrupt_cases s with ⟨-, e⟩ | ⟨f, rest, -, e⟩ <;> cases e.symm.trans h
  exact { service := absurd (by simp), pc := nofun }

theorem lira_within (h : execLira w s = .next t) : Within ⟨[w], [], none, false, false⟩ s t := by
  rcases execLira_cases w s with ⟨-, e⟩ | ⟨f, rest, -, e⟩ <;> cases e.symm.trans h
  exact { regs := reg_of_not_mem_singleton rfl }

theorem setFlags_within {f : Flags} (h : done ((s.setFlags f).advance) = .next t) :
    Within ⟨[], [.ovMul, .ovShift, .ovUns, .ovSgn], none, false, false⟩ s t := by
  cases h
  exact
    { ovMul := absurd (by simp), ovShift := absurd (by simp), ovUns := absurd (by simp)
      ovSgn := absurd (by simp) }

theorem sleep_within (h : execSleep s = .next t) : Within ⟨[], [.asleep], none, false, true⟩ s t := by
  rcases execSleep_cases s with e | e <;> cases e.symm.trans h
  · exact {}
  · exact { asleep := absurd (by simp), pc := nofun }

end

/-! ### The footprint of every instruction -/

/-- Every instruction stays within its footprint, since the operation it stands for does. -/
theorem exec_within {i : Instr} {s t : State} (h : exec i s = .next t) : Within (footprint i) s t := by
  cases i
  case add | addi => exact addOp_within h
  case sub | subi => exact subOp_within h
  case mul | muli => exact mulOp_within h
  case mulfp | mulfpi => exact mulFpOp_within h
  case div | divi => exact divOp_within h
  case divfp | divfpi => exact divFpOp_within h
  case div64p => exact div64p_within h
  case prod | mod | llea | lflags | ldsi | ldui | ld => exact writeResult_within h
  case and | andi | or | ori | xor | xori | xnor | xnori => exact writeResult_within h
  case seq | seqi | sne | snei | slt | slti | sgt | sgti | sle | slei | sge | sgei => exact writeResult_within h
  case shl | shli => exact shlOp_within h
  case cshl | cshli | shr | shri | cshr | cshri | shar | shari => exact shiftOp_within h
  case beqz | bnez => exact branchOp_within h
  case jmp | ret | jmpr => exact jumpTo_within h
  case jal | jalr => exact linkOp_within h
  case start | startr => exact startOp_within h
  case load => exact load_within h
  case store => exact store_within h
  case lregs => exact lregs_within h
  case sregs => exact sregs_within h
  case smp | smpi => exact setRMemProt_within h
  case inp | inr => exact inOp_within h
  case out | outr => exact outOp_within h
  case eni | dei => exact setIe_within h
  case sisa | sisai => exact sisaOp_within h
  case reti => exact reti_within h
  case lira => exact lira_within h
  case sflags | sflagsi => exact setFlags_within h
  case sleep => exact sleep_within h

/-- Settles O16: the registers of the footprint. -/
theorem onlyDestinationRegistersChange : Obligations.OnlyDestinationRegistersChange := by
  intro i s t h
  exact ⟨(exec_within h).regs, t.reg_zero⟩

/-- Settles O17: the places of the footprint. -/
theorem onlyNamedPlacesChange : Obligations.OnlyNamedPlacesChange := by
  intro i s t h
  have f := exec_within h
  refine ⟨f.ovMul, f.ovShift, f.ovUns, f.ovSgn, f.rMod, f.rMulHigh, f.rDiv64, f.div64Prep, f.rMemProt, f.rLEA, f.ie, f.isa,
    f.service, f.bootActive, f.asleep, fun hmem => ?_, f.ports, f.params, f.prog, f.schedule⟩
  obtain ⟨hkept, hrecord⟩ := f.mem hmem
  exact ⟨fun a => by rw [hkept], hrecord⟩

/-- Settles O18: the stored requests are as before, or with the footprint's own added. -/
theorem instructionsOnlyAddTheirRequest : Obligations.InstructionsOnlyAddTheirRequest := by
  intro i s t j h
  rcases (exec_within h).pend with hkept | ⟨k, hk, hset⟩
  · rw [State.pendAt_of_pend hkept]
    exact ⟨id, .inl⟩
  · have hread : t.pendAt j = if k = j ∧ k ≠ 0 then true else s.pendAt j :=
      (State.pendAt_of_pend (t := t) (s := raise k s) hset j).trans (pendAt_raise s k j)
    rw [hread]
    by_cases hkj : k = j ∧ k ≠ 0
    · rw [if_pos hkj]
      exact ⟨fun _ => rfl, fun _ => .inr (hk.trans (congrArg some hkj.1))⟩
    · rw [if_neg hkj]
      exact ⟨id, .inl⟩

/-- Settles O19: irqHold is the footprint's, and a peripheral request that is held back is no candidate. -/
theorem holdFollowsMultiplyAndDivide : Obligations.HoldFollowsMultiplyAndDivide := by
  intro i s t h
  have hhold : t.irqHold = holdsPeripherals i := (exec_within h).irqHold
  refine ⟨hhold, fun hi j hj hperipheral => ?_⟩
  obtain ⟨-, hcand⟩ := interruptToTake_candidate hj
  obtain ⟨-, -, hfree⟩ := (State.candidate_iff t j).mp hcand
  exact hfree ⟨hhold.trans hi, hperipheral⟩

theorem mayLeavePc_eq_false {i : Instr} (hstays : transfersControl i = false) (hwakes : i ≠ .sleep) :
    mayLeavePc i = false := by
  cases i
  case sleep => exact absurd rfl hwakes
  all_goals exact hstays

/-- Settles O20: pc as the footprint has it. -/
theorem otherInstructionsAdvance : Obligations.OtherInstructionsAdvance := by
  intro i s t h hstays hwakes
  exact (exec_within h).pc (mayLeavePc_eq_false hstays hwakes)

end Sys2Proof.Safety
end

section
/-! PROOF. The machine invariant (10_state.md sections 5 to 7, 20_memory.md section 1, 60_exceptions.md sections 2 to 6): what
any step can do to data memory and to the record of stores, and that every step keeps a good state good. -/

namespace Sys2Proof.Safety

open Sys2Proof.Machine

/-! ### Stores -/

/-- The memory m and the record c come from those of s by stores that the bounds of s permit (20_memory.md R75, R76, R80). -/
structure StoredFrom (s : State) (m : Memory) (c : List Word) : Prop where
  wf : s.mem.wf = true → m.wf = true
  below : s.mem.below s.params.memSize = true → m.below s.params.memSize = true
  shielded : s.mem.wf = true → ∀ a, a < s.rMemProt.toNat → m.read a = s.mem.read a
  kept : ∀ a ∈ s.codeStores, a ∈ c
  code : ∀ a ∈ c, a ∈ s.codeStores ∨ (s.prog.read a.toNat).isSome = true
  recorded : s.mem.wf = true → ∀ a : Word, (s.prog.read a.toNat).isSome = true →
    m.read a.toNat ≠ s.mem.read a.toNat → a ∈ c

/-- u has the program, the parameters and the protection bound of s, so that it permits and records the same stores. -/
structure SameBounds (s u : State) : Prop where
  params : u.params = s.params := by rfl
  prog : u.prog = s.prog := by rfl
  rMemProt : u.rMemProt = s.rMemProt := by rfl

section
variable {s u : State}

theorem StoredFrom.of_unchanged {m : Memory} {c : List Word} (hm : m = s.mem) (hc : c = s.codeStores) :
    StoredFrom s m c := by
  subst hm hc
  exact
    { wf := id, below := id, shielded := fun _ _ _ => rfl, kept := fun _ ha => ha, code := fun _ ha => .inl ha
      recorded := fun _ _ _ hne => absurd rfl hne }

/-- One more permitted store. -/
theorem StoredFrom.write (hb : SameBounds s u) (h : StoredFrom s u.mem u.codeStores) {addr : Word}
    (hw : u.writable addr = true) (v : Word) : StoredFrom s (u.mem.write addr.toNat v) (u.codeStoresWith addr) := by
  obtain ⟨hexists, hopen⟩ : addr.toNat < s.params.memSize ∧ s.rMemProt.toNat ≤ addr.toNat := by
    simpa only [State.writable, State.validAddr, hb.params, hb.rMemProt, Bool.and_eq_true, decide_eq_true_eq] using hw
  constructor
  case wf => exact fun hwf => Memory.write_wf (h.wf hwf)
  case below => exact fun hbelow => Memory.write_below (h.below hbelow) hexists
  case shielded =>
    intro hwf a ha
    have hne : addr.toNat ≠ a := by omega
    rw [Memory.read_write (h.wf hwf), if_neg hne]
    exact h.shielded hwf a ha
  case kept => exact fun a ha => (u.mem_codeStoresWith addr a).mpr (.inl (h.kept a ha))
  case code =>
    intro a ha
    rcases (u.mem_codeStoresWith addr a).mp ha with hold | ⟨hcode, rfl⟩
    · exact h.code a hold
    · exact .inr (hb.prog ▸ hcode)
  case recorded =>
    intro hwf a hcode hne
    rw [State.mem_codeStoresWith]
    by_cases haddr : addr.toNat = a.toNat
    · exact .inr ⟨by rw [hb.prog, haddr]; exact hcode, (BitVec.eq_of_toNat_eq haddr).symm⟩
    · rw [Memory.read_write (h.wf hwf), if_neg haddr] at hne
      exact .inl (h.recorded hwf a hcode hne)

/-- Block writes are permitted stores, by induction over the block. -/
theorem storeBlock_storedFrom (hb : SameBounds s u) (h : StoredFrom s u.mem u.codeStores) (ea : Word) (n : Nat) :
    StoredFrom s (storeBlock ea n u).mem (storeBlock ea n u).codeStores := by
  induction n with
  | zero => exact h
  | succ n ih =>
    have hsame : SameBounds s (storeBlock ea n u) := by
      obtain ⟨m, p, c, hblock⟩ := storeBlock_frame u ea n
      rw [hblock]
      exact { params := hb.params, prog := hb.prog, rMemProt := hb.rMemProt }
    simp only [storeBlock]
    rcases memWrite_cases (storeBlock ea n u) (ea + BitVec.ofNat 32 n) (u.reg (Fin.ofNat 16 (n + 1)))
      with ⟨hw, e⟩ | ⟨-, e⟩ <;> rw [e]
    · exact ih.write hsame hw _
    · exact ih

end

/-- Every instruction's stores are permitted: STORE and SREGS check each one, and no other instruction makes any. -/
theorem exec_storedFrom {i : Instr} {s t : State} (h : exec i s = .next t) : StoredFrom s t.mem t.codeStores := by
  have hframe := (exec_within h).mem
  cases i
  case store b a k =>
    rcases execStore_cases b s a k with ⟨hw, e⟩ | ⟨-, e⟩ <;> cases e.symm.trans h
    · exact StoredFrom.write (u := s) {} (.of_unchanged rfl rfl) hw _
    · exact .of_unchanged rfl rfl
  case sregs n a k =>
    rcases execSregs_cases s n a k with ⟨-, e⟩ | ⟨-, e⟩ <;> cases e.symm.trans h
    exact storeBlock_storedFrom (s := s) (u := s.setRLEA (effAddr a k s)) {} (.of_unchanged rfl rfl) _ _
  all_goals
    obtain ⟨hmem, hrecord⟩ := hframe (by simp [footprint, writes])
    exact .of_unchanged hmem hrecord

/-! ### Any step -/

/-- Only the schedule tells s from the state in which its core step runs. -/
theorem StoredFrom.of_nextSlot {s : State} {m : Memory} {c : List Word} (h : StoredFrom s.nextSlot m c) :
    StoredFrom s m c :=
  ⟨h.wf, h.below, h.shielded, h.kept, h.code, h.recorded⟩

section
variable {s t : State} (h : step s = .next t)
include h

/-- The stores of any step are permitted ones. -/
theorem step_storedFrom : StoredFrom s t.mem t.codeStores := by
  rcases step_cases h with ⟨p, rest, -, rfl⟩ | ⟨-, -, rfl⟩ | ⟨i, -, -, -, rfl⟩ | ⟨x, i, -, -, -, -, -, -, hexec⟩
  · rw [envRequest_eq]
    exact .of_unchanged rfl rfl
  · exact .of_unchanged rfl rfl
  · exact .of_unchanged rfl rfl
  · exact (exec_storedFrom hexec).of_nextSlot

/-- No step changes the program or the parameters. -/
theorem step_prog_params : t.prog = s.prog ∧ t.params = s.params := by
  rcases step_cases h with ⟨p, rest, -, rfl⟩ | ⟨-, -, rfl⟩ | ⟨i, -, -, -, rfl⟩ | ⟨x, i, -, -, -, -, -, -, hexec⟩
  · rw [envRequest_eq]
    exact ⟨rfl, rfl⟩
  · exact ⟨rfl, rfl⟩
  · exact ⟨rfl, rfl⟩
  · exact ⟨(exec_within hexec).prog, (exec_within hexec).params⟩

end

/-- Settles O14: the program and the parameters stay, and permitted stores are recorded where they change code. -/
theorem stepsNeverChangeTheProgram : Obligations.StepsNeverChangeTheProgram := by
  intro s t h
  obtain ⟨hprog, hparams⟩ := step_prog_params h
  exact ⟨hprog, hparams, (step_storedFrom h).kept, (step_storedFrom h).recorded⟩

/-- Settles O15: no permitted store is below the protection bound. -/
theorem protectedMemoryIsUnchanged : Obligations.ProtectedMemoryIsUnchanged := by
  intro s t a hwf h ha
  exact (step_storedFrom h).shielded hwf a ha

/-! ### Interrupt levels -/

theorem levelsFall_cons {l : Nib} {f : IntFrame} {rest : List IntFrame} :
    levelsFall l (f :: rest) = true ↔ f.level.val < l.val ∧ levelsFall f.level rest = true := by
  simp only [levelsFall, Bool.and_eq_true, decide_eq_true_eq]

/-- A stack whose levels fall is at most as deep as its level is high, and empty at level 0 alone. -/
theorem length_of_levelsFall {st : List IntFrame} {l : Nib} (h : levelsFall l st = true) :
    st.length ≤ l.val ∧ (st = [] ↔ l = 0) := by
  induction st generalizing l with
  | nil => exact ⟨Nat.zero_le _, fun _ => of_decide_eq_true h, fun _ => rfl⟩
  | cons f rest ih =>
    obtain ⟨hlt, hrest⟩ := levelsFall_cons.mp h
    obtain ⟨hlen, -⟩ := ih hrest
    refine ⟨by simp only [List.length_cons]; omega, nofun, ?_⟩
    rintro rfl
    exact absurd hlt (Nat.not_lt_zero _)

/-- Settles O13: the levels of a good state fall, and the highest is 15. -/
theorem goodStackIsAtMostFifteenDeep : Obligations.GoodStackIsAtMostFifteenDeep := by
  rintro s ⟨-, -, -, -, -, hfall, -, -⟩
  obtain ⟨hlen, hempty⟩ := length_of_levelsFall hfall
  have hmax := s.ilevel.isLt
  exact ⟨hlen, by omega, hempty⟩

/-- RETI goes back to the level saved last; no other instruction changes the levels. -/
theorem exec_levelsFall {i : Instr} {s t : State} (hfall : levelsFall s.ilevel s.istack = true)
    (h : exec i s = .next t) : levelsFall t.ilevel t.istack = true := by
  have hframe := (exec_within h).service
  cases i
  case reti =>
    rcases returnFromInterrupt_cases s with ⟨-, e⟩ | ⟨f, rest, hstack, e⟩ <;> cases e.symm.trans h
    rw [hstack] at hfall
    exact (levelsFall_cons.mp hfall).2
  all_goals
    obtain ⟨hlevel, hstack⟩ := hframe (by simp [footprint, writes])
    rwa [hlevel, hstack]

/-- Entry saves a level below the one it sets (R300, R302). -/
theorem step_levelsFall {s t : State} (hfall : levelsFall s.ilevel s.istack = true) (h : step s = .next t) :
    levelsFall t.ilevel t.istack = true := by
  rcases step_cases h with ⟨p, rest, -, rfl⟩ | ⟨-, -, rfl⟩ | ⟨i, -, -, hdue, rfl⟩ | ⟨x, i, -, -, -, -, -, -, hexec⟩
  · rw [envRequest_eq]
    exact hfall
  · exact hfall
  · obtain ⟨-, hcand⟩ := interruptToTake_candidate hdue
    obtain ⟨-, habove, -⟩ := (State.candidate_iff _ i).mp hcand
    exact levelsFall_cons.mpr ⟨habove, hfall⟩
  · exact exec_levelsFall (s := s.nextSlot) hfall hexec

/-! ### Requests -/

/-- What an instruction can request is none of the six idle interrupts (60_exceptions.md R293, R294). -/
theorem not_mem_neverRaised_of_requestOf {i : Instr} {j : Nib} (h : requestOf i = some j) : j ∉ neverRaised := by
  unfold requestOf at h
  split at h <;> cases h <;> decide

/-- A component's request is none of the six idle interrupts (R293, R295). -/
theorem irq_not_mem_neverRaised (p : Peripheral) : p.irq ∉ neverRaised := by
  cases p <;> decide

/-- A request of another number leaves the idle interrupts without request. -/
theorem noIdleRequest_of_set {s t : State} {j : Nib} (hidle : noIdleRequest s) (hj : j ∉ neverRaised)
    (hset : t.pend = Bank.set s.pend j true) : noIdleRequest t := by
  intro k hk
  have hne : j ≠ k := fun e => hj (e ▸ hk)
  rw [State.pendAt, hset, Bank.get_set_ne _ _ _ _ _ hne]
  exact hidle k hk

theorem step_noIdleRequest {s t : State} (hidle : noIdleRequest s) (h : step s = .next t) : noIdleRequest t := by
  rcases step_cases h with ⟨p, rest, -, rfl⟩ | ⟨-, -, rfl⟩ | ⟨i, -, -, -, rfl⟩ | ⟨x, i, -, -, -, -, -, -, hexec⟩
  · exact noIdleRequest_of_set hidle (irq_not_mem_neverRaised p) (by rw [envRequest_eq]; rfl)
  · exact hidle
  · intro k hk
    have hread : (takeInterrupt i s.nextSlot).pendAt k = (s.setPend i false).pendAt k := rfl
    rw [hread, State.pendAt_setPend]
    split
    · rfl
    · exact hidle k hk
  · rcases (exec_within hexec).pend with hkept | ⟨j, hj, hset⟩
    · intro k hk
      rw [State.pendAt_of_pend hkept]
      exact hidle k hk
    · exact noIdleRequest_of_set (s := s.nextSlot) hidle (not_mem_neverRaised_of_requestOf hj) hset

/-! ### Good states -/

/-- Settles O11: memory and record by the step's stores, the rest by the lemmas on parameters, levels and requests. -/
theorem everyStepKeepsGood : Obligations.EveryStepKeepsGood := by
  rintro s t ⟨hvalid, hwf, hbelow, hpwf, hpbelow, hfall, hidle, hrecord⟩ h
  obtain ⟨hprog, hparams⟩ := step_prog_params h
  have hstored := step_storedFrom h
  refine ⟨hparams ▸ hvalid, hstored.wf hwf, hparams ▸ hstored.below hbelow, hprog ▸ hpwf, hprog ▸ hpbelow,
    step_levelsFall hfall h, step_noIdleRequest hidle h, recordsOnlyCode_iff.mpr fun a ha => ?_⟩
  rw [hprog]
  exact (hstored.code a ha).elim (recordsOnlyCode_iff.mp hrecord a) id

/-- A launch is good: nothing is requested, in service or on record. -/
theorem launch_good {p : Config.Params} {prog image : Memory} (hvalid : p.valid) (hpwf : prog.wf = true)
    (hpbelow : prog.below 0x10000 = true) (hwf : image.wf = true) (hbelow : image.below p.memSize = true) :
    Good (State.launch p prog image) :=
  ⟨hvalid, hwf, hbelow, hpwf, hpbelow, rfl, fun _ _ => Bank.get_replicate _ _, rfl⟩

/-- Settles O12: State.reset is a launch with nothing loaded. -/
theorem resetIsGood : Obligations.ResetIsGood := by
  refine ⟨?_, fun p prog image => launch_good⟩
  rw [State.reset_eq_resetWith, ← State.launch_nothing]
  exact launch_good (by decide) rfl rfl rfl rfl

/-! ### Reset values and the register file -/

/-- Settles O21: each value is the one `State.resetWith` writes. -/
theorem resetValues : Obligations.ResetValues := by
  refine ⟨fun p => ?_, State.reset_eq_resetWith, rfl, rfl⟩
  exact ⟨rfl, rfl, rfl, rfl, rfl, fun _ => Bank.get_replicate _ _, rfl, rfl, rfl, rfl, rfl, rfl, fun _ => rfl, rfl,
    fun _ _ => rfl⟩

/-- Settles O22: a read of the register bank after a write to it. -/
theorem generalRegistersReadBack : Obligations.GeneralRegistersReadBack := by
  intro s w r v
  exact ⟨s.reg_zero, Bank.set_zero _ v, fun hw => Bank.get_set_same _ 0 v w hw,
    fun hr => Bank.get_set_ne _ 0 v w r hr.symm⟩

end Sys2Proof.Safety
end

section
/-! PROOF. Arithmetic (40_arithmetic.md R130 to R152): each pair of forms is one operation on two words, whose outcome is
restated in exact integers. -/

namespace Sys2Proof.Machine

/-- What an operation f does with the operand B, its register form does where the register holds B, and its constant form
where the sign-extended constant is B. -/
theorem forms_of_operand {α : Type} (f : Word → α) {P : α → Prop} {B r : Word} {k : Const} (h : P (f B)) :
    (B = r → P (f r)) ∧ (B = k.signExtend 32 → P (f (sext32 k))) :=
  ⟨fun hr => hr ▸ h, fun hk => by rw [sext32_eq, ← hk]; exact h⟩

/-! ### Words as exact numbers -/

/-- The sum of two words (R131). -/
theorem add_eq_ofNat (A B : Word) : A + B = BitVec.ofNat 32 ((A.toNat + B.toNat) % 2 ^ 32) := by
  apply BitVec.eq_of_toNat_eq
  simp

/-- The difference of two words (R133). -/
theorem sub_eq_ofInt (A B : Word) : A - B = BitVec.ofInt 32 (A.toNat - B.toNat) := by
  apply BitVec.eq_of_toNat_eq
  have hA := A.isLt
  have hB := B.isLt
  rw [BitVec.toNat_sub, BitVec.toNat_ofInt]
  omega

/-- The low word of the exact product (R136). -/
theorem product64_low (A B : Word) : (product64 A B).extractLsb' 0 32 = BitVec.ofInt 32 (A.toInt * B.toInt) := by
  rw [product64, extract_ofInt _ 0 (.inl rfl), pow_zero, Int.ediv_one]

/-- The high word of the exact product (R136). -/
theorem product64_high (A B : Word) :
    (product64 A B).extractLsb' 32 32 = BitVec.ofInt 32 (A.toInt * B.toInt / 2 ^ 32) :=
  extract_ofInt _ 32 (.inr (.inr rfl))

/-- Bits 47..16 of the exact product (R148). -/
theorem product64_middle (A B : Word) :
    (product64 A B).extractLsb' 16 32 = BitVec.ofInt 32 (A.toInt * B.toInt / 2 ^ 16) :=
  extract_ofInt _ 16 (.inr (.inl rfl))

/-! ### Addition, subtraction, multiplication -/

/-- Settles O23: both forms are `addOp`, its sum and flags restated. -/
theorem additionResult : Obligations.AdditionResult := by
  intro s w a b k sum
  have hsum (B : Word) : addOp w (s.reg a) B s = .next (sum B) := by
    rw [addOp_eq, add_eq_ofNat, addSgn, outsideSigned_eq]
    rfl
  exact ⟨hsum (s.reg b), sext32_eq k ▸ hsum (sext32 k)⟩

/-- Settles O24: both forms are `subOp`, its difference and flags restated. -/
theorem subtractionResult : Obligations.SubtractionResult := by
  intro s w a b k diff
  have hdiff (B : Word) : subOp w (s.reg a) B s = .next (diff B) := by
    rw [subOp_eq, sub_eq_ofInt, subSgn, outsideSigned_eq]
    rfl
  exact ⟨hdiff (s.reg b), sext32_eq k ▸ hdiff (sext32 k)⟩

/-- Settles O25: both forms are `mulOp`, the two halves of its product restated. -/
theorem multiplicationResult : Obligations.MultiplicationResult := by
  intro s w a b k product
  have hproduct (B : Word) : mulOp w (s.reg a) B s = .next (product B) := by
    rw [mulOp_eq, product64_low, product64_high, outsideSigned_eq_not]
  exact ⟨hproduct (s.reg b), sext32_eq k ▸ hproduct (sext32 k)⟩

/-- Settles O30: both forms are `mulFpOp`; rMulHigh and ovMul are the free values it draws. -/
theorem fixedPointProductResult : Obligations.FixedPointProductResult := by
  intro s w a b k ends
  have hends (B : Word) : ends B (mulFpOp w (s.reg a) B s) :=
    ⟨_, _, _, by rw [mulFpOp_eq, product64_middle]⟩
  exact ⟨hends (s.reg b), sext32_eq k ▸ hends (sext32 k)⟩

/-! ### Division -/

/-- The sign that DIV_ROUND asks of a remainder other than 0: the dividend's, or the divisor's (R141, D7). -/
def RoundsAs (rd : Config.DivRound) (T D r : Int) : Prop :=
  match rd with
  | .towardZero => r = 0 ∨ (r < 0 ↔ T < 0)
  | .towardMinusInfinity => r = 0 ∨ (r < 0 ↔ D < 0)

/-- Quotient and remainder by a divisor other than 0 are as DIV_ROUND asks. -/
theorem quotient_remainder_spec (rd : Config.DivRound) (T D : Int) (hD : D ≠ 0) :
    T = quotient rd T D * D + remainder rd T D ∧ (remainder rd T D).natAbs < D.natAbs ∧
      RoundsAs rd T D (remainder rd T D) := by
  refine ⟨by rw [remainder]; omega, ?_⟩
  cases rd with
  | towardZero =>
    have hr : remainder .towardZero T D = T.tmod D := by
      have := Int.tdiv_mul_add_tmod T D
      simp only [remainder, quotient]
      omega
    rw [hr, Int.natAbs_tmod]
    refine ⟨Nat.mod_lt _ (by omega), ?_⟩
    show T.tmod D = 0 ∨ (T.tmod D < 0 ↔ T < 0)
    have hpos : 0 ≤ T → 0 ≤ T.tmod D := Int.tmod_nonneg D
    have hneg : T ≤ 0 → T.tmod D ≤ 0 := fun h => by
      have := Int.tmod_nonneg D (show 0 ≤ -T by omega)
      rw [Int.neg_tmod] at this
      omega
    omega
  | towardMinusInfinity =>
    have hr : remainder .towardMinusInfinity T D = T.fmod D := by
      have := Int.fdiv_mul_add_fmod T D
      simp only [remainder, quotient]
      omega
    rw [hr]
    show _ ∧ (T.fmod D = 0 ∨ (T.fmod D < 0 ↔ D < 0))
    rcases lt_or_gt_of_ne hD with hneg | hpos
    · have hflip : (-T).fmod (-D) = -T.fmod D := Int.neg_fmod_neg T D
      have hlow := Int.fmod_nonneg_of_pos (-T) (show 0 < -D by omega)
      have hhigh := Int.fmod_lt_of_pos (-T) (show 0 < -D by omega)
      omega
    · have hlow := Int.fmod_nonneg_of_pos T hpos
      have hhigh := Int.fmod_lt_of_pos T hpos
      omega

/-- When a division has no stated result (R139, R141, D8). -/
theorem divUndefined_iff {rd : Config.DivRound} {T D : Int} : divUndefined rd T D = true ↔
    D = 0 ∨ ¬(-2 ^ 31 ≤ quotient rd T D ∧ quotient rd T D ≤ 2 ^ 31 - 1) := by
  rw [divUndefined, outsideSigned_eq_not, Bool.or_eq_true, decide_eq_true_eq, decide_eq_true_eq]

theorem divUndefined_eq_false {rd : Config.DivRound} {T D : Int} (hD : D ≠ 0) (hlow : -2 ^ 31 ≤ quotient rd T D)
    (hhigh : quotient rd T D ≤ 2 ^ 31 - 1) : divUndefined rd T D = false := by
  rw [← Bool.not_eq_true, divUndefined_iff]
  exact fun h => h.elim hD fun hout => hout ⟨hlow, hhigh⟩

/-- Settles O27: q and r are the model's quotient and remainder. -/
theorem divisionResult : Obligations.DivisionResult := by
  intro s w a b k B T D hB
  have hT : s.dividend (s.reg a) = T := dividend_eq s (s.reg a)
  have hD : D ≠ 0 := fun h => hB (BitVec.eq_of_toInt_eq h)
  obtain ⟨hsplit, hsmall, hround⟩ := quotient_remainder_spec s.params.divRound T D hD
  refine ⟨quotient s.params.divRound T D, remainder s.params.divRound T D, hsplit, hsmall, hround, ?_⟩
  intro hlow hhigh t
  have hdiv : divOp w (s.reg a) B s = .next t := by
    rcases divOp_cases w (s.reg a) B s with ⟨-, e⟩ | ⟨hundef, -⟩
    · rw [e, hT]
    · rw [hT, divUndefined_eq_false hD hlow hhigh] at hundef
      exact nomatch hundef
  exact forms_of_operand (fun B => divOp w (s.reg a) B s) (P := (· = .next t)) hdiv

/-- Settles O28: no result is stated, so `divOp` draws free values. -/
theorem divisionWithoutResult : Obligations.DivisionWithoutResult := by
  intro s w a b k B T D hout ends
  have hT : s.dividend (s.reg a) = T := dividend_eq s (s.reg a)
  have hundef : divUndefined s.params.divRound T D = true := by
    refine divUndefined_iff.mpr (hout.imp_right ?_)
    rintro ⟨q, r, hsplit, hsmall, hround, hmisfit⟩
    obtain ⟨hq, -, -⟩ := quotient_unique s.params.divRound T D q r hsplit hsmall hround
    rwa [hq]
  have hdiv : ends (divOp w (s.reg a) B s) := by
    rcases divOp_cases w (s.reg a) B s with ⟨hdef, -⟩ | ⟨-, e⟩
    · rw [hT, hundef] at hdef
      exact nomatch hdef
    · exact ⟨_, _, _, e⟩
  exact forms_of_operand (fun B => divOp w (s.reg a) B s) (P := ends) hdiv

/-- Settles O31: where a quotient q is stated, it is the model's by uniqueness. -/
theorem fixedPointQuotientResult : Obligations.FixedPointQuotientResult := by
  intro s w a b k B N D ends
  have hdiv : ends (divFpOp w (s.reg a) B s) := by
    rcases divFpOp_cases w (s.reg a) B s with ⟨-, e⟩ | ⟨hundef, e⟩
    · refine ⟨_, _, _, e, ?_⟩
      intro q r hsplit hsmall hround _ _
      obtain ⟨hq, -, -⟩ := quotient_unique s.params.divRound N D q r hsplit hsmall hround
      rw [hq]
    · refine ⟨_, _, _, e, ?_⟩
      intro q r hsplit hsmall hround hlow hhigh
      obtain ⟨hq, -, hD⟩ := quotient_unique s.params.divRound N D q r hsplit hsmall hround
      rw [divUndefined_eq_false hD (hq ▸ hlow) (hq ▸ hhigh)] at hundef
      exact nomatch hundef
  exact forms_of_operand (fun B => divFpOp w (s.reg a) B s) (P := ends) hdiv

end Sys2Proof.Machine

namespace Sys2Proof

/-- A form with field A alone (format A): the fields W and K are 0. -/
theorem packWord_onlyA_eq_ofNat (op : BitVec 8) (a : Nib) :
    packWord op 0 a 0 = BitVec.ofNat 32 (op.toNat * 2 ^ 24 + a.val * 2 ^ 16) := by
  rw [packWord_eq_ofNat]
  simp

end Sys2Proof

namespace Sys2Proof.Machine

/-- Settles O29: DIV64P's equation and a word of format A. -/
theorem dividendIsPrepared : Obligations.DividendIsPrepared := by
  intro s a
  exact ⟨rfl, packWord_onlyA_eq_ofNat 0x22 a⟩

end Sys2Proof.Machine
end

section
/-! PROOF. Shifts and order tests (41_logic_shift.md R169 to R179, 42_set_condition.md R195 to R202): each shift is `shiftOp` or
`shlOp` with its operation on words restated in numbers; each order test is `setOp` of a signed comparison. -/

namespace Sys2Proof.Machine

/-! ### Shifted words as numbers -/

theorem shiftLeft_eq_ofNat (A : Word) (n : Nat) : A <<< n = BitVec.ofNat 32 (A.toNat * 2 ^ n % 2 ^ 32) := by
  apply BitVec.eq_of_toNat_eq
  simp [BitVec.toNat_shiftLeft, Nat.shiftLeft_eq]

theorem shrl_eq_ofNat (A : Word) (n : Nat) : shrl A n = BitVec.ofNat 32 (A.toNat / 2 ^ n) := by
  apply BitVec.eq_of_toNat_eq
  have hlt : A.toNat / 2 ^ n < 2 ^ 32 := lt_of_le_of_lt (Nat.div_le_self _ _) A.isLt
  rw [shrl, BitVec.toNat_ushiftRight, Nat.shiftRight_eq_div_pow, BitVec.toNat_ofNat, Nat.mod_eq_of_lt hlt]

theorem shra_eq_ofInt (A : Word) (n : Nat) : shra A n = BitVec.ofInt 32 (A.toInt / 2 ^ n) := by
  rw [shra, BitVec.sshiftRight, Int.shiftRight_eq_div_pow]
  norm_cast

/-- The bits shifted out are those of the quotient by 2^(32 - n) (R170). -/
theorem shiftedOut_eq (A : Word) (n : Nat) : shiftedOut A n = decide (n ≥ 1 ∧ A.toNat / 2 ^ (32 - n) ≠ 0) := by
  have hbits : A >>> (32 - n) ≠ 0 ↔ A.toNat / 2 ^ (32 - n) ≠ 0 := by
    rw [← Nat.shiftRight_eq_div_pow, ← BitVec.toNat_ushiftRight]
    exact (BitVec.toNat_ne_iff_ne (y := 0#32)).symm
  rw [Bool.eq_iff_iff]
  simp only [shiftedOut, Bool.and_eq_true, decide_eq_true_eq, bne_iff_ne]
  exact and_congr_right fun _ => hbits

/-! ### Shifts by at most 31, and by more -/

section
variable {w : RegNum} {A B : Word} {s : State}

theorem shiftOp_of_le (f : Word → Nat → Word) (hn : B.toNat ≤ 31) : shiftOp f w A B s = .next
    { s with regs := Bank.set s.regs w (f A B.toNat), pc := s.pc + 1, irqHold := false } := by
  rcases shiftOp_cases w A B s f with ⟨-, e⟩ | ⟨hlarge, -⟩
  · exact e
  · omega

theorem shiftOp_of_gt (f : Word → Nat → Word) (hn : B.toNat > 31) : ∃ (x : Word) (n : Nat), shiftOp f w A B s = .next
    { s with regs := Bank.set s.regs w x, pc := s.pc + 1, irqHold := false, freeCount := n } := by
  rcases shiftOp_cases w A B s f with ⟨hsmall, -⟩ | ⟨-, e⟩
  · omega
  · exact ⟨_, _, e⟩

theorem shlOp_of_le (hn : B.toNat ≤ 31) : shlOp w A B s = .next
    { s with regs := Bank.set s.regs w (A <<< B.toNat), flags := { s.flags with ovShift := shiftedOut A B.toNat }
             pc := s.pc + 1, irqHold := false } := by
  rcases shlOp_cases w A B s with ⟨-, e⟩ | ⟨hlarge, -⟩
  · exact e
  · omega

theorem shlOp_of_gt (hn : B.toNat > 31) : ∃ (x : Word) (v : Bool) (n : Nat), shlOp w A B s = .next
    { s with regs := Bank.set s.regs w x, flags := { s.flags with ovShift := v }, pc := s.pc + 1, irqHold := false
             freeCount := n } := by
  rcases shlOp_cases w A B s with ⟨hsmall, -⟩ | ⟨-, e⟩
  · omega
  · exact ⟨_, _, _, e⟩

end

/-- Settles O34: both forms are `shlOp`, the word and the flag restated. -/
theorem leftShiftResult : Obligations.LeftShiftResult := by
  intro s w a b k B A n hn t
  have hshift : shlOp w (s.reg a) B s = .next t := by
    rw [shlOp_of_le hn, shiftLeft_eq_ofNat, shiftedOut_eq]
  exact forms_of_operand (fun B => shlOp w (s.reg a) B s) (P := (· = .next t)) hshift

/-- Settles O35: each form is `shiftOp` of one operation on words, restated. -/
theorem otherShiftResults : Obligations.OtherShiftResults := by
  intro s w a b k B A n hn t left logical right arithmetic
  have hleft : shiftOp rotl w (s.reg a) B s = .next left := by rw [shiftOp_of_le rotl hn, rotl_eq _ _ hn]
  have hlogical : shiftOp shrl w (s.reg a) B s = .next logical := by rw [shiftOp_of_le shrl hn, shrl_eq_ofNat]
  have hright : shiftOp rotr w (s.reg a) B s = .next right := by rw [shiftOp_of_le rotr hn, rotr_eq _ _ hn]
  have harithmetic : shiftOp shra w (s.reg a) B s = .next arithmetic := by
    rw [shiftOp_of_le shra hn, shra_eq_ofInt]
  exact forms_of_operand (fun B => fun f => shiftOp f w (s.reg a) B s)
    (P := fun o => o rotl = .next left ∧ o shrl = .next logical ∧ o rotr = .next right ∧ o shra = .next arithmetic)
    ⟨hleft, hlogical, hright, harithmetic⟩

/-- Settles O36: above 31 the results are free values. -/
theorem shiftsAboveThirtyOne : Obligations.ShiftsAboveThirtyOne := by
  intro s w a b k B hn plain flagged
  have hplain (f : Word → Nat → Word) : plain (shiftOp f w (s.reg a) B s) := shiftOp_of_gt f hn
  have hflagged : flagged (shlOp w (s.reg a) B s) := shlOp_of_gt hn
  exact forms_of_operand (fun B => (shlOp w (s.reg a) B s, fun f => shiftOp f w (s.reg a) B s))
    (P := fun o => flagged o.1 ∧ plain (o.2 rotl) ∧ plain (o.2 shrl) ∧ plain (o.2 rotr) ∧ plain (o.2 shra))
    ⟨hflagged, hplain rotl, hplain shrl, hplain rotr, hplain shra⟩

/-! ### Order tests -/

/-- A constant keeps its signed value in its extension (00_scope.md R9). -/
theorem toInt_sext32 (k : Const) : (sext32 k).toInt = k.toInt := by
  rw [sext32_eq, BitVec.toInt_signExtend_of_le (by decide)]

/-- Settles O38: each form is `setOp` of the comparison, a constant compared by its own signed value. -/
theorem orderTests : Obligations.OrderTests := by
  intro s w a b k t A B K
  have hset (c p : Prop) [Decidable c] [Decidable p] (hcp : c ↔ p) : setOp w (decide c) s = .next (t p) :=
    setOp_decide_of_iff w s hcp
  have hK : (sext32 k).toInt = K := toInt_sext32 k
  refine ⟨hset _ _ Iff.rfl, hset _ _ Iff.rfl, hset _ _ Iff.rfl, hset _ _ Iff.rfl, ?slti, ?sgti, ?slei, ?sgei⟩
  case slti => exact hset (A < (sext32 k).toInt) _ (by rw [hK])
  case sgti => exact hset (A > (sext32 k).toInt) _ (by rw [hK])
  case slei => exact hset (A ≤ (sext32 k).toInt) _ (by rw [hK])
  case sgei => exact hset (A ≥ (sext32 k).toInt) _ (by rw [hK])

end Sys2Proof.Machine
end

section
/-! PROOF. Jumps (43_jumps.md R210 to R220): each form is `jumpTo`, alone or after a link or a switch of the boot memory, on
a target that is a register or the sign-extended constant. -/

namespace Sys2Proof.Machine

/-- The requests after a transfer to the target T: PCADDR is added for an illegal one (R211). -/
theorem pend_of_target (T : Word) (p : Bank Bool) :
    (if illegalTarget T then Bank.set p 15 true else p) = if T.toNat > 0xFFFF then Bank.set p 15 true else p := by
  simp only [illegalTarget, decide_eq_true_eq]
  rfl

/-- Settles O39: taken, a branch is `jumpTo`; not taken, it advances. -/
theorem branchResult : Obligations.BranchResult := by
  intro s a k T taken notTaken
  have hbranch (c : Bool) : branchOp c k s = .next (if c then taken else notTaken) := by
    rw [branchOp_eq, jumpTo_eq, sext32_eq, pend_of_target]
    rfl
  refine ⟨?beqz, ?bnez⟩
  case beqz =>
    refine (hbranch (decide (s.reg a = 0))).trans ?_
    simp only [decide_eq_true_eq]
  case bnez =>
    refine (hbranch (decide (s.reg a ≠ 0))).trans ?_
    simp only [decide_eq_true_eq, ite_not]

/-- Settles O40: every form is `jumpTo`. -/
theorem jumpResult : Obligations.JumpResult := by
  intro s b k t
  have hjump (T : Word) : done (jumpTo T s) = .next (t T) := by
    rw [jumpTo_eq, pend_of_target]
    rfl
  exact ⟨sext32_eq k ▸ hjump (sext32 k), hjump (s.reg b), hjump (s.reg b)⟩

/-- Settles O41: both forms are `linkOp`, the target read before the link is written. -/
theorem callResult : Obligations.CallResult := by
  intro s w b k t
  have hcall (T : Word) : linkOp w T s = .next (t T) := by
    rw [linkOp_eq, pend_of_target]
  exact ⟨sext32_eq k ▸ hcall (sext32 k), hcall (s.reg b)⟩

/-- Settles O42: both forms are `startOp`. -/
theorem startResult : Obligations.StartResult := by
  intro s b k t
  have hstart (T : Word) : startOp T s = .next (t T) := by
    rw [startOp_eq, pend_of_target]
  exact ⟨sext32_eq k ▸ hstart (sext32 k), hstart (s.reg b)⟩

end Sys2Proof.Machine
end

section
/-! PROOF. Loads and stores (44_load_store.md R230 to R236, 20_memory.md R74, R75): the single forms by whether the address
exists and is open, the block forms by what the block operations do at every word. -/

namespace Sys2Proof.Machine

/-! ### Addresses -/

section
variable {s : State} {w a b : RegNum} {k : Const}

theorem effAddr_eq_add : effAddr a k s = s.reg a + k.signExtend 32 := by
  rw [effAddr, sext32_eq]

theorem effAddr_eq_ofNat : effAddr a k s = BitVec.ofNat 32 ((s.reg a).toNat + (k.signExtend 32).toNat) := by
  rw [effAddr_eq_add, BitVec.ofNat_add, BitVec.ofNat_toNat, BitVec.ofNat_toNat, BitVec.setWidth_eq, BitVec.setWidth_eq]

theorem State.validAddr_iff {addr : Word} : s.validAddr addr = true ↔ addr.toNat < s.params.memSize :=
  decide_eq_true_iff

theorem State.writable_iff {addr : Word} :
    s.writable addr = true ↔ addr.toNat < s.params.memSize ∧ addr.toNat ≥ s.rMemProt.toNat := by
  simp only [State.writable, State.validAddr, Bool.and_eq_true, decide_eq_true_eq]

theorem State.memWord_of_some {addr v : Word} (h : s.mem.read addr.toNat = some v) : s.memWord addr = v := by
  simp only [State.memWord, h]

theorem State.memWord_of_none {addr : Word} (h : s.mem.read addr.toNat = none) :
    s.memWord addr = Config.powerOnWord addr.toNat := by
  simp only [State.memWord, h]

/-! ### LOAD and STORE -/

theorem exec_load_of_valid (h : s.validAddr (effAddr a k s) = true) : exec (.load w a k) s = .next
    { s with regs := Bank.set s.regs w (s.memWord (effAddr a k s)), rLEA := effAddr a k s, pc := s.pc + 1
             irqHold := false } := by
  rcases execLoad_cases w s a k with ⟨-, e⟩ | ⟨hno, -⟩
  · exact e
  · exact nomatch h.symm.trans hno

theorem exec_load_of_missing (h : ¬ s.validAddr (effAddr a k s) = true) : ∃ (x : Word) (n : Nat),
    exec (.load w a k) s = .next
      { s with regs := Bank.set s.regs w x, rLEA := effAddr a k s, pend := Bank.set s.pend 14 true, pc := s.pc + 1
               irqHold := false, freeCount := n } := by
  rcases execLoad_cases w s a k with ⟨hyes, -⟩ | ⟨-, e⟩
  · exact absurd hyes h
  · exact ⟨_, _, e⟩

theorem exec_store_of_writable (h : s.writable (effAddr a k s) = true) : exec (.store b a k) s = .next
    { s with mem := s.mem.write (effAddr a k s).toNat (s.reg b), codeStores := s.codeStoresWith (effAddr a k s)
             rLEA := effAddr a k s, pc := s.pc + 1, irqHold := false } := by
  rcases execStore_cases b s a k with ⟨-, e⟩ | ⟨hno, -⟩
  · exact e
  · exact nomatch h.symm.trans hno

theorem exec_store_of_refused (h : ¬ s.writable (effAddr a k s) = true) : exec (.store b a k) s = .next
    { s with rLEA := effAddr a k s, pend := Bank.set s.pend 14 true, pc := s.pc + 1, irqHold := false } := by
  rcases execStore_cases b s a k with ⟨hyes, -⟩ | ⟨-, e⟩
  · exact absurd hyes h
  · exact e

end

/-- Settles O43: a LOAD from an address that exists, and from one that does not. -/
theorem loadResult : Obligations.LoadResult := by
  intro s w a k EA
  have hEA : effAddr a k s = EA := effAddr_eq_ofNat
  have hvalid : s.validAddr (effAddr a k s) = true ↔ EA.toNat < s.params.memSize := by
    rw [hEA, State.validAddr_iff]
  refine ⟨?stored, ?unwritten, ?missing⟩
  case stored =>
    intro v hexists hread
    rw [exec_load_of_valid (hvalid.mpr hexists), hEA, State.memWord_of_some hread]
  case unwritten =>
    intro hexists hread
    rw [exec_load_of_valid (hvalid.mpr hexists), hEA, State.memWord_of_none hread]
  case missing =>
    intro hmissing
    have hload := exec_load_of_missing (w := w) (mt hvalid.mp (not_lt.mpr hmissing))
    rwa [hEA] at hload

/-- Settles O44: a STORE to a writable address, and to any other. -/
theorem storeResult : Obligations.StoreResult := by
  intro s b a k hwf EA
  have hEA : effAddr a k s = EA := effAddr_eq_ofNat
  have hwritable : s.writable (effAddr a k s) = true ↔
      EA.toNat < s.params.memSize ∧ EA.toNat ≥ s.rMemProt.toNat := by
    rw [hEA, State.writable_iff]
  refine ⟨?stored, ?failed⟩
  case stored =>
    intro hexists hopen
    refine ⟨s.mem.write EA.toNat (s.reg b), ?_, fun x => ?_⟩
    · rw [exec_store_of_writable (hwritable.mpr ⟨hexists, hopen⟩), hEA]
      rfl
    · simp only [Memory.read_write hwf, eq_comm]
  case failed =>
    intro hout
    have hno : ¬ s.writable (effAddr a k s) = true := by
      rw [hwritable]
      omega
    rw [exec_store_of_refused hno, hEA]

/-- Settles O45: the STORE leaves the address valid and its word there, whatever registers address it. -/
theorem loadReadsWhatStoreWrote : Obligations.LoadReadsWhatStoreWrote := by
  intro s t b a w c k k' hwf hstore hw haddr
  have ht := Host.Outcome.next.inj (hstore.symm.trans (exec_store_of_writable hw))
  have hEA : effAddr c k' t = effAddr a k s := by rw [effAddr_eq_add, ← haddr, ht]; rfl
  have hword : t.memWord (effAddr c k' t) = s.reg b := by
    apply State.memWord_of_some
    rw [hEA, ht]
    exact (Memory.read_write hwf).trans (if_pos rfl)
  have hvalid : t.validAddr (effAddr c k' t) = true := by
    rw [hEA, State.validAddr_iff, ht]
    exact (State.writable_iff.mp hw).1
  have hregs : t.regs = s.regs := by rw [ht]
  refine ⟨_, exec_load_of_valid hvalid, fun hw0 => ?_, fun r hr => ?_⟩
  · rw [hword]
    exact Bank.get_set_same _ _ _ _ hw0
  · exact (Bank.get_set_ne _ _ _ _ _ hr.symm).trans (State.reg_of_regs hregs r)

/-! ### LREGS and SREGS -/

section
variable {s : State} {n a : Nib} {k : Const}

theorem exec_lregs_of_accepted (hn : n ≠ 0) (hbase : ¬(1 ≤ a.val ∧ a.val ≤ n.val)) :
    exec (.lregs n a k) s = .next ((loadBlock (effAddr a k s) n.val (s.setRLEA (effAddr a k s))).advance) := by
  rcases execLregs_cases s n a k with ⟨hzero, -⟩ | ⟨-, hlow, hhigh, -⟩ | ⟨-, -, e⟩
  · exact absurd hzero hn
  · exact absurd ⟨hlow, hhigh⟩ hbase
  · exact e

theorem exec_lregs_of_base_loaded (hlow : 1 ≤ a.val) (hhigh : a.val ≤ n.val) :
    exec (.lregs n a k) s = .refused .blockBaseLoaded := by
  rcases execLregs_cases s n a k with ⟨rfl, -⟩ | ⟨-, -, -, e⟩ | ⟨-, hbase, -⟩
  · exact absurd (hlow.trans hhigh) (by decide)
  · exact e
  · exact absurd ⟨hlow, hhigh⟩ hbase

theorem exec_sregs_of_accepted (hn : n ≠ 0) :
    exec (.sregs n a k) s = .next ((storeBlock (effAddr a k s) n.val (s.setRLEA (effAddr a k s))).advance) := by
  rcases execSregs_cases s n a k with ⟨hzero, -⟩ | ⟨-, e⟩
  · exact absurd hzero hn
  · exact e

end

/-- Settles O46: `loadBlock_spec` at the start address, in the frame of `loadBlock_frame`. -/
theorem blockLoadResult : Obligations.BlockLoadResult := by
  intro s n a k hn hbase EA addr
  have hEA : effAddr a k s = EA := effAddr_eq_add
  obtain ⟨-, -, hpend, hloaded, habove⟩ := loadBlock_spec (s.setRLEA EA) EA n.val (by omega)
  obtain ⟨regs, pend, count, hblock⟩ := loadBlock_frame (s.setRLEA EA) EA n.val
  rw [hblock] at hpend hloaded habove
  refine ⟨regs, count, ?_, hloaded, habove⟩
  rw [exec_lregs_of_accepted hn hbase, hEA, hblock]
  cases hpend
  rfl

/-- Settles O48: `storeBlock_spec` and `storeBlock_codeStores` at the start address, in the frame of `storeBlock_frame`. -/
theorem blockStoreResult : Obligations.BlockStoreResult := by
  intro s n a k hwf hn EA addr stored
  have hEA : effAddr a k s = EA := effAddr_eq_add
  have hcode := storeBlock_codeStores (s.setRLEA EA) EA n.val (by omega)
  obtain ⟨-, -, -, hpend, hread, hother⟩ := storeBlock_spec (s.setRLEA EA) EA n.val (by omega) hwf
  obtain ⟨mem, pend, record, hblock⟩ := storeBlock_frame (s.setRLEA EA) EA n.val
  rw [hblock] at hpend hread hother hcode
  refine ⟨mem, record, ?frame, fun x => (hcode x).trans (or_congr_right ?record), ?stored, ?others⟩
  case frame =>
    rw [exec_sregs_of_accepted hn, hEA, hblock]
    cases hpend
    rfl
  case record =>
    exact exists_congr fun i => by simp only [stored, addr, and_assoc]; rfl
  case stored =>
    rintro i ⟨hlow, hhigh, hexists, hopen⟩
    exact hread i hlow hhigh hexists hopen
  case others =>
    intro x hx
    exact hother x fun i hlow hhigh hexists hopen => hx i ⟨hlow, hhigh, hexists, hopen⟩

/-- Settles O47: the refusals of `execLregs` and `execSregs`. -/
theorem blockFormsRefused : Obligations.BlockFormsRefused := by
  intro s n a k
  exact ⟨rfl, rfl, exec_lregs_of_base_loaded⟩

/-! ### The last address (R230, R270) -/

/-- A block form leaves its start address in rLEA, as no word of the block writes it. -/
theorem block_rLEA (ea addr : Word) (n : Nat) (s : State) :
    (loadBlock ea n (s.setRLEA addr)).rLEA = addr ∧ (storeBlock ea n (s.setRLEA addr)).rLEA = addr := by
  obtain ⟨r, p, c, hload⟩ := loadBlock_frame (s.setRLEA addr) ea n
  obtain ⟨m, q, d, hstore⟩ := storeBlock_frame (s.setRLEA addr) ea n
  rw [hload, hstore]
  exact ⟨rfl, rfl⟩

/-- Settles O56: each memory form leaves its effective address, in every outcome it has. -/
theorem lastAddressIsRead : Obligations.LastAddressIsRead := by
  intro s t w r a k
  refine ⟨rfl, fun h => ?_⟩
  rw [← effAddr_eq_add]
  rcases h with hload | hstore | hlregs | hsregs
  · rcases execLoad_cases r s a k with ⟨-, e⟩ | ⟨-, e⟩ <;> cases e.symm.trans hload <;> rfl
  · rcases execStore_cases r s a k with ⟨-, e⟩ | ⟨-, e⟩ <;> cases e.symm.trans hstore <;> rfl
  · rcases execLregs_cases s r a k with ⟨-, e⟩ | ⟨-, -, -, e⟩ | ⟨-, -, e⟩ <;> cases e.symm.trans hlregs
    exact (block_rLEA _ _ _ s).1
  · rcases execSregs_cases s r a k with ⟨-, e⟩ | ⟨-, e⟩ <;> cases e.symm.trans hsregs
    exact (block_rLEA _ _ _ s).2

/-! ### The protection bound -/

/-- Settles O50: SMPI's equation and a word of format K. -/
theorem constantProtectionBoundIsSet : Obligations.ConstantProtectionBoundIsSet := by
  intro s k
  refine ⟨?_, ?_⟩
  · rw [← sext32_eq]
    rfl
  · show packWord 0xA7 0 0 k = _
    rw [packWord_eq_ofNat]
    simp

end Sys2Proof.Machine
end

section
/-! PROOF. Ports, interrupt control, flags, sleeping and register load (45_port_io.md, 46_interrupt_instructions.md, 47_other.md,
48_register_load.md). -/

namespace Sys2Proof.Machine

/-! ### Ports -/

theorem State.portExists_iff {s : State} {p : Word} : s.portExists p = true ↔ p ∈ s.params.ports :=
  List.contains_iff_mem

theorem State.portExists_eq_false {s : State} {p : Word} (h : s.portExists p = false) : p ∉ s.params.ports :=
  fun hp => nomatch (State.portExists_iff.mpr hp).symm.trans h

/-- Settles O51: both forms are `inOp`, whose three outcomes are the three clauses. -/
theorem portInputResult : Obligations.PortInputResult := by
  intro s w b k P ends
  have hends : ends (inOp w P s) := by
    rcases inOp_cases w s P with ⟨hport, v, rest, hanswers, e⟩ | ⟨hport, hanswers, e⟩ | ⟨hport, e⟩
    · have hexists := State.portExists_iff.mp hport
      refine ⟨fun v' rest' _ hanswers' => ?_, fun _ hnil => ?_, fun hmissing => absurd hexists hmissing⟩
      · cases hanswers.symm.trans hanswers'
        exact e
      · exact nomatch hanswers.symm.trans hnil
    · have hexists := State.portExists_iff.mp hport
      refine ⟨fun v' rest' _ hanswers' => ?_, fun _ _ => ⟨_, _, e⟩, fun hmissing => absurd hexists hmissing⟩
      exact nomatch hanswers.symm.trans hanswers'
    · have hmissing := State.portExists_eq_false hport
      exact ⟨fun _ _ hexists => absurd hexists hmissing, fun hexists => absurd hexists hmissing, fun _ => ⟨_, _, e⟩⟩
  exact (forms_of_operand (fun P => inOp w P s) (P := ends) hends).symm

/-- Settles O52: both forms are `outOp`. -/
theorem portOutputResult : Obligations.PortOutputResult := by
  intro s a b k P t
  have hout : outOp P (s.reg a) s = .next t := by
    rcases outOp_cases s P (s.reg a) with ⟨hport, e⟩ | ⟨hport, e⟩
    · simp only [t, e, if_pos (State.portExists_iff.mp hport)]
    · simp only [t, e, if_neg (State.portExists_eq_false hport)]
  exact (forms_of_operand (fun P => outOp P (s.reg a) s) (P := (· = .next t)) hout).symm

/-! ### Interrupt control -/

/-- Settles O53: ENI and DEI set one bit, and nothing is due with ie cleared. -/
theorem interruptsEnabledAndDisabled : Obligations.InterruptsEnabledAndDisabled := by
  intro s
  refine ⟨rfl, rfl, fun t h => ?_⟩
  cases h
  exact interruptToTake_eq_none (.inl rfl)

/-- A word that is an interrupt number, and one that is none (R262, D20, D37). -/
theorem irqOfWord_of_eq {v : Word} {i : Nib} (hi : 1 ≤ i.val) (hv : v.toNat = i.val) : irqOfWord v = some i := by
  have hrange : 1 ≤ v.toNat ∧ v.toNat ≤ 15 := by omega
  rw [irqOfWord, dif_pos hrange]
  exact congrArg some (Fin.ext hv)

theorem irqOfWord_of_outside {v : Word} (hv : v.toNat = 0 ∨ v.toNat > 15) : irqOfWord v = none := by
  have hrange : ¬(1 ≤ v.toNat ∧ v.toNat ≤ 15) := by omega
  rw [irqOfWord, dif_neg hrange]

/-- Settles O54: both forms are `sisaOp`, which asks for an interrupt number. -/
theorem routineAddressIsSet : Obligations.RoutineAddressIsSet := by
  intro s a b k t
  refine ⟨?set, ?refused⟩
  case set =>
    intro i hi hreg
    have hset (v : Word) : sisaOp (s.reg a) v s = .next (t i v) := by
      simp only [sisaOp, irqOfWord_of_eq hi hreg]
      rfl
    exact ⟨hset (s.reg b), sext32_eq k ▸ hset (sext32 k)⟩
  case refused =>
    intro hreg
    have hrefused (v : Word) : sisaOp (s.reg a) v s = .refused .noSuchInterrupt := by
      simp only [sisaOp, irqOfWord_of_outside hreg]
    exact ⟨hrefused (s.reg b), hrefused (sext32 k)⟩

/-- Settles O55: RETI and LIRA on a stack with an innermost frame, and on an empty one. -/
theorem returnFromRoutine : Obligations.ReturnFromRoutine := by
  intro s w
  refine ⟨?inside, ?outside⟩
  case inside =>
    intro f rest hstack
    refine ⟨?reti, ?lira⟩
    case reti =>
      rcases returnFromInterrupt_cases s with ⟨hempty, -⟩ | ⟨g, rest', hstack', e⟩
      · exact nomatch hstack.symm.trans hempty
      · cases hstack.symm.trans hstack'
        exact e
    case lira =>
      rcases execLira_cases w s with ⟨hempty, -⟩ | ⟨g, rest', hstack', e⟩
      · exact nomatch hstack.symm.trans hempty
      · cases hstack.symm.trans hstack'
        exact e
  case outside =>
    intro hempty
    refine ⟨?reti, ?lira⟩
    case reti =>
      rcases returnFromInterrupt_cases s with ⟨-, e⟩ | ⟨g, rest', hstack', -⟩
      · exact e
      · exact nomatch hempty.symm.trans hstack'
    case lira =>
      rcases execLira_cases w s with ⟨-, e⟩ | ⟨g, rest', hstack', -⟩
      · exact e
      · exact nomatch hempty.symm.trans hstack'

/-! ### Flags -/

/-- Bit p of the overflow register: the flag placed at p, or 0 (47_other.md R272). -/
theorem packFlags_getLsbD {l : Config.FlagsLayout} (hl : l.distinct) (f : Flags) (p : Fin 32) :
    (packFlags l f).getLsbD p =
      if p = l.ovMul then f.ovMul else if p = l.ovShift then f.ovShift
      else if p = l.ovUns then f.ovUns else if p = l.ovSgn then f.ovSgn else false := by
  obtain ⟨hms, hmu, hmg, hsu, hsg, hug⟩ := hl
  simp only [packFlags, BitVec.getLsbD_or, flagBit_getLsbD]
  by_cases hm : p = l.ovMul
  · simp [hm, hms, hmu, hmg]
  · by_cases hs : p = l.ovShift
    · simp [hs, hms.symm, hsu, hsg]
    · by_cases hu : p = l.ovUns
      · simp [hu, hmu.symm, hsu.symm, hug]
      · by_cases hg : p = l.ovSgn
        · simp [hg, hmg.symm, hsg.symm, hug.symm]
        · simp [hm, hs, hu, hg]

/-- The flags packed into a register are the flags unpacked from it. -/
theorem unpackFlags_packFlags {l : Config.FlagsLayout} (hl : l.distinct) (f : Flags) :
    unpackFlags l (packFlags l f) = f := by
  have hbit := packFlags_getLsbD hl f
  obtain ⟨hms, hmu, hmg, hsu, hsg, hug⟩ := hl
  simp only [unpackFlags, hbit, hms.symm, hmu.symm, hmg.symm, hsu.symm, hsg.symm, hug.symm, if_true, if_false]

/-- Settles O57: LFLAGS writes the packed flags, SFLAGS and SFLAGSI unpack theirs. -/
theorem flagsAreReadAndWritten : Obligations.FlagsAreReadAndWritten := by
  intro s w b k hl L set
  refine ⟨⟨packFlags L s.flags, packFlags_getLsbD hl s.flags, rfl⟩, rfl, ?_⟩
  have hset (v : Word) : done ((s.setFlags (unpackFlags L v)).advance) = .next (set v) := rfl
  exact sext32_eq k ▸ hset (sext32 k)

/-- Settles O58: SFLAGS unpacks what LFLAGS packed into the register. -/
theorem flagsSaveAndRestore : Obligations.FlagsSaveAndRestore := by
  intro s t u w f hl hw hsave hrestore
  cases hsave
  cases hrestore
  show unpackFlags s.params.flagsLayout (Bank.get (Bank.set s.regs w (packFlags s.params.flagsLayout s.flags)) 0 w) = _
  rw [Bank.get_set_same _ _ _ _ hw, unpackFlags_packFlags hl]

/-! ### Sleeping and register load -/

/-- Settles O59: SLEEP ends at once exactly if both parts of its test hold. -/
theorem sleepResult : Obligations.SleepResult := by
  intro s
  have htest : (s.params.sleepWakesOnPending && s.peripheralPending) = true ↔
      s.params.sleepWakesOnPending = true ∧ ∃ i : Nib, 3 ≤ i.val ∧ i.val ≤ 8 ∧ s.pendAt i = true := by
    rw [Bool.and_eq_true, State.peripheralPending_iff]
  exact ⟨fun h => if_pos (htest.mpr h), fun h => if_neg (mt htest.mp h)⟩

/-- Settles O60: each form is a write of one word, the extended constants restated as numbers. -/
theorem registerLoadResult : Obligations.RegisterLoadResult := by
  intro s w a k t
  have hwrite (v : Word) : writeResult w v s = .next (t v) := writeResult_eq w v s
  have hsigned : sext32 k = BitVec.ofInt 32 k.toInt := by rw [← toInt_sext32, BitVec.ofInt_toInt]
  have hunsigned : zext32 k = BitVec.ofNat 32 k.toNat := by rw [zext32_eq, BitVec.ofNat_toNat]
  exact ⟨hsigned ▸ hwrite (sext32 k), hunsigned ▸ hwrite (zext32 k), hwrite (s.reg a)⟩

end Sys2Proof.Machine
end
